-- ==== Sys2Proof/Config.lean ====
section
/-! DEFINITION. The constants of one implementation of the block: the parameters that the spec leaves open (00_scope.md
R4, R5, 93_implementation_defined.md U13) at the values it recommends for a first model, and the fixed search budget. -/

namespace Sys2Proof

/-- `W`, the width of every register and memory word (R4: `W >= 16`, "the recommended value for a first model is
`W = 32`"). DESIGN CHOICE, log entry 1. -/
def Config.wordBits : Nat := 32

/-- `LOGNMAX` (R5: `4 <= LOGNMAX <= W - 2`, recommended 10). DESIGN CHOICE, log entry 2. -/
def Config.logNMax : Nat := 10

/-- `NMAX = 2^LOGNMAX`, the depth of each of the three memories and the largest transform length (R5). -/
def Config.nMax : Nat := 2 ^ Config.logNMax

/-- `ATTEMPTS_MAX`: "It is a constant, not a parameter" (R6). -/
def Config.attemptsMax : Nat := 50

end Sys2Proof
end

