-- ==== Sys2Proof/Word.lean ====
section
/-! DEFINITION. The words of the block: registers and memory words (00_scope.md R4), entropy bytes (R8), host word
addresses (20_memory.md R60). All are unsigned; there are no signed values anywhere (R8). -/

namespace Sys2Proof

/-- A register or memory word, `W = 32` bits (R4; log entry 1). -/
abbrev Word := BitVec 32

/-- A byte delivered by the entropy source (41_secure_random_range.md R120). -/
abbrev Byte := BitVec 8

/-- A host address: `LOGNMAX + 2 = 12` bits, naming one word (20_memory.md R60; log entry 2). -/
abbrev Addr := BitVec 12

/-- `REG.X <- v` narrows `v` to `W` bits, `v mod 2^W` (00_scope.md R8, the notation table). -/
def toWord (v : Nat) : Word := BitVec.ofNat 32 v

end Sys2Proof
end

