-- ==== Sys2Proof/Syntax.lean ====
section
/-! DEFINITION. The syntax: the eleven commands (30_encoding.md R82), the fields of a command word (R80), the host
transaction (R81), the events of the block's environment, and the assembler's lines (R90, R91). -/

namespace Sys2Proof

/-- The commands, one constructor for each row of spec/opcode_table.json (R82). A command carries no operand: "every
operand is taken from a fixed register or memory" (R80). -/
inductive Instr where
  /-- `NOP` (R180). -/
  | nop
  /-- `RNDRANGE` (R123). -/
  | rndrange
  /-- `FINDROOT`, AUTO = 0 (R130). -/
  | findroot
  /-- `FINDROOT.A`, AUTO = 1 (R130). -/
  | findrootA
  /-- `TWGEN.F`, SEL = 0 (R140). -/
  | twgenF
  /-- `TWGEN.I`, SEL = 1 (R140). -/
  | twgenI
  /-- `FNTT` (R150). -/
  | fntt
  /-- `INTT` (R160). -/
  | intt
  /-- `BITREV` (R172). -/
  | bitrev
  /-- `MULMOD` (R108). -/
  | mulmod
  /-- `MODINV` (R109). -/
  | modinv
  deriving DecidableEq, Repr

/-- The fields of a command word, format C (R80). -/
structure CommandFields where
  /-- Bits `[3:0]`. -/
  op : BitVec 4
  /-- Bit 4, table select. -/
  sel : Bool
  /-- Bit 5, exponent select of FINDROOT. -/
  auto : Bool
  /-- Bits `[15:6]`, reserved. -/
  rsv0 : BitVec 10
  /-- Bits `[W-1:16]`, reserved. -/
  rsv1 : BitVec 16
  deriving DecidableEq, Repr

/-- The fourteen host-visible registers (10_state.md R20), in the order of their offsets. -/
inductive Reg where
  | cmd | status | errcode | caps | n | q | r | psi | psiInv | nInv | opa | opb | res | attempt
  deriving DecidableEq, Repr

/-- The three memories (10_state.md R36 to R38). -/
inductive Space where
  /-- The coefficient memory `A`. -/
  | a
  /-- The forward twiddle memory `TF`. -/
  | tf
  /-- The inverse twiddle memory `TI`. -/
  | ti
  deriving DecidableEq, Repr

/-- A host transaction, format T (R81): direction, address, and for a write the data the host supplies. -/
inductive Transaction where
  /-- `HostRead(addr)` (20_memory.md R62). -/
  | rd (addr : Addr)
  /-- `HostWrite(addr, v)` (20_memory.md R63). -/
  | wr (addr : Addr) (data : Word)
  deriving DecidableEq, Repr

/-- What the block's environment can do to it: a transaction of the host, a delivery of bytes by the entropy source
(41_secure_random_range.md R120), a reset (70_reset_and_hazards.md R220). Log entry 6. -/
inductive Event where
  | host (t : Transaction)
  | entropy (bytes : List Byte)
  | reset
  deriving DecidableEq, Repr

/-- A location of the assembler notation: a register name or a memory word (R90). -/
inductive Loc where
  | reg (reg : Reg)
  | word (sp : Space) (i : Nat)
  deriving DecidableEq, Repr

/-- A line of a host program (R90) or a pseudo-instruction (R91). -/
inductive AsmLine where
  | wr (loc : Loc) (v : Word)
  | rd (loc : Loc)
  | command (i : Instr)
  | setup (n q : Word)
  | ldvec (vs : List Word)
  | rdvec (sp : Space) (n : Nat)
  /-- `MOV dst, src`: a copy made by the host of the word its read of `src` returns. -/
  | mov (dst src : Loc)
  | clrerr
  /-- `EXPECT loc, value`: a read, with the claim that it returns `v`. -/
  | expect (loc : Loc) (v : Word)
  deriving DecidableEq, Repr

end Sys2Proof
end

