-- ==== Sys2Proof/WellFormed.lean ====
section
/-! DEFINITION. Well-formedness of the syntax: which fields make a legal command word (30_encoding.md R82, R83, R86) and
which assembler locations name a word (R90). -/

namespace Sys2Proof

/-- Every command is well formed: it has no operand that could be out of range (R80, R83). -/
def Instr.wellFormed : Instr → Bool
  | .nop | .rndrange | .findroot | .findrootA | .twgenF | .twgenI | .fntt | .intt | .bitrev | .mulmod | .modinv => true

/-- The reserved fields are zero (R80: "reserved, must be `0`"). -/
def CommandFields.reservedZero (f : CommandFields) : Bool := f.rsv0 == 0 && f.rsv1 == 0

/-- The operation code is not one of the reserved codes `0x9` to `0xF` (R82). -/
def CommandFields.opDefined (f : CommandFields) : Bool := f.op.toNat < 9

/-- `SEL` is set only with `OP = 0x3` (R83, R86). -/
def CommandFields.selAllowed (f : CommandFields) : Bool := !f.sel || f.op == 3

/-- `AUTO` is set only with `OP = 0x2` (R83, R86). -/
def CommandFields.autoAllowed (f : CommandFields) : Bool := !f.auto || f.op == 2

/-- The fields are those of a legal command word (R82, R86). -/
def CommandFields.wellFormed (f : CommandFields) : Bool :=
  f.reservedZero && f.opDefined && f.selAllowed && f.autoAllowed

/-- A memory location names one of the `NMAX` words (20_memory.md R60). -/
def Loc.wellFormed : Loc → Bool
  | .reg _ => true
  | .word _ i => i < Config.nMax

/-- Every location a line names exists: `LDVEC` and `RDVEC` stay inside their memory (R91). -/
def AsmLine.wellFormed : AsmLine → Bool
  | .wr loc _ | .rd loc | .expect loc _ => loc.wellFormed
  | .command i => i.wellFormed
  | .setup _ _ | .clrerr => true
  | .ldvec vs => vs.length ≤ Config.nMax
  | .rdvec _ n => n ≤ Config.nMax
  | .mov dst src => dst.wellFormed && src.wellFormed

end Sys2Proof
end

