-- ==== Sys2Proof/Decode.lean ====
section
/-! DEFINITION. The decoder of command words, total on every word (30_encoding.md R84), the encoder written from the same
table (R82), and the host's entry `decodeTableWord`. A command word is one word taken from the written value, not bytes of
a memory (20_memory.md R73), so there is no byte order to settle. -/

namespace Sys2Proof

/-- Why a word is illegal (R86). The block reports one code for all of them, ERR_ILLEGAL_CMD. -/
inductive Illegal where
  /-- A bit of `[W-1:6]` is set. -/
  | reservedBits
  /-- `OP` in `0x9..0xF`. -/
  | reservedOp
  /-- `SEL = 1` with `OP ≠ 0x3`. -/
  | straySel
  /-- `AUTO = 1` with `OP ≠ 0x2`. -/
  | strayAuto
  deriving DecidableEq, Repr

/-- The outcome of decoding: one of the eleven commands, or illegal (R84). -/
inductive Decoded where
  | legal (i : Instr)
  | illegal (why : Illegal)
  deriving DecidableEq, Repr

/-- The fields of a word, format C (R80). -/
def fieldsOfWord (c : Word) : CommandFields :=
  { op := c.extractLsb' 0 4, sel := c.getLsbD 4, auto := c.getLsbD 5
    rsv0 := c.extractLsb' 6 10, rsv1 := c.extractLsb' 16 16 }

/-- The word that carries the fields (R80). -/
def wordOfFields (f : CommandFields) : Word :=
  f.rsv1 ++ f.rsv0 ++ BitVec.ofBool f.auto ++ BitVec.ofBool f.sel ++ f.op

/-- The command that legal fields select (R84). The fields are taken to be well formed; other operation codes do not
reach this table. -/
def selectCommand (op : BitVec 4) (sel auto : Bool) : Option Instr :=
  match op.toNat with
  | 0 => some .nop
  | 1 => some .rndrange
  | 2 => some (if auto then .findrootA else .findroot)
  | 3 => some (if sel then .twgenI else .twgenF)
  | 4 => some .fntt
  | 5 => some .intt
  | 6 => some .bitrev
  | 7 => some .mulmod
  | 8 => some .modinv
  | _ => none

/-- Decoding, in the order of R84: reserved bits first, then the operation code with its flags. -/
def decode (c : Word) : Decoded :=
  let f := fieldsOfWord c
  if !f.reservedZero then .illegal .reservedBits
  else match selectCommand f.op f.sel f.auto with
    | none => .illegal .reservedOp
    | some i =>
      if !f.selAllowed then .illegal .straySel
      else if !f.autoAllowed then .illegal .strayAuto
      else .legal i

/-- The fields of each command (R82, the columns OP, SEL and AUTO). -/
def fieldsOf : Instr → CommandFields
  | .nop => { op := 0x0, sel := false, auto := false, rsv0 := 0, rsv1 := 0 }
  | .rndrange => { op := 0x1, sel := false, auto := false, rsv0 := 0, rsv1 := 0 }
  | .findroot => { op := 0x2, sel := false, auto := false, rsv0 := 0, rsv1 := 0 }
  | .findrootA => { op := 0x2, sel := false, auto := true, rsv0 := 0, rsv1 := 0 }
  | .twgenF => { op := 0x3, sel := false, auto := false, rsv0 := 0, rsv1 := 0 }
  | .twgenI => { op := 0x3, sel := true, auto := false, rsv0 := 0, rsv1 := 0 }
  | .fntt => { op := 0x4, sel := false, auto := false, rsv0 := 0, rsv1 := 0 }
  | .intt => { op := 0x5, sel := false, auto := false, rsv0 := 0, rsv1 := 0 }
  | .bitrev => { op := 0x6, sel := false, auto := false, rsv0 := 0, rsv1 := 0 }
  | .mulmod => { op := 0x7, sel := false, auto := false, rsv0 := 0, rsv1 := 0 }
  | .modinv => { op := 0x8, sel := false, auto := false, rsv0 := 0, rsv1 := 0 }

/-- The command word of a command (R82). -/
def encode (i : Instr) : Word := wordOfFields (fieldsOf i)

/-- The instruction the decoder reads from an instruction of `nbits` bits `w`. An instruction is one word; a value with a
bit above the word is no command word. -/
def decodeTableWord (nbits w : Nat) : Option Instr :=
  if w % 2 ^ nbits < 2 ^ Config.wordBits then
    match decode (toWord (w % 2 ^ nbits)) with
    | .legal i => some i
    | .illegal _ => none
  else none

end Sys2Proof
end

