-- ==== Sys2Proof/Machine/State.lean ====
section
/-! DEFINITION. The state of the block (10_state.md), the reasons a step can stop, and the state after reset (R44). -/

namespace Sys2Proof.Machine

/-- One of the three memories: its written words, as (index, word) pairs with the indices strictly rising. An index that is
not listed is a word "neither the host nor a command has written since reset": it holds no value (R44). The unit is the
word, because no narrower access exists (20_memory.md R64). Log entries 8 and 10. -/
abbrev Memory := List (Nat × Word)

/-- The canonical form: indices strictly rising and each below `NMAX`. No unlisted word has a value, so any listed value
is canonical. -/
def Memory.wf : Memory → Bool
  | [] => true
  | [(i, _)] => i < Config.nMax
  | (i, _) :: (j, w) :: m => i < j && Memory.wf ((j, w) :: m)

/-- The four flags of `STATUS` (10_state.md R22, R35). The reserved bits `[W-1:4]` read 0, so the flags are the whole
register (log entry 15). -/
structure Status where
  /-- Bit 0, `BUSY`. -/
  busy : Bool
  /-- Bit 1, `DONE`. -/
  done : Bool
  /-- Bit 2, `ERR`. -/
  err : Bool
  /-- Bit 3, `ERRS`, sticky. -/
  errs : Bool
  deriving DecidableEq, Repr

/-- The results a command can end with (60_exceptions.md R190). -/
inductive ErrCode where
  /-- 0, OK. -/
  | ok
  /-- 1, ERR_INVALID_RANGE (R192). -/
  | invalidRange
  /-- 2, ERR_ROOT_NOT_FOUND (R194). -/
  | rootNotFound
  /-- 3, ERR_CONFIG (R193). -/
  | config
  /-- 4, ERR_NOT_INVERTIBLE (R195). -/
  | notInvertible
  /-- 5, ERR_ILLEGAL_CMD (R191). -/
  | illegalCmd
  deriving DecidableEq, Repr

/-- A phase of one attempt of the root search (10_state.md R40, 42_primitive_root_search.md R139), with the scratch values
that phase needs (R41). -/
inductive RootPhase where
  /-- `DRAW`, refined by the number `d` of the current draw (R139). -/
  | draw (d : Nat)
  /-- `EXP_R`: the draw gave `x`. -/
  | expR (x : Nat)
  /-- `EXP_N`: `candidate = x^r mod q`. -/
  | expN (candidate : Nat)
  /-- `TEST`: `chk = candidate^n mod q`. -/
  | test (candidate chk : Nat)
  deriving DecidableEq, Repr

/-- The sequencer position (10_state.md R40). Scratch values that must survive from one micro-step to the next (R41) are
carried by the position that reads them, so there are none when `seq = IDLE` (log entry 11). -/
inductive Seq where
  | idle
  | fntt (m i j : Nat)
  | intt (m i j : Nat)
  | inttScale (j : Nat)
  /-- `TWGEN_POW(i)`; `dest` is `TF` or `TI`, `power` the running power `P[i-1]`, `powers` are `P[0..i-1]`. -/
  | twgenPow (dest : Space) (i power : Nat) (powers : List Nat)
  /-- `TWGEN_PERM(i)`; `left` are `P[i..n-1]`, the powers not yet placed. -/
  | twgenPerm (dest : Space) (i : Nat) (left : List Nat)
  /-- `BITREV(i)`; `left` are `old[i..n-1]`, the words of the snapshot not yet placed. -/
  | bitrev (i : Nat) (left : List Word)
  | root (attempt : Nat) (phase : RootPhase)
  /-- `DRAW(d)`, the current draw of a RNDRANGE. -/
  | draw (d : Nat)
  deriving DecidableEq, Repr

/-- The state of the block and, in the last three fields, of its environment as the model holds it. -/
structure State where
  /-- `CMD`, the last word written to it, legal or not (R21). -/
  cmd : Word
  /-- `STATUS` (R22). -/
  status : Status
  /-- `ERRCODE` (R23). -/
  errcode : Word
  /-- `N`, the degree (R25). -/
  n : Word
  /-- `Q`, the modulus (R26). -/
  q : Word
  /-- `R`, the exponent of the root search (R27). -/
  r : Word
  /-- `PSI`, the root (R28). -/
  psi : Word
  /-- `PSI_INV`, the root of the inverse table (R29). -/
  psiInv : Word
  /-- `N_INV` (R30). -/
  nInv : Word
  /-- `OPA` (R31). -/
  opa : Word
  /-- `OPB` (R31). -/
  opb : Word
  /-- `RES` (R32). -/
  res : Word
  /-- `ATTEMPT` (R33). -/
  attempt : Word
  /-- `A`, the coefficient memory (R36). -/
  a : Memory
  /-- `TF`, the forward twiddle memory (R37). -/
  tf : Memory
  /-- `TI`, the inverse twiddle memory (R38). -/
  ti : Memory
  /-- The sequencer position (R40). -/
  seq : Seq
  /-- The model's own: the bytes the entropy source has ready, consumed from the front (R42; log entry 5). -/
  entropy : List Byte
  /-- The model's own: what the environment will do next, in order (log entry 6). -/
  env : List Event
  /-- The model's own: the words returned to the host's reads, oldest first (20_memory.md R62; log entry 18). -/
  returned : List (Addr × Word)
  deriving DecidableEq, Repr

/-- The machine right after reset (10_state.md R44): every register 0, every flag 0, `seq = IDLE`, no memory word with a
value. The three fields of the environment are empty. -/
def State.reset : State :=
  { cmd := 0, status := { busy := false, done := false, err := false, errs := false }, errcode := 0
    n := 0, q := 0, r := 0, psi := 0, psiInv := 0, nInv := 0, opa := 0, opb := 0, res := 0, attempt := 0
    a := [], tf := [], ti := [], seq := .idle, entropy := [], env := [], returned := [] }

/-- The faults. The spec's own errors are results of commands, not faults (60_exceptions.md R190). -/
inductive Fault where
  /-- An engine access at an index that is no word of the memory, `i >= NMAX` (20_memory.md R61). Raised by the word
  accessors only; safe: no command does it, because its indices are below a valid `N` (R66). Log entry 9. -/
  | noSuchWord (sp : Space) (i : Nat)
  deriving DecidableEq, Repr

/-- The refusals: steps to which the spec lets a model give no meaning. -/
inductive Refusal where
  /-- An instruction without a meaning in this model. Raised by no arm: every command has its meaning. Safe. -/
  | notModelled (mnemonic : String)
  /-- A read, by a command or the host, of a memory word nothing has written since reset (10_state.md R44,
  70_reset_and_hazards.md R225, 93_implementation_defined.md U1: `refuse`). Safe. Log entry 8. -/
  | unwrittenWord (sp : Space) (i : Nat)
  /-- A host access other than a read of `STATUS` while a command waits with `BUSY = 1` (70_reset_and_hazards.md R230,
  93_implementation_defined.md U6: `refuse`). Safe. Log entry 12. -/
  | accessWhileBusy
  deriving DecidableEq, Repr

/-- The outcome of an operation that can stop: a value, a fault or a refusal. -/
abbrev Result (α : Type) := Host.Outcome α Fault Refusal

/-- How a command's pseudocode ends (47_system.md R181): with a result code, or not yet, waiting for the entropy source
(41_secure_random_range.md R124). -/
inductive Finish where
  | ended (code : ErrCode) (s : State)
  | waiting (s : State)
  deriving DecidableEq, Repr

end Sys2Proof.Machine
end

