-- ==== Sys2Proof/Machine/Flags.lean ====
section
/-! DEFINITION. Every flag computation of the spec: the flags of `STATUS` and `ERRCODE` at the start and the completion of
a command (10_state.md R35, 70_reset_and_hazards.md R230) and at an acknowledge (47_system.md R183). There are no
arithmetic flags (R35). -/

namespace Sys2Proof.Machine

/-- The number of a result code (60_exceptions.md R190). -/
def errCodeNumber : ErrCode → Nat
  | .ok => 0
  | .invalidRange => 1
  | .rootNotFound => 2
  | .config => 3
  | .notInvertible => 4
  | .illegalCmd => 5

/-- The value of `ERRCODE` for a result code (60_exceptions.md R190). -/
def errCodeWord (c : ErrCode) : Word := toWord (errCodeNumber c)

/-- `code ≠ 0`. -/
def isError (c : ErrCode) : Bool := c != .ok

/-- `STATUS` while a command runs: `BUSY = 1`, `DONE = ERR = 0`, `ERRS` as it was (70_reset_and_hazards.md R230; log
entry 4). -/
def statusAtStart (st : Status) : Status := { busy := true, done := false, err := false, errs := st.errs }

/-- `STATUS` at the completion of a command with code `c` (10_state.md R35). -/
def statusAtCompletion (c : ErrCode) (st : Status) : Status :=
  { busy := false, done := true, err := isError c, errs := st.errs || isError c }

/-- `STATUS` after a host write of `v` to it: bit 3 set clears `ERRS`, nothing else (10_state.md R22, 47_system.md
R183). -/
def statusAtWrite (v : Word) (st : Status) : Status :=
  if v.getLsbD 3 then { st with errs := false } else st

/-- The word a read of `STATUS` returns: the flags in bits 0 to 3, the reserved bits 0 (10_state.md R22). -/
def statusWord (st : Status) : Word :=
  toWord (st.busy.toNat + 2 * st.done.toNat + 4 * st.err.toNat + 8 * st.errs.toNat)

end Sys2Proof.Machine
end

