-- ==== Sys2Proof/Machine/Operands.lean ====
section
/-! DEFINITION. Operand forms: validity of the degree (00_scope.md R7), bit lengths and bit reversal (R8,
46_bit_reverse.md R170), the loop positions of the transforms (44_forward_ntt.md R152, 45_inverse_ntt.md R162), the host's
address map (20_memory.md R60) and the register offsets (10_state.md R20). -/

namespace Sys2Proof.Machine

/-- `NValid(n)`: `n` is one of `1, 2, 4, ..., NMAX` (R7). -/
def nValid (n : Nat) : Bool := (List.range (Config.logNMax + 1)).any fun k => n == 2 ^ k

/-- `log2(n)` for a valid `n`: the exponent `k` with `2^k = n` (R7). -/
def log2 (n : Nat) : Nat := Nat.log2 n

/-- `bitlen(x)` (R8, the notation table). -/
def bitlen (x : Nat) : Nat := if x = 0 then 0 else Nat.log2 x + 1

/-- `brv_k(i)`, the `k`-bit reversal of `i`: bit 0 of `i` becomes bit `k - 1` (R170). -/
def brv : Nat → Nat → Nat
  | 0, _ => 0
  | k + 1, i => (i % 2) * 2 ^ k + brv k (i / 2)

/-- A position of the stage, group, butterfly nest: stage `m`, group `i`, butterfly `j` (10_state.md R40). -/
structure LoopPos where
  m : Nat
  i : Nat
  j : Nat
  deriving DecidableEq, Repr

/-- The positions of one stage in the reference order: groups `i` ascending, and in group `i` the span
`2*i*t .. 2*i*t + t - 1` ascending (R152, R162). -/
def stagePositions (m groups t : Nat) : List LoopPos :=
  (List.range groups).flatMap fun i => (List.range t).map fun o => ⟨m, i, 2 * i * t + o⟩

/-- The half-span of FNTT's stage `m`: `t = n div (2m)` (R150). -/
def fnttSpan (n m : Nat) : Nat := n / (2 * m)

/-- The stages of FNTT: `m = 1, 2, 4, ..., n/2` (R152). -/
def fnttStages (n : Nat) : List Nat := (List.range (log2 n)).map fun s => 2 ^ s

/-- The positions FNTT visits, in order (R152). -/
def fnttPositions (n : Nat) : List LoopPos :=
  (fnttStages n).flatMap fun m => stagePositions m m (fnttSpan n m)

/-- The half-span of INTT's stage `m`: `t = n div m` (R160, R162). -/
def inttSpan (n m : Nat) : Nat := n / m

/-- The stages of INTT: `m = n, n/2, ..., 2` (R162). -/
def inttStages (n : Nat) : List Nat := (List.range (log2 n)).map fun s => n / 2 ^ s

/-- The butterfly positions INTT visits, in order (R162); stage `m` has `h = m div 2` groups. -/
def inttPositions (n : Nat) : List LoopPos :=
  (inttStages n).flatMap fun m => stagePositions m (m / 2) (inttSpan n m)

/-- The position FNTT visits after `p`, `none` after the last butterfly of stage `n/2` (R152). -/
def fnttNext (n : Nat) (p : LoopPos) : Option LoopPos :=
  let t := fnttSpan n p.m
  if p.j + 1 < 2 * p.i * t + t then some ⟨p.m, p.i, p.j + 1⟩
  else if p.i + 1 < p.m then some ⟨p.m, p.i + 1, 2 * (p.i + 1) * t⟩
  else if 2 * p.m ≤ n / 2 then some ⟨2 * p.m, 0, 0⟩
  else none

/-- The butterfly position INTT visits after `p`, `none` after the last butterfly of stage `m = 2` (R162). -/
def inttNext (n : Nat) (p : LoopPos) : Option LoopPos :=
  let t := inttSpan n p.m
  if p.j + 1 < 2 * p.i * t + t then some ⟨p.m, p.i, p.j + 1⟩
  else if p.i + 1 < p.m / 2 then some ⟨p.m, p.i + 1, 2 * (p.i + 1) * t⟩
  else if 2 ≤ p.m / 2 then some ⟨p.m / 2, 0, 0⟩
  else none

/-- The region of a host address, `addr[LOGNMAX+1 : LOGNMAX]` (20_memory.md R60). -/
def addrRegion (addr : Addr) : Nat := addr.toNat / Config.nMax

/-- The offset of a host address, `addr[LOGNMAX-1 : 0]` (20_memory.md R60). -/
def addrOffset (addr : Addr) : Nat := addr.toNat % Config.nMax

/-- The memory behind a region, `none` for region 0, the registers (20_memory.md R60). -/
def regionSpace : Nat → Option Space
  | 1 => some .a
  | 2 => some .tf
  | 3 => some .ti
  | _ => none

/-- The region of a memory (20_memory.md R60). -/
def spaceRegion : Space → Nat
  | .a => 1
  | .tf => 2
  | .ti => 3

/-- The register at an offset of region 0; `none` for the reserved offsets `0xE` and above (10_state.md R20). -/
def regAtOffset : Nat → Option Reg
  | 0x0 => some .cmd
  | 0x1 => some .status
  | 0x2 => some .errcode
  | 0x3 => some .caps
  | 0x4 => some .n
  | 0x5 => some .q
  | 0x6 => some .r
  | 0x7 => some .psi
  | 0x8 => some .psiInv
  | 0x9 => some .nInv
  | 0xA => some .opa
  | 0xB => some .opb
  | 0xC => some .res
  | 0xD => some .attempt
  | _ => none

/-- The offset of a register (10_state.md R20). -/
def regOffset : Reg → Nat
  | .cmd => 0x0
  | .status => 0x1
  | .errcode => 0x2
  | .caps => 0x3
  | .n => 0x4
  | .q => 0x5
  | .r => 0x6
  | .psi => 0x7
  | .psiInv => 0x8
  | .nInv => 0x9
  | .opa => 0xA
  | .opb => 0xB
  | .res => 0xC
  | .attempt => 0xD

/-- The host address of a register (30_encoding.md R90). -/
def regAddr (reg : Reg) : Addr := BitVec.ofNat 12 (regOffset reg)

/-- The host address of word `i` of a memory: `region * NMAX + i` (20_memory.md R60, 30_encoding.md R90). -/
def wordAddr (sp : Space) (i : Nat) : Addr := BitVec.ofNat 12 (spaceRegion sp * Config.nMax + i)

/-- The constant `CAPS`: `W` in bits `[7:0]`, `LOGNMAX` in bits `[15:8]` (10_state.md R24). -/
def capsWord : Word := toWord (Config.wordBits + Config.logNMax * 2 ^ 8)

end Sys2Proof.Machine
end

