-- ==== Sys2Proof/Machine/Ops.lean ====
section
/-! DEFINITION. The named operations over memories and registers, the completion frame of a command, in which an error is
reported (47_system.md R181, 60_exceptions.md R196), and the checks a command makes first (60_exceptions.md R193). -/

namespace Sys2Proof.Machine

/-- Sequencing of operations that can stop: the first fault or refusal ends the step. -/
def andThen {α β : Type} (o : Result α) (f : α → Result β) : Result β :=
  match o with
  | .next x => f x
  | .fault e => .fault e
  | .refused e => .refused e

/-- An operation done for each element of a list, in order. -/
def forEach {α : Type} (f : α → State → Result State) : List α → State → Result State
  | [], s => .next s
  | x :: xs, s => andThen (f x s) (forEach f xs)

/-! ## Memories -/

/-- The value a memory lists for index `i`; `none` where nothing was written (10_state.md R44). -/
def memRead : Memory → Nat → Option Word
  | [], _ => none
  | (j, w) :: m, i => if i = j then some w else memRead m i

/-- The memory with index `i` listed as `v`, in canonical form. -/
def memWrite : Memory → Nat → Word → Memory
  | [], i, v => [(i, v)]
  | (j, w) :: m, i, v =>
    if i < j then (i, v) :: (j, w) :: m
    else if i = j then (i, v) :: m
    else (j, w) :: memWrite m i v

/-- The memory a space names (10_state.md R36 to R38). -/
def spaceMem (sp : Space) (s : State) : Memory :=
  match sp with
  | .a => s.a
  | .tf => s.tf
  | .ti => s.ti

/-- The state with the memory of a space replaced. -/
def setSpaceMem (sp : Space) (m : Memory) (s : State) : State :=
  match sp with
  | .a => { s with a := m }
  | .tf => { s with tf := m }
  | .ti => { s with ti := m }

/-- `MemRead(space, i)` (00_scope.md R8): the word, or a stop where the word holds no value (70_reset_and_hazards.md R225)
or does not exist (20_memory.md R61). -/
def readWord (sp : Space) (i : Nat) (s : State) : Result Word :=
  if i < Config.nMax then
    match memRead (spaceMem sp s) i with
    | some v => .next v
    | none => .refused (.unwrittenWord sp i)
  else .fault (.noSuchWord sp i)

/-- `MemWrite(space, i, v)` (00_scope.md R8). -/
def writeWord (sp : Space) (i : Nat) (v : Word) (s : State) : Result State :=
  if i < Config.nMax then .next (setSpaceMem sp (memWrite (spaceMem sp s) i v) s)
  else .fault (.noSuchWord sp i)

/-- The words `i, i+1, ..., i+count-1` of a memory, read in that order (the snapshot of 46_bit_reverse.md R172). -/
def readWords (sp : Space) (s : State) : Nat → Nat → Result (List Word)
  | 0, _ => .next []
  | count + 1, i =>
    andThen (readWord sp i s) fun v => andThen (readWords sp s count (i + 1)) fun vs => .next (v :: vs)

/-! ## Registers, as commands write them -/

/-- `REG.R <- v` (42_primitive_root_search.md R131). -/
def setR (v : Nat) (s : State) : State := { s with r := toWord v }

/-- `REG.PSI <- v` (42_primitive_root_search.md R130). -/
def setPsi (v : Nat) (s : State) : State := { s with psi := toWord v }

/-- `REG.N_INV <- v` (45_inverse_ntt.md R160). -/
def setNInv (v : Nat) (s : State) : State := { s with nInv := toWord v }

/-- `REG.RES <- v` (10_state.md R32). -/
def setRes (v : Nat) (s : State) : State := { s with res := toWord v }

/-- `REG.ATTEMPT <- v` (42_primitive_root_search.md R130). -/
def setAttempt (v : Nat) (s : State) : State := { s with attempt := toWord v }

/-- The entropy source's list after bytes were taken from its front (10_state.md R42). -/
def setEntropy (bs : List Byte) (s : State) : State := { s with entropy := bs }

/-- `seq <- p` (10_state.md R40). -/
def setSeq (p : Seq) (s : State) : State := { s with seq := p }

/-! ## The frame of a command (47_system.md R181) -/

/-- The start of a command: `STATUS.BUSY <- 1`; `DONE` and `ERR` read 0 while it runs (70_reset_and_hazards.md R230). -/
def beginCommand (s : State) : State := { s with status := statusAtStart s.status }

/-- The completion of a command, which is also how an error is taken: `ERRCODE`, the flags, `seq <- IDLE`, and nothing
else (10_state.md R35, 60_exceptions.md R196). Control goes nowhere and nothing is saved but the code (R196, R197). -/
def completeCommand (c : ErrCode) (s : State) : State :=
  { s with errcode := errCodeWord c, status := statusAtCompletion c s.status, seq := .idle }

/-- There is no return from an error (60_exceptions.md R198); what a host can do afterwards is to acknowledge it, by a
write of `v` to `STATUS` (47_system.md R183). -/
def acknowledge (v : Word) (s : State) : State := { s with status := statusAtWrite v s.status }

/-- A command's pseudocode inside its frame (47_system.md R181): start, run, complete with the outcome's code. A command
that waits for the entropy source leaves the completion block not run (41_secure_random_range.md R124; log entry 3). -/
def runCommand (body : State → Result Finish) (s : State) : Result State :=
  andThen (body (beginCommand s)) fun o =>
    match o with
    | .ended c s' => .next (completeCommand c s')
    | .waiting s' => .next s'

/-- `raise E` (60_exceptions.md R196): the pseudocode stops; writes already made stay. -/
def raise (c : ErrCode) (s : State) : Result Finish := .next (.ended c s)

/-- The pseudocode ran to its end. -/
def finish (s : State) : Result Finish := .next (.ended .ok s)

/-- An illegal command word: the frame with ERR_ILLEGAL_CMD and no other effect (30_encoding.md R86, 60_exceptions.md
R191). -/
def illegalCommand (s : State) : State := completeCommand .illegalCmd (beginCommand s)

/-! ## The checks a command makes first (60_exceptions.md R193) -/

/-- `if REG.Q = 0: raise ERR_CONFIG`, then the rest with `q = REG.Q`. -/
def withQ (s : State) (k : Nat → Result Finish) : Result Finish :=
  if s.q.toNat = 0 then raise .config s else k s.q.toNat

/-- `if not NValid(REG.N): raise ERR_CONFIG`, then the rest with `n = REG.N`. -/
def withN (s : State) (k : Nat → Result Finish) : Result Finish :=
  if nValid s.n.toNat then k s.n.toNat else raise .config s

/-- `if REG.Q = 0 or not NValid(REG.N): raise ERR_CONFIG`, then the rest with `n = REG.N`, `q = REG.Q`. -/
def withNQ (s : State) (k : Nat → Nat → Result Finish) : Result Finish :=
  if s.q.toNat ≠ 0 ∧ nValid s.n.toNat = true then k s.n.toNat s.q.toNat else raise .config s

end Sys2Proof.Machine
end

