-- ==== Sys2Proof/Machine/BitReverse.lean ====
section
/-! DEFINITION. The bit-reversal permutation (46_bit_reverse.md R171) and the meaning of BITREV (R172). -/

namespace Sys2Proof.Machine

/-- `A[brv_k(i)] <- old[i]` (R172). -/
def placeOld (k : Nat) (p : Word × Nat) (s : State) : Result State := writeWord .a (brv k p.2) p.1 s

/-- The pseudocode of BITREV: the snapshot of `A[0..n-1]`, then the writes (R172). `REG.Q` is not read. -/
def bitrevBody (s : State) : Result Finish :=
  withN s fun n =>
    andThen (readWords .a s n 0) fun old =>
    andThen (forEach (placeOld (log2 n)) old.zipIdx s) finish

/-- BITREV: the bit-reversal permutation of `A[0..N-1]` (R172). -/
def execBitrev (s : State) : Result State := runCommand bitrevBody s

end Sys2Proof.Machine
end

