-- ==== Sys2Proof/Machine/Arith.lean ====
section
/-! DEFINITION. The sub-block `modular_multiplier`: the five modular functions (40_modular_arithmetic.md R100 to R105), on
unbounded integers, so that no intermediate value wraps (R100, R106). -/

namespace Sys2Proof.Machine

/-- `AddMod(a, b, q)` (R101). -/
def addMod (a b q : Nat) : Nat := (a + b) % q

/-- `SubMod(a, b, q)`, in the unsigned form of R102. -/
def subMod (a b q : Nat) : Nat := (a % q + q - b % q) % q

/-- `MulMod(a, b, q)`, the product exact before the reduction (R103). -/
def mulMod (a b q : Nat) : Nat := a * b % q

/-- Square-and-multiply over the bits of `e`, with one unit of fuel for each bit. -/
def modExpBits (q : Nat) : Nat → Nat → Nat → Nat
  | 0, _, _ => 1 % q
  | fuel + 1, b, e =>
    if e = 0 then 1 % q
    else
      let h := modExpBits q fuel (mulMod b b q) (e / 2)
      if e % 2 = 1 then mulMod b h q else h

/-- `ModExp(b, e, q)`, whose value R104 fixes as `b^e mod q`; the method is free (log entry 17). -/
def modExp (b e q : Nat) : Nat := modExpBits q (Nat.log2 e + 1) b e

/-- Euclid's algorithm with the coefficient of the second operand kept modulo `q`: from remainders `r0`, `r1` with
coefficients `t0`, `t1`, the coefficient of the last remainder that is not zero. -/
def euclidCoeff (q : Nat) : Nat → Nat → Nat → Nat → Nat → Nat
  | 0, _, _, t0, _ => t0
  | fuel + 1, r0, r1, t0, t1 =>
    if r1 = 0 then t0
    else euclidCoeff q fuel r1 (r0 % r1) t1 (subMod t0 (mulMod (r0 / r1) t1 q) q)

/-- `ModInv(x, q)`: the unique inverse when `gcd(x mod q, q) = 1`, otherwise `NotInvertible`, here `none` (R105). The
method is free (log entry 17). -/
def modInv (x q : Nat) : Option Nat :=
  let x' := x % q
  if Nat.gcd x' q = 1 then some (euclidCoeff q (x' + 1) q x' 0 (1 % q) % q) else none

end Sys2Proof.Machine
end

