-- ==== Sys2Proof/Machine/ForwardNtt.lean ====
section
/-! DEFINITION. The forward transform: the Cooley-Tukey butterfly (44_forward_ntt.md R151) and the meaning of FNTT
(R150). -/

namespace Sys2Proof.Machine

/-- The Cooley-Tukey butterfly `CT(j, t, S, q)`: both reads before either write (R151). -/
def ctButterfly (q j t tw : Nat) (s : State) : Result State :=
  andThen (readWord .a j s) fun u =>
  andThen (readWord .a (j + t) s) fun w =>
  let v := mulMod w.toNat tw q
  andThen (writeWord .a j (toWord (addMod u.toNat v q)) s) fun s' =>
  writeWord .a (j + t) (toWord (subMod u.toNat v q)) s'

/-- The micro-step of position `(m, i, j)`: `S = TF[m + i]`, then the butterfly with `t = n div (2m)` (R150, R152). -/
def fnttAt (n q : Nat) (p : LoopPos) (s : State) : Result State :=
  andThen (readWord .tf (p.m + p.i) s) fun tw => ctButterfly q p.j (fnttSpan n p.m) tw.toNat s

/-- The pseudocode of FNTT (R150). -/
def fnttBody (s : State) : Result Finish :=
  withNQ s fun n q => andThen (forEach (fnttAt n q) (fnttPositions n) s) finish

/-- FNTT: the forward transform of `A[0..N-1]`, in place (R150). -/
def execFntt (s : State) : Result State := runCommand fnttBody s

end Sys2Proof.Machine
end

