-- ==== Sys2Proof/Machine/InverseNtt.lean ====
section
/-! DEFINITION. The inverse transform: the Gentleman-Sande butterfly (45_inverse_ntt.md R161), the final scaling (R163) and
the meaning of INTT (R160). -/

namespace Sys2Proof.Machine

/-- The Gentleman-Sande butterfly `GS(j, t, S, q)`: both reads before either write (R161). -/
def gsButterfly (q j t tw : Nat) (s : State) : Result State :=
  andThen (readWord .a j s) fun u =>
  andThen (readWord .a (j + t) s) fun v =>
  andThen (writeWord .a j (toWord (addMod u.toNat v.toNat q)) s) fun s' =>
  writeWord .a (j + t) (toWord (mulMod (subMod u.toNat v.toNat q) tw q)) s'

/-- The micro-step of position `(m, i, j)`: `S = TI[h + i]` with `h = m div 2`, then the butterfly with `t = n div m`
(R160, R162). -/
def inttAt (n q : Nat) (p : LoopPos) (s : State) : Result State :=
  andThen (readWord .ti (p.m / 2 + p.i) s) fun tw => gsButterfly q p.j (inttSpan n p.m) tw.toNat s

/-- The scaling of word `j`: `A[j] <- MulMod(A[j], ninv, q)` (R160, R163). -/
def scaleAt (q ninv j : Nat) (s : State) : Result State :=
  andThen (readWord .a j s) fun v => writeWord .a j (toWord (mulMod v.toNat ninv q)) s

/-- The pseudocode of INTT: the inverse of `n` before anything is written, the stages, the scaling (R160, R163). -/
def inttBody (s : State) : Result Finish :=
  withNQ s fun n q =>
    match modInv n q with
    | none => raise .notInvertible s
    | some ninv =>
      andThen (forEach (inttAt n q) (inttPositions n) (setNInv ninv s)) fun s' =>
      andThen (forEach (scaleAt q ninv) (List.range n) s') finish

/-- INTT: the inverse transform of `A[0..N-1]` with scaling, in place (R160). -/
def execIntt (s : State) : Result State := runCommand inttBody s

end Sys2Proof.Machine
end

