-- ==== Sys2Proof/Machine/Random.lean ====
section
/-! DEFINITION. The uniform draw in a range (41_secure_random_range.md R121, R122) and the meaning of RNDRANGE (R123). -/

namespace Sys2Proof.Machine

/-- The bytes of one draw as a little-endian number, the first byte delivered being the least significant (R121,
20_memory.md R65). -/
def leValue : List Byte → Nat
  | [] => 0
  | b :: bs => b.toNat + 256 * leValue bs

/-- `nbytes = ceil(bitlen(span) / 8)` (R121). -/
def drawBytes (span : Nat) : Nat := (bitlen span + 7) / 8

/-- `mask = 2^bitlen(span) - 1` (R122). -/
def drawMask (span : Nat) : Nat := 2 ^ bitlen span - 1

/-- What one pass of the rejection loop gives (R121). -/
inductive DrawStep where
  /-- The masked draw is in the span: the value, and the bytes left. -/
  | accepted (v : Nat) (rest : List Byte)
  /-- The masked draw is above the span: its bytes are discarded. -/
  | rejected (rest : List Byte)
  /-- The source has fewer than `nbytes` bytes ready: `Entropy(nbytes)` has not answered (R124). -/
  | starved
  deriving DecidableEq, Repr

/-- One pass of the rejection loop (R121): one `Entropy(nbytes)`, the mask, the comparison with the span. -/
def drawOnce (min span : Nat) (bs : List Byte) : DrawStep :=
  if bs.length < drawBytes span then .starved
  else
    let mv := leValue (bs.take (drawBytes span)) &&& drawMask span
    if mv ≤ span then .accepted (min + mv) (bs.drop (drawBytes span)) else .rejected (bs.drop (drawBytes span))

/-- The outcome of `RandRange(min, max)` on the bytes the source has ready (R121, R124). -/
inductive Draw where
  | value (v : Nat) (rest : List Byte)
  | invalidRange
  /-- The source has not answered draw number `d`. -/
  | starved (d : Nat) (rest : List Byte)
  deriving DecidableEq, Repr

/-- The rejection loop from draw number `d` (R121). The loop is not bounded (R124): `fuel` exceeds the number of bytes
ready, each pass takes at least one, so it is the bytes that run out. -/
def drawLoop (min span : Nat) : Nat → Nat → List Byte → Draw
  | 0, d, bs => .starved d bs
  | fuel + 1, d, bs =>
    match drawOnce min span bs with
    | .accepted v rest => .value v rest
    | .rejected rest => drawLoop min span fuel (d + 1) rest
    | .starved => .starved d bs

/-- `RandRange(min, max)` (R121). -/
def randRange (min max : Nat) (bs : List Byte) : Draw :=
  if max < min then .invalidRange
  else if min = max then .value min bs
  else drawLoop min (max - min) (bs.length + 1) 1 bs

/-- The pseudocode of RNDRANGE (R123). -/
def rndrangeBody (s : State) : Result Finish :=
  match randRange s.opa.toNat s.opb.toNat s.entropy with
  | .invalidRange => raise .invalidRange s
  | .value v rest => finish (setRes v (setEntropy rest s))
  | .starved d rest => .next (.waiting (setSeq (.draw d) (setEntropy rest s)))

/-- RNDRANGE: `RES <-` a draw in `[OPA, OPB]` (R123). -/
def execRndrange (s : State) : Result State := runCommand rndrangeBody s

end Sys2Proof.Machine
end

