-- ==== Sys2Proof/Machine/RootSearch.lean ====
section
/-! DEFINITION. The primitive-root search and the meanings of FINDROOT and FINDROOT.A (42_primitive_root_search.md R130 to
R134). -/

namespace Sys2Proof.Machine

/-- The outcome of the search on the bytes the source has ready (R130). -/
inductive Search where
  | found (candidate attempt : Nat) (rest : List Byte)
  | invalidRange (attempt : Nat)
  | notFound (attempt : Nat) (rest : List Byte)
  /-- The source has not answered draw `d` of this attempt (R137). -/
  | starved (attempt d : Nat) (rest : List Byte)
  deriving DecidableEq, Repr

/-- The acceptance test of a candidate: `candidate^n mod q = q - 1` (R132). -/
def rootAccepted (n q candidate : Nat) : Bool := modExp candidate n q == q - 1

/-- Attempts `attempt, attempt + 1, ...`, as many as the first argument says (R130, R132): draw `x` in `[2, q - 1]`,
`candidate = x^r mod q`, test. -/
def rootSearch (n q r : Nat) : Nat → Nat → List Byte → Search
  | 0, attempt, bs => .notFound (attempt - 1) bs
  | left + 1, attempt, bs =>
    match randRange 2 (q - 1) bs with
    | .invalidRange => .invalidRange attempt
    | .starved d rest => .starved attempt d rest
    | .value x rest =>
      let candidate := modExp x r q
      if rootAccepted n q candidate then .found candidate attempt rest
      else rootSearch n q r left (attempt + 1) rest

/-- `REG.R <- (REG.Q - 1) div (2 * REG.N)` when AUTO = 1; the host's `R` when AUTO = 0 (R131). -/
def prepareR (auto : Bool) (n q : Nat) (s : State) : State :=
  if auto then setR ((q - 1) / (2 * n)) s else s

/-- The pseudocode of FINDROOT (R130). -/
def findrootBody (auto : Bool) (s : State) : Result Finish :=
  withNQ s fun n q =>
    let s := prepareR auto n q s
    match rootSearch n q s.r.toNat Config.attemptsMax 1 s.entropy with
    | .found candidate attempt rest => finish (setPsi candidate (setAttempt attempt (setEntropy rest s)))
    | .invalidRange attempt => raise .invalidRange (setAttempt attempt s)
    | .notFound attempt rest => raise .rootNotFound (setAttempt attempt (setEntropy rest s))
    | .starved attempt d rest =>
      .next (.waiting (setSeq (.root attempt (.draw d)) (setAttempt attempt (setEntropy rest s))))

/-- FINDROOT: the search with `R` as the host wrote it, AUTO = 0 (R130). -/
def execFindroot (s : State) : Result State := runCommand (findrootBody false) s

/-- FINDROOT.A: the search with `R` computed first, AUTO = 1 (R130, R131). -/
def execFindrootA (s : State) : Result State := runCommand (findrootBody true) s

end Sys2Proof.Machine
end

