-- ==== Sys2Proof/Machine/Scalar.lean ====
section
/-! DEFINITION. The meanings of MULMOD and MODINV (40_modular_arithmetic.md R108, R109). -/

namespace Sys2Proof.Machine

/-- The pseudocode of MULMOD (R108). -/
def mulmodBody (s : State) : Result Finish :=
  withQ s fun q => finish (setRes (mulMod s.opa.toNat s.opb.toNat q) s)

/-- MULMOD: `RES <- OPA * OPB mod Q` (R108). -/
def execMulmod (s : State) : Result State := runCommand mulmodBody s

/-- The pseudocode of MODINV (R109). -/
def modinvBody (s : State) : Result Finish :=
  withQ s fun q =>
    match modInv s.opa.toNat q with
    | none => raise .notInvertible s
    | some y => finish (setRes y s)

/-- MODINV: `RES <-` the inverse of `OPA` modulo `Q` (R109). -/
def execModinv (s : State) : Result State := runCommand modinvBody s

end Sys2Proof.Machine
end

