-- ==== Sys2Proof/Machine/System.lean ====
section
/-! DEFINITION. The meaning of NOP (47_system.md R180). -/

namespace Sys2Proof.Machine

/-- NOP: the pseudocode is empty; the frame runs with `code = 0` (R180). -/
def execNop (s : State) : Result State := runCommand finish s

end Sys2Proof.Machine
end

