-- ==== Sys2Proof/Machine/Twiddle.lean ====
section
/-! DEFINITION. The twiddle tables: the meanings of TWGEN.F and TWGEN.I (43_twiddle_table.md R140). -/

namespace Sys2Proof.Machine

/-- `count` powers in natural order from `p` on, each the one before times the root (R140). -/
def powersFrom (root q : Nat) : Nat → Nat → List Nat
  | 0, _ => []
  | count + 1, p => p :: powersFrom root q count (mulMod p root q)

/-- `P[0..n-1]`: `P[0] = 1 mod q`, `P[i] = MulMod(P[i-1], root, q)` (R140). -/
def powers (root q n : Nat) : List Nat := powersFrom root q n (1 % q)

/-- `dest[brv_k(i)] <- P[i]` (R140, 46_bit_reverse.md R171). -/
def placePower (dest : Space) (k : Nat) (p : Nat × Nat) (s : State) : Result State :=
  writeWord dest (brv k p.2) (toWord p.1) s

/-- The root register of a destination: `PSI` for `TF`, `PSI_INV` for `TI` (R140). -/
def twiddleRoot (dest : Space) (s : State) : Nat :=
  match dest with
  | .ti => s.psiInv.toNat
  | .tf | .a => s.psi.toNat

/-- The pseudocode of TWGEN with destination `TF` (SEL = 0) or `TI` (SEL = 1) (R140). -/
def twgenBody (dest : Space) (s : State) : Result Finish :=
  withNQ s fun n q =>
    andThen (forEach (placePower dest (log2 n)) (powers (twiddleRoot dest s) q n).zipIdx s) finish

/-- TWGEN.F: the table of powers of `PSI` into `TF` (R140). -/
def execTwgenF (s : State) : Result State := runCommand (twgenBody .tf) s

/-- TWGEN.I: the table of powers of `PSI_INV` into `TI` (R140). -/
def execTwgenI (s : State) : Result State := runCommand (twgenBody .ti) s

end Sys2Proof.Machine
end

