-- ==== Sys2Proof/Machine/Dispatch.lean ====
section
/-! DEFINITION. The dispatch: one arm for each command, one direct call of its meaning (47_system.md R181). -/

namespace Sys2Proof.Machine

def exec (i : Instr) (s : State) : Host.Outcome State Fault Refusal :=
  match i with
  | .nop => Sys2Proof.Machine.execNop s
  | .rndrange => Sys2Proof.Machine.execRndrange s
  | .findroot => Sys2Proof.Machine.execFindroot s
  | .findrootA => Sys2Proof.Machine.execFindrootA s
  | .twgenF => Sys2Proof.Machine.execTwgenF s
  | .twgenI => Sys2Proof.Machine.execTwgenI s
  | .fntt => Sys2Proof.Machine.execFntt s
  | .intt => Sys2Proof.Machine.execIntt s
  | .bitrev => Sys2Proof.Machine.execBitrev s
  | .mulmod => Sys2Proof.Machine.execMulmod s
  | .modinv => Sys2Proof.Machine.execModinv s

end Sys2Proof.Machine
end

