-- ==== Sys2Proof/Machine/Micro.lean ====
section
/-! DEFINITION. The micro-step level (00_scope.md R3): the sequencer and its transitions (10_state.md R40,
42_primitive_root_search.md R139, 44_forward_ntt.md R152, 45_inverse_ntt.md R162). A command that had to wait for the
entropy source goes on by these micro-steps (log entry 16); a command that does not wait runs whole inside one step, and
its result is the state its micro-steps reach (R3). -/

namespace Sys2Proof.Machine

/-- The position after a stage butterfly of FNTT, or the completion after the last (R152). -/
def fnttAdvance (n : Nat) (p : LoopPos) (s : State) : State :=
  match fnttNext n p with
  | some p' => setSeq (.fntt p'.m p'.i p'.j) s
  | none => completeCommand .ok s

/-- The position after a stage butterfly of INTT, or the first scaling after the last (R162). -/
def inttAdvance (n : Nat) (p : LoopPos) (s : State) : State :=
  match inttNext n p with
  | some p' => setSeq (.intt p'.m p'.i p'.j) s
  | none => setSeq (.inttScale 0) s

/-- The entry of attempt `k`: `REG.ATTEMPT <- k`, `seq <- ROOT(k, DRAW)` (R130, R139). -/
def enterAttempt (k : Nat) (s : State) : State := setSeq (.root k (.draw 1)) (setAttempt k s)

/-- The micro-step of a phase of attempt `k` (R139); `none` while the source has not answered the current draw. -/
def rootStep (k : Nat) (phase : RootPhase) (s : State) : Option State :=
  let q := s.q.toNat
  match phase with
  | .draw d =>
    if q - 1 < 2 then some (completeCommand .invalidRange s)
    else if q - 1 = 2 then some (setSeq (.root k (.expR 2)) s)
    else match drawOnce 2 (q - 1 - 2) s.entropy with
      | .accepted x rest => some (setSeq (.root k (.expR x)) (setEntropy rest s))
      | .rejected rest => some (setSeq (.root k (.draw (d + 1))) (setEntropy rest s))
      | .starved => none
  | .expR x => some (setSeq (.root k (.expN (modExp x s.r.toNat q))) s)
  | .expN candidate => some (setSeq (.root k (.test candidate (modExp candidate s.n.toNat q))) s)
  | .test candidate chk =>
    if chk = q - 1 then some (completeCommand .ok (setPsi candidate s))
    else if k < Config.attemptsMax then some (enterAttempt (k + 1) s)
    else some (completeCommand .rootNotFound s)

/-- The micro-step of draw `d` of a RNDRANGE (R121, R123); `none` while the source has not answered it. -/
def rndrangeStep (d : Nat) (s : State) : Option State :=
  match drawOnce s.opa.toNat (s.opb.toNat - s.opa.toNat) s.entropy with
  | .accepted v rest => some (completeCommand .ok (setRes v (setEntropy rest s)))
  | .rejected rest => some (setSeq (.draw (d + 1)) (setEntropy rest s))
  | .starved => none

/-- One micro-step of the engine: `none` when it does not move, because it is idle or waits for the entropy source
(R124). -/
def microStep (s : State) : Result (Option State) :=
  let n := s.n.toNat
  let q := s.q.toNat
  match s.seq with
  | .idle => .next none
  | .fntt m i j => andThen (fnttAt n q ⟨m, i, j⟩ s) fun s' => .next (some (fnttAdvance n ⟨m, i, j⟩ s'))
  | .intt m i j => andThen (inttAt n q ⟨m, i, j⟩ s) fun s' => .next (some (inttAdvance n ⟨m, i, j⟩ s'))
  | .inttScale j =>
    andThen (scaleAt q s.nInv.toNat j s) fun s' =>
      .next (some (if j + 1 < n then setSeq (.inttScale (j + 1)) s' else completeCommand .ok s'))
  | .twgenPow dest i power ps =>
    let p := mulMod power (twiddleRoot dest s) q
    .next (some (setSeq (if i + 1 < n then .twgenPow dest (i + 1) p (ps ++ [p]) else .twgenPerm dest 0 (ps ++ [p])) s))
  | .twgenPerm _ _ [] => .next (some (completeCommand .ok s))
  | .twgenPerm dest i (p :: ps) =>
    andThen (placePower dest (log2 n) (p, i) s) fun s' =>
      .next (some (if i + 1 < n then setSeq (.twgenPerm dest (i + 1) ps) s' else completeCommand .ok s'))
  | .bitrev _ [] => .next (some (completeCommand .ok s))
  | .bitrev i (w :: ws) =>
    andThen (placeOld (log2 n) (w, i) s) fun s' =>
      .next (some (if i + 1 < n then setSeq (.bitrev (i + 1) ws) s' else completeCommand .ok s'))
  | .root k phase => .next (rootStep k phase s)
  | .draw d => .next (rndrangeStep d s)

/-- `k` micro-steps, fewer when the engine stops moving. -/
def microRun : Nat → State → Result State
  | 0, s => .next s
  | k + 1, s =>
    andThen (microStep s) fun o =>
      match o with
      | some s' => microRun k s'
      | none => .next s

/-- How a command enters its first micro-step (R40): its checks, then the first position; a command whose pseudocode has
no position, or none for these operands, completes at once. -/
def startTwgen (dest : Space) (s : State) : Result Finish :=
  withNQ s fun n q =>
    .next (.waiting (setSeq (if 1 < n then .twgenPow dest 1 (1 % q) [1 % q] else .twgenPerm dest 0 [1 % q]) s))

/-- The first position of FNTT (R152): for `n = 1` the sequencer goes `IDLE -> IDLE`. -/
def startFntt (s : State) : Result Finish :=
  withNQ s fun n _ => if 1 < n then .next (.waiting (setSeq (.fntt 1 0 0) s)) else finish s

/-- The first position of INTT (R162): for `n = 1` the scaling at once. -/
def startIntt (s : State) : Result Finish :=
  withNQ s fun n q =>
    match modInv n q with
    | none => raise .notInvertible s
    | some ninv => .next (.waiting (setSeq (if 1 < n then .intt n 0 0 else .inttScale 0) (setNInv ninv s)))

/-- The first position of BITREV, with its snapshot (R172). -/
def startBitrev (s : State) : Result Finish :=
  withN s fun n => andThen (readWords .a s n 0) fun old => .next (.waiting (setSeq (.bitrev 0 old) s))

/-- The first position of FINDROOT and FINDROOT.A (R130, R139). -/
def startFindroot (auto : Bool) (s : State) : Result Finish :=
  withNQ s fun n q => .next (.waiting (enterAttempt 1 (prepareR auto n q s)))

/-- The first position of RNDRANGE (R121): only a proper range reaches a draw. -/
def startRndrange (s : State) : Result Finish :=
  if s.opb.toNat < s.opa.toNat then raise .invalidRange s
  else if s.opa.toNat = s.opb.toNat then finish (setRes s.opa.toNat s)
  else .next (.waiting (setSeq (.draw 1) s))

/-- The start of a command at the micro-step level: the frame's start, then the first position (47_system.md R181,
10_state.md R40). -/
def startCommand (i : Instr) (s : State) : Result State :=
  match i with
  | .nop => execNop s
  | .mulmod => execMulmod s
  | .modinv => execModinv s
  | .rndrange => runCommand startRndrange s
  | .findroot => runCommand (startFindroot false) s
  | .findrootA => runCommand (startFindroot true) s
  | .twgenF => runCommand (startTwgen .tf) s
  | .twgenI => runCommand (startTwgen .ti) s
  | .fntt => runCommand startFntt s
  | .intt => runCommand startIntt s
  | .bitrev => runCommand startBitrev s

end Sys2Proof.Machine
end

