-- ==== Sys2Proof/Machine/HostPort.lean ====
section
/-! DEFINITION. The host interface: register access and the two transactions (20_memory.md R62, R63), the reset event
(70_reset_and_hazards.md R220), and what one event does to an idle or a waiting block. -/

namespace Sys2Proof.Machine

/-- The value of a register (20_memory.md R62). -/
def regValue (reg : Reg) (s : State) : Word :=
  match reg with
  | .cmd => s.cmd
  | .status => statusWord s.status
  | .errcode => s.errcode
  | .caps => capsWord
  | .n => s.n
  | .q => s.q
  | .r => s.r
  | .psi => s.psi
  | .psiInv => s.psiInv
  | .nInv => s.nInv
  | .opa => s.opa
  | .opb => s.opb
  | .res => s.res
  | .attempt => s.attempt

/-- The word a `HostRead(addr)` returns (20_memory.md R62): a register, 0 for a reserved offset, or a memory word, which
must have been written (70_reset_and_hazards.md R225). -/
def hostReadValue (addr : Addr) (s : State) : Result Word :=
  match regionSpace (addrRegion addr) with
  | some sp => readWord sp (addrOffset addr) s
  | none =>
    match regAtOffset (addrOffset addr) with
    | some reg => .next (regValue reg s)
    | none => .next 0

/-- `HostRead(addr)`: changes no state of the block; the model notes what was returned (20_memory.md R62; log entry
18). -/
def hostRead (addr : Addr) (s : State) : Result State :=
  andThen (hostReadValue addr s) fun v => .next { s with returned := s.returned ++ [(addr, v)] }

/-- A write of `v` to `CMD`: the word is stored, then executed (10_state.md R21, 47_system.md R181). An illegal word ends
with ERR_ILLEGAL_CMD (30_encoding.md R86). -/
def writeCmd (v : Word) (s : State) : Result State :=
  match decode v with
  | .legal i => exec i { s with cmd := v }
  | .illegal _ => .next (illegalCommand { s with cmd := v })

/-- A host write of `v` to a register (20_memory.md R63). The read-only registers ignore it. -/
def hostWriteReg (reg : Reg) (v : Word) (s : State) : Result State :=
  match reg with
  | .cmd => writeCmd v s
  | .status => .next (acknowledge v s)
  | .n => .next { s with n := v }
  | .q => .next { s with q := v }
  | .r => .next { s with r := v }
  | .psi => .next { s with psi := v }
  | .psiInv => .next { s with psiInv := v }
  | .opa => .next { s with opa := v }
  | .opb => .next { s with opb := v }
  | .errcode | .caps | .nInv | .res | .attempt => .next s

/-- `HostWrite(addr, v)` (20_memory.md R63): a register, ignored at a reserved offset, a word of `A`, ignored for `TF` and
`TI` (10_state.md R37, R38). -/
def hostWrite (addr : Addr) (v : Word) (s : State) : Result State :=
  match regionSpace (addrRegion addr) with
  | some .a => writeWord .a (addrOffset addr) v s
  | some .tf | some .ti => .next s
  | none =>
    match regAtOffset (addrOffset addr) with
    | some reg => hostWriteReg reg v s
    | none => .next s

/-- A transaction of the host on an idle block (20_memory.md R69). -/
def hostTransaction (t : Transaction) (s : State) : Result State :=
  match t with
  | .rd addr => hostRead addr s
  | .wr addr v => hostWrite addr v s

/-- Bytes delivered by the entropy source join those it has ready (41_secure_random_range.md R120). -/
def deliverEntropy (bs : List Byte) (s : State) : State := { s with entropy := s.entropy ++ bs }

/-- Reset: the block's state becomes the reset state, at any moment (70_reset_and_hazards.md R220). What is not the
block's (the environment, the bytes not yet drawn, the host's record) stays (log entry 14). -/
def resetBlock (s : State) : State :=
  { State.reset with entropy := s.entropy, env := s.env, returned := s.returned }

/-- What an event does to an idle block. -/
def takeEvent (e : Event) (s : State) : Result State :=
  match e with
  | .host t => hostTransaction t s
  | .entropy bs => .next (deliverEntropy bs s)
  | .reset => .next (resetBlock s)

/-- What an event does to a command that waits with `BUSY = 1`: the host may only read `STATUS`
(70_reset_and_hazards.md R230; log entry 12). -/
def takeEventBusy (e : Event) (s : State) : Result State :=
  match e with
  | .host (.rd addr) => if addr = regAddr .status then hostRead addr s else .refused .accessWhileBusy
  | .host (.wr _ _) => .refused .accessWhileBusy
  | .entropy bs => .next (deliverEntropy bs s)
  | .reset => .next (resetBlock s)

/-- A step of an idle block: the next event, or nothing ("the block does nothing on its own",
70_reset_and_hazards.md R221; log entry 7). -/
def idleStep (s : State) : Result State :=
  match s.env with
  | [] => .next s
  | e :: rest => takeEvent e { s with env := rest }

/-- A step of a block whose command waits for the entropy source and cannot move: the next event, or nothing, for ever
(60_exceptions.md R202). -/
def waitingStep (s : State) : Result State :=
  match s.env with
  | [] => .next s
  | e :: rest => takeEventBusy e { s with env := rest }

/-- A step of a block with a command in progress: a reset that is due ends the command (70_reset_and_hazards.md R220);
otherwise the engine makes a micro-step if it can, and only then the environment moves (log entry 13). -/
def busyStep (s : State) : Result State :=
  match s.env with
  | .reset :: rest => .next (resetBlock { s with env := rest })
  | _ =>
    andThen (microStep s) fun o =>
      match o with
      | some s' => .next s'
      | none => waitingStep s

/-- One step of the block with its environment. -/
def blockStep (s : State) : Result State :=
  match s.seq with
  | .idle => idleStep s
  | _ => busyStep s

/-- The state with the command word `w` as the next thing the host writes to `CMD`, and the engine idle so that the write
is taken at once. -/
def commandWriteNext (w : Nat) (s : State) : State :=
  { s with env := .host (.wr (regAddr .cmd) (toWord w)) :: s.env, seq := .idle }

end Sys2Proof.Machine
end

