-- ==== Sys2Proof/Machine/Step.lean ====
section
/-! DEFINITION. The step of the machine and where its next instruction is fetched: the next command word is the one the
host writes to `CMD` (30_encoding.md R80, 20_memory.md R73), so it stands at the head of `State.env` (log entry 6). -/

namespace Sys2Proof.Machine

/-- One step: a next state, a fault or a refusal. -/
def step (s : State) : Host.Outcome State Fault Refusal := blockStep s

/-- The state whose next step fetches and runs the instruction of `nbits` bits `w` (log entries 6 and 19). -/
def State.withFetchWord (s : State) (nbits w : Nat) : State := commandWriteNext (w % 2 ^ nbits) s

end Sys2Proof.Machine
end

