-- ==== Sys2Proof/Machine/HostProgram.lean ====
section
/-! DEFINITION. Host programs in the assembler notation (30_encoding.md R90), the expansions of the pseudo-instructions
(R91), and what running a program on the block does and claims. -/

namespace Sys2Proof.Machine

/-- `addr(loc)` (R90). -/
def locAddr : Loc → Addr
  | .reg reg => regAddr reg
  | .word sp i => wordAddr sp i

/-- `MOV dst, src`: the read, then the write of the value the read returned (R91). A read that does not return is the end
of the line: there is no value to write. -/
def expandMov (dst src : Addr) (s : State) : List Transaction :=
  match hostReadValue src s with
  | .next v => [.rd src, .wr dst v]
  | _ => [.rd src]

/-- The transactions of a line that the host begins in state `s` (R90, R91). Only `MOV` depends on the state. -/
def expandLine (line : AsmLine) (s : State) : List Transaction :=
  match line with
  | .wr loc v => [.wr (locAddr loc) v]
  | .rd loc => [.rd (locAddr loc)]
  | .command i => [.wr (regAddr .cmd) (encode i)]
  | .setup n q => [.wr (regAddr .n) n, .wr (regAddr .q) q]
  | .ldvec vs => vs.zipIdx.map fun p => .wr (wordAddr .a p.2) p.1
  | .rdvec sp n => (List.range n).map fun i => .rd (wordAddr sp i)
  | .mov dst src => expandMov (locAddr dst) (locAddr src) s
  | .clrerr => [.wr (regAddr .status) 0x8]
  | .expect loc _ => [.rd (locAddr loc)]

/-- The claim a line makes of the state it begins in: `EXPECT` claims that its read returns its value (R91); no other line
claims anything. -/
def lineClaim (line : AsmLine) (s : State) : Bool :=
  match line with
  | .expect loc v =>
    match hostReadValue (locAddr loc) s with
    | .next w => w == v
    | _ => false
  | .wr _ _ | .rd _ | .command _ | .setup _ _ | .ldvec _ | .rdvec _ _ | .mov _ _ | .clrerr => true

/-- One transaction that the host issues now: taken by an idle block, and by a block whose command waits as
70_reset_and_hazards.md R230 allows. -/
def issue (t : Transaction) (s : State) : Result State :=
  if s.seq = .idle then hostTransaction t s else takeEventBusy (.host t) s

/-- A line: its transactions in order (R90). -/
def runLine (line : AsmLine) (s : State) : Result State := forEach issue (expandLine line s) s

/-- A host program: its lines in order (R90). -/
def runProgram (lines : List AsmLine) (s : State) : Result State := forEach runLine lines s

/-- Every line of a program runs, and every claim of its `EXPECT` lines holds of the state its line begins in (R91). -/
def programClaims : List AsmLine → State → Bool
  | [], _ => true
  | line :: lines, s =>
    lineClaim line s &&
      match runLine line s with
      | .next t => programClaims lines t
      | _ => false

/-- The transactions a program issues from a state, up to the first line that stops, as events of the block's environment
(R90). -/
def expandProgram : List AsmLine → State → List Event
  | [], _ => []
  | line :: lines, s =>
    (expandLine line s).map .host ++
      match runLine line s with
      | .next t => expandProgram lines t
      | _ => []

end Sys2Proof.Machine
end

