-- ==== Sys2Proof/Safety.lean ====
section
/-! DEFINITION. The terms in which claims about the block are stated: the invariant of its states, the premises of its
correctness laws, and reference functions written from the spec independently of the machine. -/

namespace Sys2Proof.Machine

/-! ## States -/

/-- The state after a command that ended with OK: `ERRCODE = 0`, `ERR = 0`, `ERRS` as before, `DONE = 1`, `BUSY = 0`,
`seq = IDLE` (10_state.md R35), and nothing else of `s` changed. -/
def afterOk (s : State) : State :=
  { s with errcode := 0, status := { busy := false, done := true, err := false, errs := s.status.errs }, seq := .idle }

/-- The state after a command that raised the error with this code: `ERRCODE` the code, `ERR = ERRS = DONE = 1`,
`BUSY = 0`, `seq = IDLE`, "and nothing more" (60_exceptions.md R196). -/
def afterError (code : Nat) (s : State) : State :=
  { s with errcode := toWord code, status := { busy := false, done := true, err := true, errs := true }, seq := .idle }

/-- Every word `lo <= i < hi` of a memory has been written (70_reset_and_hazards.md R223, R225). -/
abbrev written (m : Memory) (lo hi : Nat) : Prop := ∀ i < hi, lo ≤ i → (memRead m i).isSome = true

/-- The number a written word holds. Used only of words that are written. -/
def wordAt (m : Memory) (i : Nat) : Nat := ((memRead m i).getD 0).toNat

/-- The parameters a command that does arithmetic on vectors requires: `Q ≠ 0` and `N` one of `1, 2, ..., NMAX`
(60_exceptions.md R193). -/
abbrev configured (s : State) : Prop := s.q.toNat ≠ 0 ∧ nValid s.n.toNat = true

/-- A sequencer position in which a state can be between two steps: `IDLE`, or a position of a RNDRANGE or of a root
search that had to wait for the entropy source, in the ranges of 10_state.md R40. -/
def seqInv (s : State) : Prop :=
  match s.seq with
  | .idle => True
  | .draw d => 1 ≤ d ∧ s.opa.toNat < s.opb.toNat
  | .root k phase =>
    1 ≤ k ∧ k ≤ 50 ∧ s.attempt = toWord k ∧ configured s ∧
      (match phase with
       | .draw d => 1 ≤ d
       | .expR x => 2 ≤ x ∧ x < s.q.toNat
       | .expN c => c < s.q.toNat
       | .test c chk => c < s.q.toNat ∧ chk = c ^ s.n.toNat % s.q.toNat)
  | _ => False

/-- The invariant of the block: the memories are in canonical form, the registers the engine writes hold what the spec
says they can hold (10_state.md R22, R23, R33), `BUSY` says whether a command is in progress. -/
def blockInv (s : State) : Prop :=
  (∀ sp, Memory.wf (spaceMem sp s) = true) ∧
  s.errcode.toNat ≤ 5 ∧ s.attempt.toNat ≤ 50 ∧
  (s.status.busy = true ↔ s.seq ≠ .idle) ∧
  (s.seq = .idle → (s.status.err = true ↔ s.errcode ≠ 0)) ∧
  (s.seq = .idle → s.status.done = false → s.errcode = 0 ∧ s.status.errs = false) ∧
  (s.seq ≠ .idle → s.status.done = false ∧ s.status.err = false) ∧
  seqInv s

/-- `k` steps of the block with its environment. -/
def runSteps : Nat → State → Result State
  | 0, s => .next s
  | k + 1, s => andThen (step s) (runSteps k)

/-- The next thing the environment does is not a reset (70_reset_and_hazards.md R220). -/
def noResetDue (s : State) : Prop := ∀ later, s.env ≠ .reset :: later

/-- `STATUS` while a command waits: BUSY and the sticky flag as it was (70_reset_and_hazards.md R230; log entry 4). -/
def busyStatus (st : Status) : Status := { busy := true, done := false, err := false, errs := st.errs }

/-! ## Premises of the correctness laws -/

/-- `Matched(n, q, ψ)` (00_scope.md R7): never checked by the block. The root is asked for the two congruences of R7 only;
that it need not be below `q`, though the glossary calls it a Residue, is a DESIGN CHOICE, log entry 20. -/
def Matched (n q psi : Nat) : Prop :=
  nValid n = true ∧ q.Prime ∧ q % (2 * n) = 1 ∧ psi ^ n % q = q - 1 ∧ psi ^ (2 * n) % q = 1

/-- Words `1..n-1` of a table hold the powers of `root` in bit-reversed order, `n = 2^k` (43_twiddle_table.md R141). -/
def tableOf (m : Memory) (k root q : Nat) : Prop :=
  ∀ p, 1 ≤ p → p < 2 ^ k → memRead m p = some (toWord (root ^ brv k p % q))

/-! ## Reference functions -/

/-- Decoding, from the algorithm of 30_encoding.md R84 on the number `c`; `none` is illegal. -/
def decodeRef (c : Nat) : Option Instr :=
  if c / 64 ≠ 0 then none
  else
    let op := c % 16
    let sel := c / 16 % 2
    let auto := c / 32 % 2
    if op = 2 ∧ sel = 0 then some (if auto = 1 then .findrootA else .findroot)
    else if op = 3 ∧ auto = 0 then some (if sel = 1 then .twgenI else .twgenF)
    else if sel = 0 ∧ auto = 0 then
      if op = 0 then some .nop
      else if op = 1 then some .rndrange
      else if op = 4 then some .fntt
      else if op = 5 then some .intt
      else if op = 6 then some .bitrev
      else if op = 7 then some .mulmod
      else if op = 8 then some .modinv
      else none
    else none

/-- The number of bytes of one draw, `ceil(bitlen(span) / 8)` (41_secure_random_range.md R121). -/
def drawLength (span : Nat) : Nat := (Nat.size span + 7) / 8

/-- The current draw of a RNDRANGE or of a root search finds too few bytes at the source (41_secure_random_range.md R124,
42_primitive_root_search.md R137). The range of a root search is `[2, Q - 1]`, its span `Q - 3`. -/
def starvedDraw (s : State) : Prop :=
  match s.seq with
  | .draw _ => s.opa.toNat < s.opb.toNat ∧ s.entropy.length < drawLength (s.opb.toNat - s.opa.toNat)
  | .root _ (.draw _) => 3 < s.q.toNat ∧ s.entropy.length < drawLength (s.q.toNat - 3)
  | _ => False

/-- The masked draw: the bytes as a little-endian number, its low `bitlen(span)` bits (R121, R122). -/
def drawNumber (span : Nat) (bytes : List Byte) : Nat :=
  Nat.ofDigits 256 (bytes.map BitVec.toNat) % 2 ^ Nat.size span

/-- The bytes of draws that are all rejected (R121). -/
def rejectedDraws (span : Nat) (draws : List (List Byte)) : Prop :=
  ∀ b ∈ draws, b.length = drawLength span ∧ span < drawNumber span b

/-- `RandRange(min, max)` takes exactly `bytes` and returns `x` (R121): the degenerate range takes none; otherwise any
number of rejected draws and then one accepted draw. -/
def oneDraw (min max : Nat) (bytes : List Byte) (x : Nat) : Prop :=
  (min = max ∧ bytes = [] ∧ x = min) ∨
  (min < max ∧ ∃ rejected last, bytes = List.flatten rejected ++ last ∧ rejectedDraws (max - min) rejected ∧
    last.length = drawLength (max - min) ∧ drawNumber (max - min) last ≤ max - min ∧
    x = min + drawNumber (max - min) last)

/-- The acceptance test of the root search on the draw `x` (42_primitive_root_search.md R132). -/
def acceptsDraw (n q r x : Nat) : Prop := (x ^ r % q) ^ n % q = q - 1

/-- Draws of a root search that all fail: the bytes of each draw with its value (R132). -/
def failedAttempts (n q r : Nat) (l : List (List Byte × Nat)) : Prop :=
  ∀ p ∈ l, oneDraw 2 (q - 1) p.1 p.2 ∧ ¬ acceptsDraw n q r p.2

/-- The doubling-shift construction of the mask with shifts `1, 2, ..., 2^(K-1)` (R122). -/
def doublingShift (m : Nat) : Nat → Nat
  | 0 => m
  | K + 1 => doublingShift m K ||| doublingShift m K >>> 2 ^ K

/-- Stage `m` of FNTT as one parallel step: what word `p` holds after it, from what the words `a` hold before and the
twiddles `tw`. Group `i = p div 2t` pairs word `p` of its lower half with word `p + t` (44_forward_ntt.md R151, R152,
R156). -/
def fnttStage (n q m : Nat) (tw a : Nat → Nat) (p : Nat) : Nat :=
  let t := n / (2 * m)
  let i := p / (2 * t)
  if p % (2 * t) < t then (a p + a (p + t) * tw (m + i)) % q
  else (((a (p - t) : ℤ) - a p * tw (m + i)) % q).toNat

/-- The words after the first stages of FNTT, `m = 1, 2, 4, ...` (44_forward_ntt.md R152). -/
def fnttWords (n q : Nat) (tw a : Nat → Nat) : Nat → Nat → Nat
  | 0 => a
  | s + 1 => fnttStage n q (2 ^ s) tw (fnttWords n q tw a s)

/-- Stage `m` of INTT as one parallel step (45_inverse_ntt.md R161, R162, R166): `h = m div 2` groups, `t = n div m`. -/
def inttStage (n q m : Nat) (tw a : Nat → Nat) (p : Nat) : Nat :=
  let t := n / m
  let i := p / (2 * t)
  if p % (2 * t) < t then (a p + a (p + t)) % q
  else ((((a (p - t) : ℤ) - a p) * tw (m / 2 + i)) % q).toNat

/-- The words after the first stages of INTT, `m = n, n/2, ...` (45_inverse_ntt.md R162). -/
def inttWords (n q : Nat) (tw a : Nat → Nat) : Nat → Nat → Nat
  | 0 => a
  | s + 1 => inttStage n q (n / 2 ^ s) tw (inttWords n q tw a s)

/-- Coefficient `k` of the negative-wrapped convolution (45_inverse_ntt.md R165). -/
def negacyclic (n q : Nat) (a b : Nat → Nat) (k : Nat) : Nat :=
  ((∑ i ∈ Finset.range n, ∑ j ∈ Finset.range n,
      if i + j = k then (a i * b j : ℤ) else if i + j = k + n then -(a i * b j : ℤ) else 0) % q).toNat

/-- The result codes a command can end with (60_exceptions.md R190, the column "raised by"). -/
def possibleCodes : Instr → List Nat
  | .nop => [0]
  | .rndrange => [0, 1]
  | .findroot | .findrootA => [0, 1, 2, 3]
  | .twgenF | .twgenI | .fntt | .bitrev | .mulmod => [0, 3]
  | .intt | .modinv => [0, 3, 4]

/-- The parameters for which a command ends with ERR_CONFIG (60_exceptions.md R193, the table). -/
def badConfig (i : Instr) (s : State) : Bool :=
  match i with
  | .nop | .rndrange => false
  | .mulmod | .modinv => s.q.toNat == 0
  | .bitrev => !nValid s.n.toNat
  | .findroot | .findrootA | .twgenF | .twgenI | .fntt | .intt => s.q.toNat == 0 || !nValid s.n.toNat

end Sys2Proof.Machine
end

