-- ==== Sys2Proof/Certificates/Slice0/Obligations.lean ====
section
/-! DEFINITION. The statements for the provers, in the order of the rules of spec/: reset, decoding, the frame of a command,
the host port, each command, the transforms' laws, the sequencer, and the invariant of the block. -/

open Sys2Proof Sys2Proof.Machine

/-! ## Reset -/

/-- 10_state.md R44: after reset every register reads 0 but for CAPS, which reads its constant, `seq = IDLE`, no memory
word has a value and a read of one is refused, and every arithmetic or vector command ends with ERR_CONFIG. The constant
of CAPS (R24) rests on log entries 1 and 2, and that the read is refused, not a fault, on log entry 8: the model's
choices. -/
def Obligations.ResetLeavesZerosAndNoMemory : Prop :=
  (∀ reg, reg ≠ .caps → regValue reg State.reset = 0) ∧ regValue .caps State.reset = 0x00000A20#32 ∧
  State.reset.seq = .idle ∧
  (∀ sp i, memRead (spaceMem sp State.reset) i = none) ∧
  (∀ sp i, i < 1024 → readWord sp i State.reset = .refused (.unwrittenWord sp i)) ∧
  (∀ i, i ≠ .nop → i ≠ .rndrange → exec i State.reset = .next (afterError 3 State.reset))

/-- 70_reset_and_hazards.md R220: a reset gives the reset state, whatever the block was doing. What is the environment's
(later events, bytes not yet drawn, the host's record) stays: log entry 14, the model's choice. -/
def Obligations.ResetEventGivesTheResetState : Prop :=
  ∀ (s : State) (rest : List Event), s.env = .reset :: rest →
    step s = .next { State.reset with entropy := s.entropy, env := rest, returned := s.returned }

/-! ## Decoding and the frame of a command -/

/-- 30_encoding.md R84: decoding is total and gives what the algorithm of the rule gives, on every word. -/
def Obligations.DecodeFollowsTheAlgorithm : Prop :=
  ∀ c : Word, match decodeRef c.toNat with
    | some i => decode c = .legal i
    | none => ∃ why, decode c = .illegal why

/-- 30_encoding.md R82: a word is legal exactly when it is one of the eleven command words of the table. -/
def Obligations.LegalWordsAreTheElevenEncodings : Prop :=
  (∀ (c : Word) (i : Instr), decode c = .legal i ↔ c = encode i) ∧
  encode .nop = 0x0000#32 ∧ encode .rndrange = 0x0001#32 ∧ encode .findroot = 0x0002#32 ∧
  encode .findrootA = 0x0022#32 ∧ encode .twgenF = 0x0003#32 ∧ encode .twgenI = 0x0013#32 ∧
  encode .fntt = 0x0004#32 ∧ encode .intt = 0x0005#32 ∧ encode .bitrev = 0x0006#32 ∧
  encode .mulmod = 0x0007#32 ∧ encode .modinv = 0x0008#32

/-- A few words of 30_encoding.md R82, R86, written out bit by bit, decode as the spec says. -/
def Obligations.SampleWordsDecode : Prop :=
  decode 0b00000000000000000000000000100010#32 = .legal .findrootA ∧
  decode 0b00000000000000000000000000010011#32 = .legal .twgenI ∧
  decode 0b00000000000000000000000000000100#32 = .legal .fntt ∧
  decode 0b00000000000000000000000000001000#32 = .legal .modinv ∧
  decode 0b00000000000000000000000000001001#32 = .illegal .reservedOp ∧
  decode 0b00000000000000000000000000010100#32 = .illegal .straySel ∧
  decode 0b00000000000000000000000000100100#32 = .illegal .strayAuto ∧
  decode 0b00000000000000010000000000000100#32 = .illegal .reservedBits

/-- 47_system.md R181, 20_memory.md R73: when the next thing the host does is to write a legal word to `CMD`, the step of
the idle block stores the word and is `exec` of the decoded command. The list of events is the model's (log entry 6). -/
def Obligations.StepRunsTheDecodedCommand : Prop :=
  ∀ (s : State) (v : Word) (i : Instr) (rest : List Event),
    s.seq = .idle → s.env = .host (.wr 0x000#12 v) :: rest → decode v = .legal i →
    step s = exec i { s with cmd := v, env := rest }

/-- 60_exceptions.md R191: an illegal word is recorded in `CMD`, all its bits, and ends with code 5; nothing else
changes. -/
def Obligations.IllegalWordEndsWithIllegalCmd : Prop :=
  ∀ (s : State) (v : Word) (why : Illegal) (rest : List Event),
    s.seq = .idle → s.env = .host (.wr 0x000#12 v) :: rest → decode v = .illegal why →
    step s = .next (afterError 5 { s with cmd := v, env := rest })

/-- 60_exceptions.md R193: the check each command makes first. With a bad parameter the command ends with ERR_CONFIG and
has written nothing and drawn nothing; without one it does not end with ERR_CONFIG. -/
def Obligations.ConfigIsCheckedFirst : Prop :=
  ∀ (i : Instr) (s : State),
    (badConfig i s = true → exec i s = .next (afterError 3 s)) ∧
    (badConfig i s = false → ∀ t, exec i s = .next t → t.seq = .idle → t.errcode ≠ 3)

/-- 60_exceptions.md R190: a completed command ends with one of the codes the table lists for it, and `ERR` says whether
the code is an error. -/
def Obligations.CommandsEndWithTheirListedCodes : Prop :=
  ∀ (i : Instr) (s t : State), exec i s = .next t → t.seq = .idle →
    t.errcode.toNat ∈ possibleCodes i ∧ t.status.done = true ∧ t.status.busy = false ∧
    (t.status.err = true ↔ t.errcode ≠ 0) ∧
    (t.status.errs = true ↔ s.status.errs = true ∨ t.errcode ≠ 0)

/-- 60_exceptions.md R196: an error is precise. The state after a failed command is the state before it, changed only by
the frame and by the writes that precede the raise: `R` in FINDROOT.A, `ATTEMPT` in FINDROOT and FINDROOT.A. The bytes
those two have drawn are gone from the source. -/
def Obligations.FailedCommandsArePrecise : Prop :=
  ∀ (i : Instr) (s t : State), exec i s = .next t → t.seq = .idle → t.errcode ≠ 0 →
    t = afterError t.errcode.toNat { s with r := t.r, attempt := t.attempt, entropy := t.entropy } ∧
    (i ≠ .findrootA → t.r = s.r) ∧
    (i ≠ .findroot → i ≠ .findrootA → t.attempt = s.attempt ∧ t.entropy = s.entropy)

/-- 10_state.md R35: no command's behaviour depends on `STATUS` or `ERRCODE`. From a state that differs only there a
command does the same, and the results differ at most in the sticky flag, and in `ERRCODE` while the command waits. -/
def Obligations.CommandsIgnoreTheFlags : Prop :=
  ∀ (i : Instr) (s : State) (st : Status) (e : Word),
    (∀ t, exec i s = .next t → ∃ u, exec i { s with status := st, errcode := e } = .next u ∧
      u = { t with errcode := u.errcode, status := { t.status with errs := u.status.errs } } ∧
      (t.seq = .idle → u.errcode = t.errcode) ∧
      (u.status.errs = true ↔ st.errs = true ∨ (t.seq = .idle ∧ t.errcode ≠ 0))) ∧
    (∀ f, exec i s = .refused f → exec i { s with status := st, errcode := e } = .refused f)

/-- 10_state.md R34, the frame of every command: which registers, memories and bytes of the source each command can
change; no command writes `CMD`, `N`, `Q`, `PSI_INV`, `OPA` or `OPB`, and no command changes a memory word at or above
`N`. -/
def Obligations.CommandsWriteOnlyTheirState : Prop :=
  ∀ (i : Instr) (s t : State), exec i s = .next t →
    t.cmd = s.cmd ∧ t.n = s.n ∧ t.q = s.q ∧ t.psiInv = s.psiInv ∧ t.opa = s.opa ∧ t.opb = s.opb ∧
    t.env = s.env ∧ t.returned = s.returned ∧
    (i ≠ .findrootA → t.r = s.r) ∧
    (i ≠ .findroot → i ≠ .findrootA → t.psi = s.psi ∧ t.attempt = s.attempt) ∧
    (i ≠ .intt → t.nInv = s.nInv) ∧
    (i ≠ .rndrange → i ≠ .mulmod → i ≠ .modinv → t.res = s.res) ∧
    (i ≠ .rndrange → i ≠ .findroot → i ≠ .findrootA → t.entropy = s.entropy ∧ t.seq = .idle) ∧
    (i ≠ .fntt → i ≠ .intt → i ≠ .bitrev → t.a = s.a) ∧
    (i ≠ .twgenF → t.tf = s.tf) ∧ (i ≠ .twgenI → t.ti = s.ti) ∧
    (∀ sp p, s.n.toNat ≤ p → memRead (spaceMem sp t) p = memRead (spaceMem sp s) p)

/-- 10_state.md R39: every word TWGEN, FNTT or INTT writes is below `Q`: a word that holds `Q` or more held the same value
before. -/
def Obligations.WrittenWordsAreResidues : Prop :=
  ∀ (i : Instr) (s t : State), i = .fntt ∨ i = .intt ∨ i = .twgenF ∨ i = .twgenI → exec i s = .next t →
    ∀ (sp : Space) (p : Nat) (v : Word), memRead (spaceMem sp t) p = some v →
      v.toNat < s.q.toNat ∨ memRead (spaceMem sp s) p = some v

/-- 20_memory.md R66: no command ever makes an access outside a memory, from any state. -/
def Obligations.CommandsNeverFault : Prop :=
  ∀ (i : Instr) (s : State) (f : Fault), exec i s ≠ .fault f

/-! ## The host port -/

/-- 20_memory.md R62: what `HostRead(addr)` returns, for every address, and that it changes nothing else. A memory word
that nothing has written has no value to return: the step is refused (70_reset_and_hazards.md R225). The list of returned
words is the model's (log entry 18). -/
def Obligations.HostReadReturnsTheAddressedWord : Prop :=
  ∀ (s : State) (addr : Addr) (rest : List Event), s.seq = .idle → s.env = .host (.rd addr) :: rest →
    let got := fun (v : Word) => step s = .next { s with env := rest, returned := s.returned ++ [(addr, v)] }
    let word := fun (sp : Space) (i : Nat) =>
      match memRead (spaceMem sp s) i with
      | some v => got v
      | none => step s = .refused (.unwrittenWord sp i)
    (addr = 0x000#12 → got s.cmd) ∧
    (addr = 0x001#12 → got (statusWord s.status)) ∧
    (addr = 0x002#12 → got s.errcode) ∧
    (addr = 0x003#12 → got 0x00000A20#32) ∧
    (addr = 0x004#12 → got s.n) ∧
    (addr = 0x005#12 → got s.q) ∧
    (addr = 0x006#12 → got s.r) ∧
    (addr = 0x007#12 → got s.psi) ∧
    (addr = 0x008#12 → got s.psiInv) ∧
    (addr = 0x009#12 → got s.nInv) ∧
    (addr = 0x00A#12 → got s.opa) ∧
    (addr = 0x00B#12 → got s.opb) ∧
    (addr = 0x00C#12 → got s.res) ∧
    (addr = 0x00D#12 → got s.attempt) ∧
    (0x00E ≤ addr.toNat → addr.toNat < 0x400 → got 0) ∧
    (0x400 ≤ addr.toNat → addr.toNat < 0x800 → word .a (addr.toNat - 0x400)) ∧
    (0x800 ≤ addr.toNat → addr.toNat < 0xC00 → word .tf (addr.toNat - 0x800)) ∧
    (0xC00 ≤ addr.toNat → word .ti (addr.toNat - 0xC00))

/-- 20_memory.md R63: what `HostWrite(addr, v)` does, for every address. -/
def Obligations.HostWriteDoesExactlyOneThing : Prop :=
  ∀ (s : State) (addr : Addr) (v : Word) (rest : List Event), s.seq = .idle → s.env = .host (.wr addr v) :: rest →
    let u : State := { s with env := rest }
    (addr = 0x000#12 → step s =
      match decode v with
      | .legal i => exec i { u with cmd := v }
      | .illegal _ => .next (afterError 5 { u with cmd := v })) ∧
    (addr = 0x001#12 → v.getLsbD 3 = true → step s = .next { u with status := { s.status with errs := false } }) ∧
    (addr = 0x001#12 → v.getLsbD 3 = false → step s = .next u) ∧
    (addr = 0x004#12 → step s = .next { u with n := v }) ∧
    (addr = 0x005#12 → step s = .next { u with q := v }) ∧
    (addr = 0x006#12 → step s = .next { u with r := v }) ∧
    (addr = 0x007#12 → step s = .next { u with psi := v }) ∧
    (addr = 0x008#12 → step s = .next { u with psiInv := v }) ∧
    (addr = 0x00A#12 → step s = .next { u with opa := v }) ∧
    (addr = 0x00B#12 → step s = .next { u with opb := v }) ∧
    (addr = 0x002#12 ∨ addr = 0x003#12 ∨ addr = 0x009#12 ∨ addr = 0x00C#12 ∨ addr = 0x00D#12 → step s = .next u) ∧
    (0x00E ≤ addr.toNat → addr.toNat < 0x400 → step s = .next u) ∧
    (0x400 ≤ addr.toNat → addr.toNat < 0x800 →
      step s = .next { u with a := memWrite s.a (addr.toNat - 0x400) v }) ∧
    (0x800 ≤ addr.toNat → step s = .next u)

/-- 20_memory.md R60, 30_encoding.md R90, R91: region and offset are the fields `addr[11:10]` and `addr[9:0]`; the
assembler's address of a register or of a memory word names it; the lines and the pseudo-instructions expand as listed;
`MOV` writes the word its read returned, and run on an idle block it is that read and then that write; `EXPECT` is a read,
with the claim that the read returns its value. -/
def Obligations.AssemblerAddressesNameTheirLocations : Prop :=
  (∀ addr : Addr, addrRegion addr = (addr.extractLsb' 10 2).toNat ∧ addrOffset addr = (addr.extractLsb' 0 10).toNat) ∧
  (∀ reg, addrRegion (locAddr (.reg reg)) = 0 ∧ regAtOffset (addrOffset (locAddr (.reg reg))) = some reg) ∧
  (∀ sp i, (Loc.word sp i).wellFormed = true →
    regionSpace (addrRegion (locAddr (.word sp i))) = some sp ∧ addrOffset (locAddr (.word sp i)) = i) ∧
  (∀ s loc v, expandLine (.wr loc v) s = [.wr (locAddr loc) v]) ∧
  (∀ s loc, expandLine (.rd loc) s = [.rd (locAddr loc)]) ∧
  (∀ s i, expandLine (.command i) s = [.wr 0x000#12 (encode i)]) ∧
  (∀ s n q, expandLine (.setup n q) s = [.wr 0x004#12 n, .wr 0x005#12 q]) ∧
  (∀ s, expandLine .clrerr s = [.wr 0x001#12 0x8#32]) ∧
  (∀ s vs i, (expandLine (.ldvec vs) s)[i]? = vs[i]?.map fun v => Transaction.wr (locAddr (.word .a i)) v) ∧
  (∀ s sp n i,
    (expandLine (.rdvec sp n) s)[i]? = if i < n then some (Transaction.rd (locAddr (.word sp i))) else none) ∧
  (∀ s dst src v, hostReadValue (locAddr src) s = .next v →
    expandLine (.mov dst src) s = [.rd (locAddr src), .wr (locAddr dst) v] ∧
    (s.seq = .idle → runLine (.mov dst src) s =
      hostWrite (locAddr dst) v { s with returned := s.returned ++ [(locAddr src, v)] })) ∧
  (∀ s loc v, expandLine (.expect loc v) s = [.rd (locAddr loc)] ∧
    (lineClaim (.expect loc v) s = true ↔ hostReadValue (locAddr loc) s = .next v) ∧
    (s.seq = .idle → (lineClaim (.expect loc v) s = true ↔
      runLine (.expect loc v) s = .next { s with returned := s.returned ++ [(locAddr loc, v)] })))

/-- 10_state.md R24: CAPS reads `W` in bits 7..0, `LOGNMAX` in bits 15..8 and 0 above, in every state, and a host write to
it is ignored. -/
def Obligations.CapsIsAConstant : Prop :=
  (∀ s, (regValue .caps s).extractLsb' 0 8 = 32#8 ∧ (regValue .caps s).extractLsb' 8 8 = 10#8 ∧
    (regValue .caps s).extractLsb' 16 16 = 0#16) ∧
  (∀ (s : State) (v : Word) (rest : List Event), s.seq = .idle → s.env = .host (.wr 0x003#12 v) :: rest →
    step s = .next { s with env := rest })

/-- 10_state.md R22: the word a read of STATUS returns has BUSY, DONE, ERR, ERRS in bits 0 to 3 and 0 in every other
bit. -/
def Obligations.StatusWordHasFourFlags : Prop :=
  ∀ (st : Status) (b : Nat), (statusWord st).getLsbD b =
    (if b = 0 then st.busy else if b = 1 then st.done else if b = 2 then st.err else if b = 3 then st.errs else false)

/-- 10_state.md R21: `CMD` holds the last value the host wrote to it, legal or not: the step that takes such a write leaves
the word in `CMD`; every other step that does not take a reset leaves `CMD` as it was, also while a command is in progress
and when nothing happens; a read returns the stored value. -/
def Obligations.CmdHoldsTheLastWordWritten : Prop :=
  ∀ s t : State, step s = .next t →
    (∀ v rest, s.seq = .idle → s.env = .host (.wr 0x000#12 v) :: rest → t.cmd = v) ∧
    (noResetDue s → (s.seq = .idle → ∀ v rest, s.env ≠ .host (.wr 0x000#12 v) :: rest) → t.cmd = s.cmd) ∧
    (∀ rest, s.seq = .idle → s.env = .host (.rd 0x000#12) :: rest →
      t = { s with env := rest, returned := s.returned ++ [(0x000#12, s.cmd)] })

/-! ## Modular arithmetic -/

/-- 40_modular_arithmetic.md R102: `SubMod(a, b, q)` is the unique residue congruent to `a - b`; below zero it wraps to
`q - ((b - a) mod q)`. -/
def Obligations.SubModIsTheLeastResidue : Prop :=
  (∀ a b q : Nat, 0 < q →
    subMod a b q < q ∧ (subMod a b q : ℤ) ≡ a - b [ZMOD q] ∧
    (∀ r : Nat, r < q → (r : ℤ) ≡ a - b [ZMOD q] → r = subMod a b q) ∧
    subMod a b q = ((a % q) + q - (b % q)) % q ∧
    (a % q < b % q → (subMod a b q : ℤ) = q - ((b : ℤ) - a) % q)) ∧
  subMod 3 5 17 = 15

/-- 40_modular_arithmetic.md R104: `ModExp(b, e, q) = b^e mod q`, with `b^0 = 1`, so that `ModExp(b, 0, q) = 1 mod q`. -/
def Obligations.ModExpIsThePowerResidue : Prop :=
  ∀ b e q : Nat, 0 < q → modExp b e q = b ^ e % q ∧ modExp b 0 q = 1 % q

/-- 40_modular_arithmetic.md R105: with `gcd(x mod q, q) = 1`, `ModInv(x, q)` is the unique `y` in `[0, q)` with
`(x mod q) * y = 1` modulo `q`; otherwise there is no inverse. -/
def Obligations.ModInvIsTheUniqueInverse : Prop :=
  ∀ x q : Nat, 0 < q →
    (Nat.gcd (x % q) q = 1 → ∃ y, modInv x q = some y ∧ y < q ∧ x % q * y % q = 1 % q ∧
      ∀ z, z < q → x % q * z % q = 1 % q → z = y) ∧
    (Nat.gcd (x % q) q ≠ 1 → modInv x q = none)

/-- 40_modular_arithmetic.md R108: MULMOD, in every state, with its command word. -/
def Obligations.MulmodWritesTheProductResidue : Prop :=
  decode 0x0007#32 = .legal .mulmod ∧
  ∀ s : State,
    (s.q.toNat = 0 → exec .mulmod s = .next (afterError 3 s)) ∧
    (s.q.toNat ≠ 0 →
      exec .mulmod s = .next (afterOk { s with res := toWord (s.opa.toNat * s.opb.toNat % s.q.toNat) }))

/-- 40_modular_arithmetic.md R109: MODINV, in every state, with its command word. -/
def Obligations.ModinvWritesTheInverse : Prop :=
  decode 0x0008#32 = .legal .modinv ∧
  ∀ s : State,
    (s.q.toNat = 0 → exec .modinv s = .next (afterError 3 s)) ∧
    (s.q.toNat ≠ 0 → Nat.gcd (s.opa.toNat % s.q.toNat) s.q.toNat ≠ 1 → exec .modinv s = .next (afterError 4 s)) ∧
    (s.q.toNat ≠ 0 → Nat.gcd (s.opa.toNat % s.q.toNat) s.q.toNat = 1 →
      ∃ y, y < s.q.toNat ∧ s.opa.toNat * y % s.q.toNat = 1 % s.q.toNat ∧
        exec .modinv s = .next (afterOk { s with res := toWord y }))

/-- 47_system.md R180: NOP runs only the frame, whatever the registers hold; it is the word 0, which reset does not
execute. -/
def Obligations.NopRunsOnlyTheFrame : Prop :=
  decode 0x0000#32 = .legal .nop ∧ (∀ s : State, exec .nop s = .next (afterOk s)) ∧ State.reset.status.done = false

/-! ## The uniform draw -/

/-- 41_secure_random_range.md R122: the mask is all ones up to the highest set bit of the span; the doubling-shift
construction with enough shifts computes it; more than half of the masked values are accepted; the values at the byte-width
boundaries. -/
def Obligations.MaskCoversTheSpan : Prop :=
  (∀ span : Nat, 0 < span →
    drawMask span = 2 ^ bitlen span - 1 ∧
    (∀ b, (drawMask span).testBit b = true ↔ ∃ c, b ≤ c ∧ span.testBit c = true) ∧
    (∀ K, 8 * drawBytes span ≤ 2 ^ K → doublingShift span K = drawMask span) ∧
    drawMask span + 1 ≤ 2 * span ∧ drawMask span + 1 < 2 * (span + 1)) ∧
  drawBytes 255 = 1 ∧ drawMask 255 = 0xFF ∧ drawBytes 256 = 2 ∧ drawMask 256 = 0x1FF ∧
  drawBytes 65535 = 2 ∧ drawMask 65535 = 0xFFFF ∧ drawBytes 65536 = 3 ∧ drawMask 65536 = 0x1FFFF ∧
  drawBytes 1 = 1 ∧ drawMask 1 = 0x1 ∧ drawBytes 14 = 1 ∧ drawMask 14 = 0xF ∧
  drawBytes (2 ^ 32 - 1) = 4 ∧ drawMask (2 ^ 32 - 1) = 2 ^ 32 - 1

/-- 41_secure_random_range.md R121, R123: RNDRANGE completes on a source that has one acceptable draw ready, after any
number of rejected ones, with the value that draw gives, and takes exactly those bytes; the degenerate range takes none. -/
def Obligations.RndrangeWritesTheDraw : Prop :=
  ∀ (s : State) (bytes rest : List Byte) (x : Nat),
    oneDraw s.opa.toNat s.opb.toNat bytes x → s.entropy = bytes ++ rest →
    exec .rndrange s = .next (afterOk { s with res := toWord x, entropy := rest })

/-- 41_secure_random_range.md R125, R121: a completed RNDRANGE with `OPA <= OPB` leaves in `RES` a value of the range, and
has taken `D` whole draws from the front of the source, which had them ready: at least one, and none for `OPA = OPB`. -/
def Obligations.RndrangeStaysInRange : Prop :=
  ∀ s t : State, exec .rndrange s = .next t → t.seq = .idle → s.opa.toNat ≤ s.opb.toNat →
    t.errcode = 0 ∧ s.opa.toNat ≤ t.res.toNat ∧ t.res.toNat ≤ s.opb.toNat ∧
    ∃ D, D * drawLength (s.opb.toNat - s.opa.toNat) ≤ s.entropy.length ∧
      t.entropy = s.entropy.drop (D * drawLength (s.opb.toNat - s.opa.toNat)) ∧
      (s.opa.toNat < s.opb.toNat → 1 ≤ D) ∧ (s.opa = s.opb → D = 0)

/-- 41_secure_random_range.md R124, 42_primitive_root_search.md R137, 60_exceptions.md R202: on a starved source a command
does not complete. RNDRANGE with only rejected draws and then fewer bytes than one draw takes waits at the next draw;
FINDROOT and FINDROOT.A, after fewer than fifty failed attempts, only rejected draws of the next attempt and then fewer
bytes than one draw takes, wait at that attempt's next draw, with `R` and `ATTEMPT` written and `PSI` not. The block has
BUSY = 1, no DONE, no ERRCODE, and stays so while nothing comes from outside. How the wait shows in the state is the
model's choice (log entries 3 and 4). -/
def Obligations.CommandsHangWithoutAnAcceptedDraw : Prop :=
  (∀ (s : State) (rejected : List (List Byte)) (tail : List Byte),
    s.opa.toNat < s.opb.toNat → rejectedDraws (s.opb.toNat - s.opa.toNat) rejected →
    tail.length < drawLength (s.opb.toNat - s.opa.toNat) → s.entropy = List.flatten rejected ++ tail →
    let t : State := { s with entropy := tail, seq := .draw (rejected.length + 1), status := busyStatus s.status }
    exec .rndrange s = .next t ∧ (s.env = [] → step t = .next t)) ∧
  (∀ (s : State) (failed : List (List Byte × Nat)) (rejected : List (List Byte)) (tail : List Byte) (r : Nat),
    configured s → 3 < s.q.toNat → failed.length < 50 →
    failedAttempts s.n.toNat s.q.toNat r failed → rejectedDraws (s.q.toNat - 3) rejected →
    tail.length < drawLength (s.q.toNat - 3) →
    s.entropy = (failed.map Prod.fst).flatten ++ List.flatten rejected ++ tail →
    let t : State := { s with
      attempt := toWord (failed.length + 1), entropy := tail, status := busyStatus s.status
      seq := .root (failed.length + 1) (.draw (rejected.length + 1)) }
    let u : State := { t with r := toWord r }
    (r = s.r.toNat → exec .findroot s = .next t ∧ (s.env = [] → step t = .next t)) ∧
    (r = (s.q.toNat - 1) / (2 * s.n.toNat) → exec .findrootA s = .next u ∧ (s.env = [] → step u = .next u)))

/-- 60_exceptions.md R192: ERR_INVALID_RANGE, in RNDRANGE for `OPA > OPB`, in FINDROOT and FINDROOT.A for `Q` 1 or 2, with
what is written before the raise and no entropy taken. -/
def Obligations.InvalidRangeIsReported : Prop :=
  (∀ s : State, s.opb.toNat < s.opa.toNat → exec .rndrange s = .next (afterError 1 s)) ∧
  (∀ s : State, s.q.toNat = 1 ∨ s.q.toNat = 2 → nValid s.n.toNat = true →
    exec .findroot s = .next (afterError 1 { s with attempt := 1 }) ∧
    exec .findrootA s =
      .next (afterError 1 { s with r := toWord ((s.q.toNat - 1) / (2 * s.n.toNat)), attempt := 1 }))

/-! ## The root search -/

/-- 42_primitive_root_search.md R130 to R133: FINDROOT with `R` as it stands and FINDROOT.A with `R = (Q - 1) div 2N` end
with the first accepted candidate, after fewer than fifty failed attempts, and have taken exactly the bytes of those
attempts. -/
def Obligations.FindrootReturnsTheFirstAcceptedCandidate : Prop :=
  ∀ (s : State) (failed : List (List Byte × Nat)) (bytes rest : List Byte) (x r : Nat),
    configured s → failed.length < 50 →
    failedAttempts s.n.toNat s.q.toNat r failed →
    oneDraw 2 (s.q.toNat - 1) bytes x → acceptsDraw s.n.toNat s.q.toNat r x →
    s.entropy = (failed.map Prod.fst).flatten ++ bytes ++ rest →
    let t : State := { s with psi := toWord (x ^ r % s.q.toNat), attempt := toWord (failed.length + 1), entropy := rest }
    (r = s.r.toNat → exec .findroot s = .next (afterOk t)) ∧
    (r = (s.q.toNat - 1) / (2 * s.n.toNat) → exec .findrootA s = .next (afterOk { t with r := toWord r }))

/-- 60_exceptions.md R194: fifty failed attempts of one FINDROOT end it with ERR_ROOT_NOT_FOUND; `ATTEMPT = 50`, `PSI`
unchanged, the bytes of all fifty taken. Every FINDROOT starts again from attempt 1, whatever `ATTEMPT` held. -/
def Obligations.FindrootFailsAfterFiftyAttempts : Prop :=
  ∀ (s : State) (failed : List (List Byte × Nat)) (rest : List Byte) (r : Nat),
    configured s → failed.length = 50 →
    failedAttempts s.n.toNat s.q.toNat r failed →
    s.entropy = (failed.map Prod.fst).flatten ++ rest →
    let t : State := { s with attempt := 50, entropy := rest }
    (r = s.r.toNat → exec .findroot s = .next (afterError 2 t)) ∧
    (r = (s.q.toNat - 1) / (2 * s.n.toNat) → exec .findrootA s = .next (afterError 2 { t with r := toWord r }))

/-- 42_primitive_root_search.md R138: after a FINDROOT or FINDROOT.A that ends with ERRCODE 0 and `Q >= 3`,
`PSI^N = Q - 1` and `PSI^(2N) = 1` modulo `Q`; also after one that had to wait for the source and ends in a later step of
the block, from any state with the invariant (the waiting state is the model's, log entries 3 and 16). -/
def Obligations.FoundRootsSatisfyTheRootLaw : Prop :=
  let law := fun t : State =>
    modExp t.psi.toNat t.n.toNat t.q.toNat = t.q.toNat - 1 ∧
    modExp t.psi.toNat (2 * t.n.toNat) t.q.toNat = 1 ∧ t.psi.toNat < t.q.toNat
  (∀ (i : Instr) (s t : State), i = .findroot ∨ i = .findrootA → exec i s = .next t → t.seq = .idle → t.errcode = 0 →
    3 ≤ t.q.toNat → law t) ∧
  (∀ (s t : State) (k : Nat) (phase : RootPhase), s.seq = .root k phase → blockInv s → step s = .next t →
    t.seq = .idle → t.errcode = 0 → 3 ≤ t.q.toNat → law t)

/-- 42_primitive_root_search.md R134: `Q = 3` tries `x = 2` without entropy, every attempt the same; `Q` 1 or 2 ends with
ERR_INVALID_RANGE at attempt 1; `Q = 0` never reaches the draw. With `n = 1`, `r = 1`, `Q = 3` finds 2 at attempt 1. -/
def Obligations.SmallModuliOfTheRootSearch : Prop :=
  (∀ s : State, nValid s.n.toNat = true →
    (s.q.toNat = 3 → acceptsDraw s.n.toNat 3 s.r.toNat 2 →
      exec .findroot s = .next (afterOk { s with psi := toWord (2 ^ s.r.toNat % 3), attempt := 1 })) ∧
    (s.q.toNat = 3 → ¬ acceptsDraw s.n.toNat 3 s.r.toNat 2 →
      exec .findroot s = .next (afterError 2 { s with attempt := 50 })) ∧
    (s.q.toNat = 1 ∨ s.q.toNat = 2 → exec .findroot s = .next (afterError 1 { s with attempt := 1 })) ∧
    (s.q.toNat = 0 → exec .findroot s = .next (afterError 3 s))) ∧
  (∀ s : State, s.q.toNat = 3 → s.n.toNat = 1 → s.r.toNat = 1 →
    exec .findroot s = .next (afterOk { s with psi := 2, attempt := 1 }))

/-! ## Twiddle tables -/

/-- 43_twiddle_table.md R141: after TWGEN with root `ρ`, word `p < n` of the destination holds `ρ^(brv_k(p)) mod q`,
words from `n` on hold what they held, and nothing else changed. -/
def Obligations.TwgenBuildsTheBitReversedPowers : Prop :=
  ∀ (s : State) (k : Nat), k ≤ 10 → s.n.toNat = 2 ^ k → s.q.toNat ≠ 0 →
    (∃ m, exec .twgenF s = .next (afterOk { s with tf := m }) ∧
      (∀ p, p < 2 ^ k → memRead m p = some (toWord (s.psi.toNat ^ brv k p % s.q.toNat))) ∧
      (∀ p, 2 ^ k ≤ p → memRead m p = memRead s.tf p)) ∧
    (∃ m, exec .twgenI s = .next (afterOk { s with ti := m }) ∧
      (∀ p, p < 2 ^ k → memRead m p = some (toWord (s.psiInv.toNat ^ brv k p % s.q.toNat))) ∧
      (∀ p, 2 ^ k ≤ p → memRead m p = memRead s.ti p))

/-- 43_twiddle_table.md R142: the entry at index `M + i`, `M = 2^e` groups, is the root to the power
`(n / 2M) * (2 * brv_e(i) + 1)`. -/
def Obligations.StageTwiddlesAreOddPowers : Prop :=
  ∀ (s t : State) (k e i : Nat), k ≤ 10 → s.n.toNat = 2 ^ k → s.q.toNat ≠ 0 → e < k → i < 2 ^ e →
    let power := fun root : Nat => root ^ (2 ^ k / (2 * 2 ^ e) * (2 * brv e i + 1)) % s.q.toNat
    (exec .twgenF s = .next t → memRead t.tf (2 ^ e + i) = some (toWord (power s.psi.toNat))) ∧
    (exec .twgenI s = .next t → memRead t.ti (2 ^ e + i) = some (toWord (power s.psiInv.toNat)))

/-- 43_twiddle_table.md R147: for matched parameters and `PSI_INV` the inverse of `PSI`, the two tables are inverse word by
word, and `TI[p] = ψ^(2n - brv_k(p))` for `p ≠ 0`.
That `ψ` need not be below `q` is the model's choice (log entry 20). -/
def Obligations.TablesOfInverseRootsAreInverse : Prop :=
  ∀ (s t u : State) (k : Nat), s.n.toNat = 2 ^ k → Matched (2 ^ k) s.q.toNat s.psi.toNat →
    modInv s.psi.toNat s.q.toNat = some s.psiInv.toNat → exec .twgenF s = .next t → exec .twgenI t = .next u →
    ∀ p, p < 2 ^ k →
      mulMod (wordAt u.tf p) (wordAt u.ti p) s.q.toNat = 1 ∧
      (p ≠ 0 → wordAt u.ti p = s.psi.toNat ^ (2 * 2 ^ k - brv k p) % s.q.toNat)

/-! ## The forward transform -/

/-- 44_forward_ntt.md R150 to R152: on written words FNTT completes, and word `p < n` of `A` is what the `k` stages give,
each stage taken as one parallel step of Cooley-Tukey butterflies; words from `n` on and everything else are as before. -/
def Obligations.FnttComputesItsStages : Prop :=
  ∀ (s : State) (k : Nat), k ≤ 10 → s.n.toNat = 2 ^ k → s.q.toNat ≠ 0 →
    written s.a 0 (2 ^ k) → written s.tf 1 (2 ^ k) →
    ∃ m, exec .fntt s = .next (afterOk { s with a := m }) ∧
      (∀ p, p < 2 ^ k →
        memRead m p = some (toWord (fnttWords (2 ^ k) s.q.toNat (wordAt s.tf) (wordAt s.a) k p))) ∧
      (∀ p, 2 ^ k ≤ p → memRead m p = memRead s.a p)

/-- 70_reset_and_hazards.md R223, R225, for FNTT: with usable parameters and `n >= 2` it completes exactly when the words
it reads, `A[0..n-1]` and `TF[1..n-1]`, are written, and is refused for such a word otherwise; for `n = 1` it reads nothing
and changes no word (44_forward_ntt.md R157). -/
def Obligations.FnttNeedsExactlyItsWords : Prop :=
  ∀ (s : State) (k : Nat), k ≤ 10 → s.n.toNat = 2 ^ k → s.q.toNat ≠ 0 →
    (k = 0 → exec .fntt s = .next (afterOk s)) ∧
    (1 ≤ k → ((∃ t, exec .fntt s = .next t) ↔ written s.a 0 (2 ^ k) ∧ written s.tf 1 (2 ^ k))) ∧
    (∀ f, exec .fntt s = .refused f → ∃ sp i, f = .unwrittenWord sp i ∧ i < 2 ^ k ∧
      memRead (spaceMem sp s) i = none ∧ (sp = .a ∨ (sp = .tf ∧ 1 ≤ i)))

/-- 44_forward_ntt.md R153, the first half: FNTT depends on nothing but `N`, `Q`, `A[0..n-1]` and `TF[1..n-1]`. Two states
that agree there, and in nothing else perhaps, complete alike and with equal `A[0..n-1]`. -/
def Obligations.FnttDependsOnlyOnItsInputs : Prop :=
  ∀ s s' t : State, s'.n = s.n → s'.q = s.q →
    (∀ i, i < s.n.toNat → memRead s'.a i = memRead s.a i) →
    (∀ i, 1 ≤ i → i < s.n.toNat → memRead s'.tf i = memRead s.tf i) →
    exec .fntt s = .next t →
    ∃ t', exec .fntt s' = .next t' ∧ t'.errcode = t.errcode ∧
      (configured s → ∀ i, i < s.n.toNat → memRead t'.a i = memRead t.a i)

/-- 44_forward_ntt.md R153, the second half: FNTT is linear modulo `q`. Where the input of `s3` is `c1` times that of `s1`
plus `c2` times that of `s2` modulo `q`, word by word, so is its output; with `c1 = 1`, `c2 = 0` this says that the result
depends on the input only modulo `q`. -/
def Obligations.FnttIsLinear : Prop :=
  ∀ (s1 s2 s3 t1 t2 t3 : State) (c1 c2 : Nat),
    s2.n = s1.n → s3.n = s1.n → s2.q = s1.q → s3.q = s1.q → configured s1 →
    (∀ i, 1 ≤ i → i < s1.n.toNat → memRead s2.tf i = memRead s1.tf i ∧ memRead s3.tf i = memRead s1.tf i) →
    (∀ i, i < s1.n.toNat → wordAt s3.a i ≡ c1 * wordAt s1.a i + c2 * wordAt s2.a i [MOD s1.q.toNat]) →
    exec .fntt s1 = .next t1 → exec .fntt s2 = .next t2 → exec .fntt s3 = .next t3 →
    ∀ i, i < s1.n.toNat → wordAt t3.a i ≡ c1 * wordAt t1.a i + c2 * wordAt t2.a i [MOD s1.q.toNat]

/-- 44_forward_ntt.md R154: for matched parameters and the table of `ψ`, word `p` after FNTT is the value of the input
polynomial at `ψ^(2 * brv_k(p) + 1)`: the points stand in bit-reversed order. For `n >= 2` the word is that residue; for
`n = 1` it is congruent to it (R157).
That `ψ` need not be below `q` is the model's choice (log entry 20). -/
def Obligations.FnttEvaluatesAtOddPowers : Prop :=
  ∀ (s : State) (k : Nat), s.n.toNat = 2 ^ k → Matched (2 ^ k) s.q.toNat s.psi.toNat →
    tableOf s.tf k s.psi.toNat s.q.toNat → written s.a 0 (2 ^ k) →
    ∃ t, exec .fntt s = .next t ∧ ∀ p, p < 2 ^ k →
      wordAt t.a p ≡ (∑ j ∈ Finset.range (2 ^ k), wordAt s.a j * s.psi.toNat ^ ((2 * brv k p + 1) * j))
        [MOD s.q.toNat] ∧
      (1 ≤ k → wordAt t.a p < s.q.toNat)

/-! ## The inverse transform -/

/-- 45_inverse_ntt.md R160 to R163: on written words and with `n` invertible INTT completes; `N_INV` is the inverse of `n`,
and word `p < n` is what the stages give, times that inverse. -/
def Obligations.InttComputesItsStages : Prop :=
  ∀ (s : State) (k : Nat), k ≤ 10 → s.n.toNat = 2 ^ k → s.q.toNat ≠ 0 → Nat.gcd (2 ^ k % s.q.toNat) s.q.toNat = 1 →
    written s.a 0 (2 ^ k) → written s.ti 1 (2 ^ k) →
    ∃ y m, y < s.q.toNat ∧ 2 ^ k * y % s.q.toNat = 1 % s.q.toNat ∧
      exec .intt s = .next (afterOk { s with nInv := toWord y, a := m }) ∧
      (∀ p, p < 2 ^ k →
        memRead m p =
          some (toWord (inttWords (2 ^ k) s.q.toNat (wordAt s.ti) (wordAt s.a) k p * y % s.q.toNat))) ∧
      (∀ p, 2 ^ k ≤ p → memRead m p = memRead s.a p)

/-- 45_inverse_ntt.md R163 and 70_reset_and_hazards.md R225, for INTT: without an inverse of `n` it ends with
ERR_NOT_INVERTIBLE and reads no word; with one it completes exactly when `A[0..n-1]` and `TI[1..n-1]` are written, and is
refused for such a word otherwise. -/
def Obligations.InttNeedsExactlyItsWords : Prop :=
  ∀ (s : State) (k : Nat), k ≤ 10 → s.n.toNat = 2 ^ k → s.q.toNat ≠ 0 →
    (Nat.gcd (2 ^ k % s.q.toNat) s.q.toNat ≠ 1 → exec .intt s = .next (afterError 4 s)) ∧
    (Nat.gcd (2 ^ k % s.q.toNat) s.q.toNat = 1 →
      ((∃ t, exec .intt s = .next t) ↔ written s.a 0 (2 ^ k) ∧ written s.ti 1 (2 ^ k))) ∧
    (∀ f, exec .intt s = .refused f → ∃ sp i, f = .unwrittenWord sp i ∧ i < 2 ^ k ∧
      memRead (spaceMem sp s) i = none ∧ (sp = .a ∨ (sp = .ti ∧ 1 ≤ i)))

/-- 45_inverse_ntt.md R164: for matched parameters and the table of an inverse `PSI_INV` of `ψ`, word `j` after INTT is
`n⁻¹` times the sum of the words times `ψ^(-(2 * brv_k(p) + 1) * j)`: coefficients in natural order.
That `ψ` need not be below `q` is the model's choice (log entry 20). -/
def Obligations.InttInterpolatesInNaturalOrder : Prop :=
  ∀ (s : State) (k : Nat), s.n.toNat = 2 ^ k → Matched (2 ^ k) s.q.toNat s.psi.toNat →
    s.psi.toNat * s.psiInv.toNat % s.q.toNat = 1 → tableOf s.ti k s.psiInv.toNat s.q.toNat → written s.a 0 (2 ^ k) →
    ∃ t y, exec .intt s = .next t ∧ 2 ^ k * y % s.q.toNat = 1 ∧ ∀ j, j < 2 ^ k →
      wordAt t.a j =
        y * (∑ p ∈ Finset.range (2 ^ k), wordAt s.a p * s.psiInv.toNat ^ ((2 * brv k p + 1) * j)) % s.q.toNat

/-- 45_inverse_ntt.md R165, round trip: with matched parameters and both tables, FNTT and then INTT leave in `A` the input,
reduced modulo `q`.
That `ψ` need not be below `q` is the model's choice (log entry 20). -/
def Obligations.ForwardThenInverseRestoresTheInput : Prop :=
  ∀ (s : State) (k : Nat), s.n.toNat = 2 ^ k → Matched (2 ^ k) s.q.toNat s.psi.toNat →
    s.psi.toNat * s.psiInv.toNat % s.q.toNat = 1 →
    tableOf s.tf k s.psi.toNat s.q.toNat → tableOf s.ti k s.psiInv.toNat s.q.toNat → written s.a 0 (2 ^ k) →
    ∃ t u, exec .fntt s = .next t ∧ exec .intt t = .next u ∧ u.errcode = 0 ∧
      ∀ j, j < 2 ^ k → memRead u.a j = some (toWord (wordAt s.a j % s.q.toNat))

/-- 45_inverse_ntt.md R165, convolution: INTT of the pointwise product of two forward transforms is the negative-wrapped
convolution of the two inputs. `sa`, `sb` are the states before the two FNTT commands, `sc` the state with the product
loaded, all with the same parameters and tables.
That `ψ` need not be below `q` is the model's choice (log entry 20). -/
def Obligations.PointwiseProductIsNegacyclicConvolution : Prop :=
  ∀ (sa sb sc ta tb : State) (k : Nat), sa.n.toNat = 2 ^ k → Matched (2 ^ k) sa.q.toNat sa.psi.toNat →
    sa.psi.toNat * sa.psiInv.toNat % sa.q.toNat = 1 →
    sb.n = sa.n → sb.q = sa.q → sc.n = sa.n → sc.q = sa.q →
    tableOf sa.tf k sa.psi.toNat sa.q.toNat → tableOf sb.tf k sa.psi.toNat sa.q.toNat →
    tableOf sc.ti k sa.psiInv.toNat sa.q.toNat →
    written sa.a 0 (2 ^ k) → written sb.a 0 (2 ^ k) →
    exec .fntt sa = .next ta → exec .fntt sb = .next tb →
    (∀ p, p < 2 ^ k → memRead sc.a p = some (toWord (mulMod (wordAt ta.a p) (wordAt tb.a p) sa.q.toNat))) →
    ∃ u, exec .intt sc = .next u ∧
      ∀ j, j < 2 ^ k → wordAt u.a j = negacyclic (2 ^ k) sa.q.toNat (wordAt sa.a) (wordAt sb.a) j

/-! ## Bit reversal -/

/-- 46_bit_reverse.md R170: bit `b` of `brv_k(i)` is bit `k - 1 - b` of `i`, the result is below `2^k`, and it is the sum
the rule writes. -/
def Obligations.BrvReversesTheBits : Prop :=
  (∀ k i : Nat, i < 2 ^ k →
    brv k i < 2 ^ k ∧ (∀ b, b < k → (brv k i).testBit b = i.testBit (k - 1 - b)) ∧
    brv k i = ∑ b ∈ Finset.range k, (i.testBit b).toNat * 2 ^ (k - 1 - b)) ∧
  brv 0 0 = 0 ∧ brv 3 1 = 4 ∧ brv 3 3 = 6 ∧ brv 3 5 = 5 ∧ brv 3 6 = 3 ∧ brv 4 1 = 8 ∧ brv 4 3 = 12 ∧
  brv 1 1 = 1 ∧ brv 2 1 = 2

/-- 46_bit_reverse.md R172: the word 6 is BITREV, and BITREV with a valid `N` and written words puts word `i` at index `brv_k(i)`, whatever `Q`
holds, and changes no other word and no other state; with an invalid `N` it ends with ERR_CONFIG; with a word unwritten it
is refused (70_reset_and_hazards.md R225). -/
def Obligations.BitrevPermutesTheWords : Prop :=
  decode 0x0006#32 = .legal .bitrev ∧
  (∀ (s : State) (k : Nat), k ≤ 10 → s.n.toNat = 2 ^ k → written s.a 0 (2 ^ k) →
    ∃ m, exec .bitrev s = .next (afterOk { s with a := m }) ∧
      (∀ i, i < 2 ^ k → memRead m (brv k i) = memRead s.a i) ∧
      (∀ i, 2 ^ k ≤ i → memRead m i = memRead s.a i)) ∧
  (∀ s : State, nValid s.n.toNat = false → exec .bitrev s = .next (afterError 3 s)) ∧
  (∀ (s : State) (k : Nat), k ≤ 10 → s.n.toNat = 2 ^ k → ¬ written s.a 0 (2 ^ k) →
    ∃ i, i < 2 ^ k ∧ memRead s.a i = none ∧ exec .bitrev s = .refused (.unwrittenWord .a i))

/-- 46_bit_reverse.md R173: the reversal is its own inverse; two BITREV commands in a row restore `A`; the fixed points are
the indices whose bits read the same backwards, 0 and `2^k - 1` among them; the words of `A[0..n-1]` are permuted, none
changed. -/
def Obligations.BitrevIsSelfInverse : Prop :=
  (∀ k i : Nat, i < 2 ^ k → brv k (brv k i) = i ∧
    (brv k i = i ↔ ∀ b, b < k → i.testBit b = i.testBit (k - 1 - b))) ∧
  (∀ k : Nat, brv k 0 = 0 ∧ brv k (2 ^ k - 1) = 2 ^ k - 1) ∧
  (∀ s t : State, nValid s.n.toNat = true → exec .bitrev s = .next t →
    List.Perm ((List.range s.n.toNat).map (memRead t.a)) ((List.range s.n.toNat).map (memRead s.a)) ∧
    ∃ u, exec .bitrev t = .next u ∧ ∀ i, memRead u.a i = memRead s.a i)

/-! ## The sequencer -/

/-- 44_forward_ntt.md R152: the positions of FNTT start at `(1, 0, 0)`, each is followed by the one the sequencer advances
to, the last by none; there are `(n/2) * log2(n)`, each in the ranges of 10_state.md R40 and pairing two words below
`n`. -/
def Obligations.FnttSequencerFollowsTheLoopNest : Prop :=
  ∀ k : Nat,
    (fnttPositions (2 ^ k)).length = 2 ^ k / 2 * k ∧
    (1 ≤ k → (fnttPositions (2 ^ k))[0]? = some ⟨1, 0, 0⟩) ∧
    (∀ (x : Nat) (p : LoopPos), (fnttPositions (2 ^ k))[x]? = some p →
      fnttNext (2 ^ k) p = (fnttPositions (2 ^ k))[x + 1]? ∧
      (∃ e, e < k ∧ p.m = 2 ^ e) ∧ p.i < p.m ∧
      2 * p.i * fnttSpan (2 ^ k) p.m ≤ p.j ∧ p.j < 2 * p.i * fnttSpan (2 ^ k) p.m + fnttSpan (2 ^ k) p.m ∧
      1 ≤ p.m + p.i ∧ p.m + p.i < 2 ^ k ∧ p.j < p.j + fnttSpan (2 ^ k) p.m ∧
      p.j + fnttSpan (2 ^ k) p.m < 2 ^ k)

/-- 45_inverse_ntt.md R162: the same of INTT, which starts at `(n, 0, 0)` and ends after stage `m = 2`. -/
def Obligations.InttSequencerFollowsTheLoopNest : Prop :=
  ∀ k : Nat,
    (inttPositions (2 ^ k)).length = 2 ^ k / 2 * k ∧
    (1 ≤ k → (inttPositions (2 ^ k))[0]? = some ⟨2 ^ k, 0, 0⟩) ∧
    (∀ (x : Nat) (p : LoopPos), (inttPositions (2 ^ k))[x]? = some p →
      inttNext (2 ^ k) p = (inttPositions (2 ^ k))[x + 1]? ∧
      (∃ e, 1 ≤ e ∧ e ≤ k ∧ p.m = 2 ^ e) ∧ p.i < p.m / 2 ∧
      2 * p.i * inttSpan (2 ^ k) p.m ≤ p.j ∧ p.j < 2 * p.i * inttSpan (2 ^ k) p.m + inttSpan (2 ^ k) p.m ∧
      1 ≤ p.m / 2 + p.i ∧ p.m / 2 + p.i < 2 ^ k ∧ p.j < p.j + inttSpan (2 ^ k) p.m ∧
      p.j + inttSpan (2 ^ k) p.m < 2 ^ k)

/-- 44_forward_ntt.md R156, 45_inverse_ntt.md R166: the order of the butterflies of one stage, and of the scalings, is not
observable: any other order of the positions gives the same state. -/
def Obligations.OrderInsideAStageIsUnobservable : Prop :=
  ∀ (s t : State) (k e q : Nat), k ≤ 10 → Memory.wf s.a = true → e < k →
    (∀ l, List.Perm l (stagePositions (2 ^ e) (2 ^ e) (fnttSpan (2 ^ k) (2 ^ e))) →
      forEach (fnttAt (2 ^ k) q) (stagePositions (2 ^ e) (2 ^ e) (fnttSpan (2 ^ k) (2 ^ e))) s = .next t →
      forEach (fnttAt (2 ^ k) q) l s = .next t) ∧
    (∀ l, List.Perm l (stagePositions (2 * 2 ^ e) (2 ^ e) (inttSpan (2 ^ k) (2 * 2 ^ e))) →
      forEach (inttAt (2 ^ k) q) (stagePositions (2 * 2 ^ e) (2 ^ e) (inttSpan (2 ^ k) (2 * 2 ^ e))) s = .next t →
      forEach (inttAt (2 ^ k) q) l s = .next t) ∧
    (∀ (y : Nat) (l : List Nat), List.Perm l (List.range (2 ^ k)) →
      forEach (scaleAt q y) (List.range (2 ^ k)) s = .next t → forEach (scaleAt q y) l s = .next t)

/-- 00_scope.md R3: the command-level result of every command is what its micro-steps reach: from the command's first
position, some number of micro-steps gives exactly the outcome of `exec`, a completed state, a state that waits for the
entropy source, or a refusal. -/
def Obligations.MicroStepsReachTheCommandResult : Prop :=
  ∀ (i : Instr) (s : State), ∃ steps, andThen (startCommand i s) (microRun steps) = exec i s

/-- 41_secure_random_range.md R121, R123, 42_primitive_root_search.md R132, R139: a command that waits takes up its draw
when bytes are delivered: one step takes the delivery. Of a RNDRANGE, if the bytes now ready begin with one accepted draw,
the next step completes the command with its value. A root search at attempt `k` goes on, if the bytes now ready are those
of failed attempts and then of an accepted one, to the found root, with `ATTEMPT` the number of the accepted attempt; if
they are those of failed attempts up to the fiftieth, to ERR_ROOT_NOT_FOUND. Its phases follow one another as R139 lists
them. That a wait shows in the state and goes on by micro-steps is the model's choice (log entries 3, 13 and 16). -/
def Obligations.WaitingCommandsGoOnAfterADelivery : Prop :=
  (∀ (s : State) (d : Nat) (bytes last left : List Byte) (rest : List Event),
    s.seq = .draw d → s.env = .entropy bytes :: rest → noResetDue { s with env := rest } →
    s.opa.toNat < s.opb.toNat → s.entropy.length < drawLength (s.opb.toNat - s.opa.toNat) →
    s.entropy ++ bytes = last ++ left → last.length = drawLength (s.opb.toNat - s.opa.toNat) →
    drawNumber (s.opb.toNat - s.opa.toNat) last ≤ s.opb.toNat - s.opa.toNat →
    ∃ t, step s = .next t ∧ t = { s with env := rest, entropy := s.entropy ++ bytes } ∧
      step t = .next (afterOk { s with
        env := rest, entropy := left,
        res := toWord (s.opa.toNat + drawNumber (s.opb.toNat - s.opa.toNat) last) })) ∧
  (∀ (s : State) (k d : Nat) (bytes left : List Byte) (failed : List (List Byte × Nat)) (rest : List Event),
    s.seq = .root k (.draw d) → seqInv s → starvedDraw s →
    s.env = .entropy bytes :: rest → noResetDue { s with env := rest } →
    failedAttempts s.n.toNat s.q.toNat s.r.toNat failed →
    let t : State := { s with env := rest, entropy := s.entropy ++ bytes }
    step s = .next t ∧
    (∀ last x, k + failed.length ≤ 50 → oneDraw 2 (s.q.toNat - 1) last x →
      acceptsDraw s.n.toNat s.q.toNat s.r.toNat x →
      s.entropy ++ bytes = (failed.map Prod.fst).flatten ++ last ++ left →
      ∃ count, runSteps count t = .next (afterOk { s with
        env := rest, entropy := left,
        psi := toWord (x ^ s.r.toNat % s.q.toNat), attempt := toWord (k + failed.length) })) ∧
    (k + failed.length = 51 → s.entropy ++ bytes = (failed.map Prod.fst).flatten ++ left →
      ∃ count, runSteps count t = .next (afterError 2 { s with env := rest, entropy := left, attempt := 50 }))) ∧
  (∀ (s : State) (k : Nat) (phase : RootPhase), s.seq = .root k phase → seqInv s → noResetDue s →
    match phase with
    | .draw d =>
      (∀ last left, 3 < s.q.toNat → s.entropy = last ++ left → last.length = drawLength (s.q.toNat - 3) →
        step s = .next { s with
          entropy := left
          seq := .root k (if drawNumber (s.q.toNat - 3) last ≤ s.q.toNat - 3
            then .expR (2 + drawNumber (s.q.toNat - 3) last) else .draw (d + 1)) }) ∧
      (s.q.toNat = 3 → step s = .next { s with seq := .root k (.expR 2) }) ∧
      (s.q.toNat ≤ 2 → step s = .next (afterError 1 s))
    | .expR x => step s = .next { s with seq := .root k (.expN (x ^ s.r.toNat % s.q.toNat)) }
    | .expN c => step s = .next { s with seq := .root k (.test c (c ^ s.n.toNat % s.q.toNat)) }
    | .test c chk =>
      (chk = s.q.toNat - 1 → step s = .next (afterOk { s with psi := toWord c })) ∧
      (chk ≠ s.q.toNat - 1 → k < 50 →
        step s = .next { s with attempt := toWord (k + 1), seq := .root (k + 1) (.draw 1) }) ∧
      (chk ≠ s.q.toNat - 1 → k = 50 → step s = .next (afterError 2 s)))

/-- 70_reset_and_hazards.md R230: while a draw of a RNDRANGE or of a root search waits with BUSY = 1, the host reads
`STATUS` and nothing else: that read returns BUSY with ERRS at its old value, and every other access is refused
(93_implementation_defined.md U6). -/
def Obligations.BusyBlockAllowsOnlyStatusReads : Prop :=
  ∀ (s : State) (acc : Transaction) (rest : List Event),
    starvedDraw s → blockInv s → s.env = .host acc :: rest →
    (acc = .rd 0x001#12 → step s = .next { s with
      env := rest, returned := s.returned ++ [(0x001#12, if s.status.errs then 0b1001#32 else 0b0001#32)] }) ∧
    (acc ≠ .rd 0x001#12 → step s = .refused .accessWhileBusy)

/-! ## The invariant of the block -/

/-- The reset state has the invariant. -/
def Obligations.ResetHasTheBlockInvariant : Prop := blockInv State.reset

/-- Every step keeps the invariant of the block: canonical memories; ERRCODE at most 5, ERR exactly when ERRCODE is not 0,
no error flag before the first completion (10_state.md R22, R23); ATTEMPT at most 50 (R33); BUSY exactly while a command is
in progress, and then DONE = ERR = 0 (70_reset_and_hazards.md R230, log entry 4); the sequencer idle or at a wait in the
ranges of R40 (log entry 3). -/
def Obligations.EveryStepKeepsTheBlockInvariant : Prop :=
  ∀ s t : State, blockInv s → step s = .next t → blockInv t

/-- From a state with the invariant a step never faults, and it is refused only for a memory word nothing has written
(70_reset_and_hazards.md R225) or for a host access while the block is busy (R230). -/
def Obligations.StepsStopOnlyWhereTheSpecLetsThem : Prop :=
  ∀ s : State, blockInv s →
    (∀ f, step s ≠ .fault f) ∧
    (∀ f, step s = .refused f →
      (∃ sp i, f = .unwrittenWord sp i ∧ memRead (spaceMem sp s) i = none) ∨
      (f = .accessWhileBusy ∧ s.status.busy = true))
end

