-- ==== Sys2Proof/Laws/Memory.lean ====
section
/-! SUPPORT. The laws of the memories: read after write, and the canonical form is kept. -/

namespace Sys2Proof.Machine

/-- A read at the index just written gives the value written. -/
@[simp] theorem memRead_memWrite_same (m : Memory) (i : Nat) (v : Word) : memRead (memWrite m i v) i = some v := by
  induction m with
  | nil => simp [memWrite, memRead]
  | cons e m ih => obtain ⟨j, w⟩ := e; unfold memWrite; split_ifs <;> simp_all [memRead]

/-- A write leaves every other index as it was. -/
theorem memRead_memWrite_other (m : Memory) {i k : Nat} (v : Word) (h : k ≠ i) :
    memRead (memWrite m i v) k = memRead m k := by
  induction m with
  | nil => simp [memWrite, memRead, h]
  | cons e m ih => obtain ⟨j, w⟩ := e; unfold memWrite; split_ifs <;> simp_all [memRead]

/-- Both cases of a read after a write. -/
theorem memRead_memWrite (m : Memory) (i k : Nat) (v : Word) :
    memRead (memWrite m i v) k = if k = i then some v else memRead m k := by
  split_ifs with h
  · rw [h]; exact memRead_memWrite_same m i v
  · exact memRead_memWrite_other m v h

/-- The first index of a memory after a write. -/
theorem memWrite_head (m : Memory) (i : Nat) (v : Word) :
    ∃ k w m', memWrite m i v = (k, w) :: m' ∧ (k = i ∨ ∃ x rest, m = (k, x) :: rest ∧ k < i) := by
  cases m with
  | nil => exact ⟨i, v, [], rfl, .inl rfl⟩
  | cons e m =>
    obtain ⟨j, w⟩ := e
    unfold memWrite
    split_ifs with h1 h2
    · exact ⟨i, v, _, rfl, .inl rfl⟩
    · exact ⟨i, v, _, rfl, .inl rfl⟩
    · exact ⟨j, w, _, rfl, .inr ⟨w, m, rfl, by omega⟩⟩

/-- The tail of a canonical memory is canonical. -/
theorem Memory_wf_tail {e : Nat × Word} {m : Memory} (h : Memory.wf (e :: m) = true) : Memory.wf m = true := by
  cases m with
  | nil => rfl
  | cons d m => obtain ⟨i, v⟩ := e; obtain ⟨j, w⟩ := d; simp_all [Memory.wf]

/-- Canonical form of a memory with one more word in front. -/
theorem Memory_wf_cons (i : Nat) (v : Word) (m : Memory) :
    Memory.wf ((i, v) :: m) = true ↔
      i < Config.nMax ∧ (∀ j w m', m = (j, w) :: m' → i < j) ∧ Memory.wf m = true := by
  cases m with
  | nil => simp [Memory.wf]
  | cons d m =>
    obtain ⟨j, w⟩ := d
    have hj : ∀ {m : Memory} {j : Nat} {w : Word}, Memory.wf ((j, w) :: m) = true → j < Config.nMax := by
      intro m
      induction m with
      | nil => intro j w h; simpa [Memory.wf] using h
      | cons d m ih =>
        intro j w h
        obtain ⟨k, x⟩ := d
        simp only [Memory.wf, Bool.and_eq_true, decide_eq_true_eq] at h
        have := ih h.2
        omega
    simp only [Memory.wf, Bool.and_eq_true, decide_eq_true_eq, List.cons.injEq, Prod.mk.injEq]
    constructor
    · rintro ⟨hij, hm⟩
      exact ⟨by have := hj hm; omega, by rintro j' w' m' ⟨⟨rfl, rfl⟩, rfl⟩; exact hij, hm⟩
    · rintro ⟨-, hij, hm⟩
      exact ⟨hij j w m ⟨⟨rfl, rfl⟩, rfl⟩, hm⟩

/-- A write below `NMAX` keeps the canonical form. -/
theorem memWrite_wf (m : Memory) {i : Nat} (v : Word) (hm : Memory.wf m = true) (hi : i < Config.nMax) :
    Memory.wf (memWrite m i v) = true := by
  induction m with
  | nil => simpa [memWrite, Memory.wf] using hi
  | cons e m ih =>
    obtain ⟨j, w⟩ := e
    obtain ⟨hj, hlt, htl⟩ := (Memory_wf_cons j w m).mp hm
    unfold memWrite
    split_ifs with h1 h2
    · exact (Memory_wf_cons i v _).mpr ⟨hi, by rintro j' w' m' ⟨⟨rfl, rfl⟩, rfl⟩; exact h1, hm⟩
    · exact (Memory_wf_cons i v _).mpr ⟨hi, by subst h2; exact hlt, htl⟩
    · refine (Memory_wf_cons j w _).mpr ⟨hj, ?_, ih htl⟩
      intro j' w' m' he
      obtain ⟨k, x, m'', hw, hk⟩ := memWrite_head m i v
      rw [hw] at he
      obtain ⟨⟨rfl, rfl⟩, rfl⟩ : (k = j' ∧ x = w') ∧ m'' = m' := by simpa using he
      rcases hk with rfl | ⟨y, rest, hy, -⟩
      · omega
      · exact hlt k y rest hy

/-- Nothing is written after reset. -/
theorem reset_memories_wf :
    Memory.wf State.reset.a = true ∧ Memory.wf State.reset.tf = true ∧ Memory.wf State.reset.ti = true := ⟨rfl, rfl, rfl⟩

/-- Replacing one space's memory by a write keeps every memory canonical. -/
theorem spaceMem_setSpaceMem (sp sp' : Space) (m : Memory) (s : State) :
    spaceMem sp' (setSpaceMem sp m s) = if sp' = sp then m else spaceMem sp' s := by
  cases sp <;> cases sp' <;> rfl

end Sys2Proof.Machine
end

