-- ==== Sys2Proof/Laws/Ops.lean ====
section
/-! SUPPORT. For each shared operation, one lemma that says all it can do when it answers a next state. -/

namespace Sys2Proof.Machine

section sequencing
variable {α β : Type}

@[simp] theorem andThen_next (x : α) (f : α → Result β) : andThen (.next x) f = f x := rfl
@[simp] theorem andThen_fault (e : Fault) (f : α → Result β) : andThen (.fault e) f = .fault e := rfl
@[simp] theorem andThen_refused (e : Refusal) (f : α → Result β) : andThen (.refused e) f = .refused e := rfl

/-- A sequence answers exactly when both parts do. -/
theorem andThen_eq_next {o : Result α} {f : α → Result β} {y : β} :
    andThen o f = .next y ↔ ∃ x, o = .next x ∧ f x = .next y := by
  cases o <;> simp [andThen]

/-- A sequence faults in its first part or in its second. -/
theorem andThen_eq_fault {o : Result α} {f : α → Result β} {e : Fault} :
    andThen o f = .fault e ↔ o = .fault e ∨ ∃ x, o = .next x ∧ f x = .fault e := by
  cases o <;> simp [andThen]

/-- A sequence is refused in its first part or in its second. -/
theorem andThen_eq_refused {o : Result α} {f : α → Result β} {e : Refusal} :
    andThen o f = .refused e ↔ o = .refused e ∨ ∃ x, o = .next x ∧ f x = .refused e := by
  cases o <;> simp [andThen]

@[simp] theorem forEach_nil (f : α → State → Result State) (s : State) : forEach f [] s = .next s := rfl

@[simp] theorem forEach_cons (f : α → State → Result State) (x : α) (xs : List α) (s : State) :
    forEach f (x :: xs) s = andThen (f x s) (forEach f xs) := rfl

/-- A loop over two lists in a row is the two loops in a row. -/
theorem forEach_append (f : α → State → Result State) (xs ys : List α) (s : State) :
    forEach f (xs ++ ys) s = andThen (forEach f xs s) (forEach f ys) := by
  induction xs generalizing s with
  | nil => rfl
  | cons x xs ih =>
    simp only [List.cons_append, forEach_cons]
    cases f x s <;> simp [ih]

/-- What each step of a loop keeps, the loop keeps. -/
theorem forEach_keeps {f : α → State → Result State} {P : State → Prop} {xs : List α} {s t : State}
    (hstep : ∀ x ∈ xs, ∀ u v, f x u = .next v → P u → P v) (h : forEach f xs s = .next t) (hs : P s) : P t := by
  induction xs generalizing s with
  | nil => cases h; exact hs
  | cons x xs ih =>
    obtain ⟨u, hu, ht⟩ := andThen_eq_next.mp h
    exact ih (fun y hy => hstep y (List.mem_cons_of_mem x hy)) ht (hstep x List.mem_cons_self s u hu hs)

/-- A relation to the start state that each step of a loop extends, the loop extends. -/
theorem forEach_relates {f : α → State → Result State} {R : State → State → Prop} {xs : List α} {s t : State}
    (hrefl : ∀ u, R u u) (htrans : ∀ u v w, R u v → R v w → R u w)
    (hstep : ∀ x ∈ xs, ∀ u v, f x u = .next v → R u v) (h : forEach f xs s = .next t) : R s t :=
  forEach_keeps (P := fun u => R s u) (fun x hx u v hv hu => htrans s u v hu (hstep x hx u v hv)) h (hrefl s)

end sequencing

/-- What a word read can do. -/
theorem readWord_eq_next {sp : Space} {i : Nat} {s : State} {v : Word} :
    readWord sp i s = .next v ↔ i < Config.nMax ∧ memRead (spaceMem sp s) i = some v := by
  unfold readWord
  split_ifs with h
  · cases memRead (spaceMem sp s) i <;> simp [h]
  · simp [h]

/-- A word read faults only outside the memory. -/
theorem readWord_eq_fault {sp : Space} {i : Nat} {s : State} {e : Fault} :
    readWord sp i s = .fault e ↔ ¬ i < Config.nMax ∧ e = .noSuchWord sp i := by
  unfold readWord
  split_ifs with h
  · cases memRead (spaceMem sp s) i <;> simp [h]
  · simp [h, eq_comm]

/-- A word read is refused only for a word nothing has written. -/
theorem readWord_eq_refused {sp : Space} {i : Nat} {s : State} {e : Refusal} :
    readWord sp i s = .refused e ↔
      i < Config.nMax ∧ memRead (spaceMem sp s) i = none ∧ e = .unwrittenWord sp i := by
  unfold readWord
  split_ifs with h
  · cases memRead (spaceMem sp s) i <;> simp [h, eq_comm]
  · simp [h]

/-- What a word write can do. -/
theorem writeWord_eq_next {sp : Space} {i : Nat} {v : Word} {s t : State} :
    writeWord sp i v s = .next t ↔
      i < Config.nMax ∧ t = setSpaceMem sp (memWrite (spaceMem sp s) i v) s := by
  unfold writeWord
  split_ifs with h <;> simp [h, eq_comm]

/-- A word write faults only outside the memory. -/
theorem writeWord_eq_fault {sp : Space} {i : Nat} {v : Word} {s : State} {e : Fault} :
    writeWord sp i v s = .fault e ↔ ¬ i < Config.nMax ∧ e = .noSuchWord sp i := by
  unfold writeWord
  split_ifs with h <;> simp [h, eq_comm]

/-- A word write is never refused. -/
theorem writeWord_ne_refused (sp : Space) (i : Nat) (v : Word) (s : State) (e : Refusal) :
    writeWord sp i v s ≠ .refused e := by
  unfold writeWord
  split_ifs <;> simp

/-- A write keeps every memory canonical. -/
theorem writeWord_wf {sp : Space} {i : Nat} {v : Word} {s t : State} (h : writeWord sp i v s = .next t)
    (hs : ∀ sp', Memory.wf (spaceMem sp' s) = true) (sp' : Space) : Memory.wf (spaceMem sp' t) = true := by
  obtain ⟨hi, rfl⟩ := writeWord_eq_next.mp h
  rw [spaceMem_setSpaceMem]
  split_ifs
  · exact memWrite_wf _ v (hs sp) hi
  · exact hs sp'

/-- What reading consecutive words can do. -/
theorem readWords_eq_next {sp : Space} {s : State} {count i : Nat} {vs : List Word} :
    readWords sp s count i = .next vs ↔
      vs.length = count ∧ ∀ (k : Nat) (hk : k < vs.length), readWord sp (i + k) s = .next vs[k] := by
  induction count generalizing i vs with
  | zero =>
    constructor
    · intro h; cases h; simp
    · rintro ⟨hl, -⟩; rw [List.length_eq_zero_iff.mp hl]; rfl
  | succ count ih =>
    unfold readWords
    simp only [andThen_eq_next]
    constructor
    · rintro ⟨v, hv, ws, hws, h⟩
      cases h
      obtain ⟨hl, hr⟩ := ih.mp hws
      refine ⟨by simp [hl], fun k hk => ?_⟩
      cases k with
      | zero => simpa using hv
      | succ k =>
        have := hr k (by simpa using hk)
        simpa [Nat.add_assoc, Nat.add_comm 1 k] using this
    · rintro ⟨hl, hr⟩
      cases vs with
      | nil => simp at hl
      | cons v ws =>
        refine ⟨v, hr 0 (by simp), ws, ih.mpr ⟨by simpa using hl, fun k hk => ?_⟩, rfl⟩
        have := hr (k + 1) (by simpa using hk)
        simpa [Nat.add_assoc, Nat.add_comm 1 k] using this

/-- What a command's frame can do: complete with the code of its pseudocode, or wait. -/
theorem runCommand_eq_next {body : State → Result Finish} {s t : State} :
    runCommand body s = .next t ↔
      (∃ c u, body (beginCommand s) = .next (.ended c u) ∧ t = completeCommand c u) ∨
      body (beginCommand s) = .next (.waiting t) := by
  unfold runCommand
  cases body (beginCommand s) with
  | next o => cases o <;> simp [eq_comm]
  | fault e => simp
  | refused e => simp

/-- A command's frame faults only in its pseudocode. -/
theorem runCommand_eq_fault {body : State → Result Finish} {s : State} {e : Fault} :
    runCommand body s = .fault e ↔ body (beginCommand s) = .fault e := by
  unfold runCommand
  cases body (beginCommand s) with
  | next o => cases o <;> simp
  | fault e => simp
  | refused e => simp

/-- A command's frame is refused only in its pseudocode. -/
theorem runCommand_eq_refused {body : State → Result Finish} {s : State} {e : Refusal} :
    runCommand body s = .refused e ↔ body (beginCommand s) = .refused e := by
  unfold runCommand
  cases body (beginCommand s) with
  | next o => cases o <;> simp
  | fault e => simp
  | refused e => simp

/-- The two outcomes of the check of `Q`. -/
theorem withQ_cases (s : State) (k : Nat → Result Finish) :
    (s.q.toNat = 0 ∧ withQ s k = raise .config s) ∨ (s.q.toNat ≠ 0 ∧ withQ s k = k s.q.toNat) := by
  unfold withQ; split_ifs with h <;> simp [h]

/-- The two outcomes of the check of `N`. -/
theorem withN_cases (s : State) (k : Nat → Result Finish) :
    (nValid s.n.toNat = false ∧ withN s k = raise .config s) ∨ (nValid s.n.toNat = true ∧ withN s k = k s.n.toNat) := by
  unfold withN; split_ifs with h <;> simp [h]

/-- The two outcomes of the check of `Q` and `N`. -/
theorem withNQ_cases (s : State) (k : Nat → Nat → Result Finish) :
    (¬ (s.q.toNat ≠ 0 ∧ nValid s.n.toNat = true) ∧ withNQ s k = raise .config s) ∨
    ((s.q.toNat ≠ 0 ∧ nValid s.n.toNat = true) ∧ withNQ s k = k s.n.toNat s.q.toNat) := by
  unfold withNQ; split_ifs with h
  · exact .inr ⟨h, rfl⟩
  · exact .inl ⟨h, rfl⟩

/-- A valid degree is a power of two up to `NMAX`. -/
theorem nValid_iff (n : Nat) : nValid n = true ↔ ∃ k, k ≤ Config.logNMax ∧ n = 2 ^ k := by
  simp [nValid]

/-- `log2` of a valid degree is its exponent. -/
theorem log2_two_pow (k : Nat) : log2 (2 ^ k) = k := Nat.log2_two_pow

/-- What one pass of the rejection loop can do. -/
theorem drawOnce_cases (min span : Nat) (bs : List Byte) :
    (bs.length < drawBytes span ∧ drawOnce min span bs = .starved) ∨
    (drawBytes span ≤ bs.length ∧ leValue (bs.take (drawBytes span)) &&& drawMask span ≤ span ∧
      drawOnce min span bs =
        .accepted (min + (leValue (bs.take (drawBytes span)) &&& drawMask span)) (bs.drop (drawBytes span))) ∨
    (drawBytes span ≤ bs.length ∧ span < leValue (bs.take (drawBytes span)) &&& drawMask span ∧
      drawOnce min span bs = .rejected (bs.drop (drawBytes span))) := by
  unfold drawOnce
  split_ifs with h1
  · exact .inl ⟨h1, rfl⟩
  · by_cases h2 : leValue (bs.take (drawBytes span)) &&& drawMask span ≤ span
    · exact .inr (.inl ⟨by omega, h2, by simp [h2]⟩)
    · exact .inr (.inr ⟨by omega, by omega, by simp [h2]⟩)

end Sys2Proof.Machine
end

