-- ==== Sys2Proof/Laws/Step.lean ====
section
/-! SUPPORT. What one step of the machine can do, case by case. -/

namespace Sys2Proof.Machine

/-- A step of an idle block with nothing to do changes nothing. -/
theorem step_idle_nil {s : State} (hq : s.seq = .idle) (he : s.env = []) : step s = .next s := by
  simp [step, blockStep, hq, idleStep, he]

/-- A step of an idle block takes the next event. -/
theorem step_idle_cons {s : State} {e : Event} {rest : List Event} (hq : s.seq = .idle) (he : s.env = e :: rest) :
    step s = takeEvent e { s with env := rest } := by
  simp [step, blockStep, hq, idleStep, he]

/-- A step of a block with a command in progress. -/
theorem step_busy {s : State} (hq : s.seq ≠ .idle) : step s = busyStep s := by
  unfold step blockStep
  split
  · contradiction
  · rfl

/-- A reset that is due ends the command in progress. -/
theorem busyStep_reset {s : State} {rest : List Event} (he : s.env = .reset :: rest) :
    busyStep s = .next (resetBlock { s with env := rest }) := by
  simp [busyStep, he]

/-- Without a reset due, the engine moves if it can, and otherwise the block waits. -/
theorem busyStep_cases {s : State} (he : ∀ rest, s.env ≠ .reset :: rest) :
    (∃ t, microStep s = .next (some t) ∧ busyStep s = .next t) ∨
    (microStep s = .next none ∧ busyStep s = waitingStep s) ∨
    (∃ e, microStep s = .fault e ∧ busyStep s = .fault e) ∨
    (∃ e, microStep s = .refused e ∧ busyStep s = .refused e) := by
  have hb : busyStep s = andThen (microStep s) fun o =>
      match o with
      | some s' => .next s'
      | none => waitingStep s := by
    unfold busyStep
    split
    · exact absurd (by assumption) (he _)
    · rfl
  rw [hb]
  cases microStep s with
  | next o => cases o <;> simp
  | fault e => simp
  | refused e => simp

/-- What reading a host address can give. -/
theorem hostReadValue_cases (addr : Addr) (s : State) :
    (∃ sp, regionSpace (addrRegion addr) = some sp ∧ hostReadValue addr s = readWord sp (addrOffset addr) s) ∨
    (regionSpace (addrRegion addr) = none ∧ ∃ reg, regAtOffset (addrOffset addr) = some reg ∧
      hostReadValue addr s = .next (regValue reg s)) ∨
    (regionSpace (addrRegion addr) = none ∧ regAtOffset (addrOffset addr) = none ∧ hostReadValue addr s = .next 0) := by
  unfold hostReadValue
  cases h1 : regionSpace (addrRegion addr) with
  | some sp => exact .inl ⟨sp, rfl, rfl⟩
  | none =>
    cases h2 : regAtOffset (addrOffset addr) with
    | some reg => exact .inr (.inl ⟨rfl, reg, rfl, rfl⟩)
    | none => exact .inr (.inr ⟨rfl, rfl, rfl⟩)

/-- What one micro-step of a phase of the root search can do. -/
theorem rootStep_cases (k : Nat) (phase : RootPhase) (s t : State) (h : rootStep k phase s = some t) :
    (∃ c, t = completeCommand c s ∧ (c = .invalidRange ∨ c = .rootNotFound)) ∨
    (∃ candidate, t = completeCommand .ok (setPsi candidate s)) ∨
    (∃ ph bs, t = setSeq (.root k ph) (setEntropy bs s)) ∨
    (k < Config.attemptsMax ∧ t = enterAttempt (k + 1) s) := by
  cases phase with
  | draw d =>
    simp only [rootStep] at h
    split_ifs at h
    · exact .inl ⟨_, (Option.some.inj h).symm, .inl rfl⟩
    · exact .inr (.inr (.inl ⟨_, s.entropy, (Option.some.inj h).symm⟩))
    · split at h
      · exact .inr (.inr (.inl ⟨_, _, (Option.some.inj h).symm⟩))
      · exact .inr (.inr (.inl ⟨_, _, (Option.some.inj h).symm⟩))
      · cases h
  | expR x => exact .inr (.inr (.inl ⟨_, s.entropy, (Option.some.inj h).symm⟩))
  | expN x => exact .inr (.inr (.inl ⟨_, s.entropy, (Option.some.inj h).symm⟩))
  | test candidate chk =>
    simp only [rootStep] at h
    split_ifs at h with h1 h2
    · exact .inr (.inl ⟨_, (Option.some.inj h).symm⟩)
    · exact .inr (.inr (.inr ⟨h2, (Option.some.inj h).symm⟩))
    · exact .inl ⟨_, (Option.some.inj h).symm, .inr rfl⟩

end Sys2Proof.Machine
end

