-- ==== Sys2Proof/Laws/HostProgram.lean ====
section
/-! SUPPORT. What the lines of a host program can do. -/

namespace Sys2Proof.Machine

/-- An idle block takes the transaction. -/
theorem issue_idle {s : State} (h : s.seq = .idle) (t : Transaction) : issue t s = hostTransaction t s := by
  simp [issue, h]

/-- To issue a transaction to an idle block is to step with it as the next event. -/
theorem step_host {s : State} (h : s.seq = .idle) (t : Transaction) (rest : List Event) :
    step { s with env := .host t :: rest } = issue t { s with env := rest } := by
  rw [issue_idle (by exact h), step_idle_cons (e := .host t) (rest := rest) (by exact h) rfl]
  rfl

/-- `MOV` writes the word its read returns. -/
theorem expandMov_next {dst src : Addr} {s : State} {v : Word} (h : hostReadValue src s = .next v) :
    expandMov dst src s = [.rd src, .wr dst v] := by
  simp [expandMov, h]

/-- `MOV` whose read stops writes nothing. -/
theorem expandMov_stop {dst src : Addr} {s : State} (h : ∀ v, hostReadValue src s ≠ .next v) :
    expandMov dst src s = [.rd src] := by
  unfold expandMov
  split
  · exact absurd (by assumption) (h _)
  · rfl

/-- `EXPECT` claims that the read returns the value. -/
theorem lineClaim_expect {loc : Loc} {v : Word} {s : State} :
    lineClaim (.expect loc v) s = true ↔ hostReadValue (locAddr loc) s = .next v := by
  cases h : hostReadValue (locAddr loc) s <;> simp [lineClaim, h]

/-- What a host read can do. -/
theorem hostRead_eq_next {addr : Addr} {s t : State} :
    hostRead addr s = .next t ↔
      ∃ v, hostReadValue addr s = .next v ∧ t = { s with returned := s.returned ++ [(addr, v)] } := by
  simp only [hostRead, andThen_eq_next, Host.Outcome.next.injEq, eq_comm (a := t)]

end Sys2Proof.Machine
end

