-- ==== Sys2Proof/Laws/PerInstr.lean ====
section
/-! SUPPORT. A statement about every command, one lemma for each constructor: its fields are well formed, and the word that
carries them has them (30_encoding.md R80, R82, R83). -/

namespace Sys2Proof.Laws.EncodedFields

/-- The command's fields are legal, and its command word carries exactly them. -/
def Statement (i : Instr) : Prop := (fieldsOf i).wellFormed = true ∧ fieldsOfWord (encode i) = fieldsOf i

theorem nop : Statement .nop := by unfold Statement; decide
theorem rndrange : Statement .rndrange := by unfold Statement; decide
theorem findroot : Statement .findroot := by unfold Statement; decide
theorem findrootA : Statement .findrootA := by unfold Statement; decide
theorem twgenF : Statement .twgenF := by unfold Statement; decide
theorem twgenI : Statement .twgenI := by unfold Statement; decide
theorem fntt : Statement .fntt := by unfold Statement; decide
theorem intt : Statement .intt := by unfold Statement; decide
theorem bitrev : Statement .bitrev := by unfold Statement; decide
theorem mulmod : Statement .mulmod := by unfold Statement; decide
theorem modinv : Statement .modinv := by unfold Statement; decide

end Sys2Proof.Laws.EncodedFields
end

