-- ==== Sys2Proof/Laws/State.lean ====
section
/-! SUPPORT. One lemma for each field of State and each named update, true by definition, so that no proof unfolds a record
update. -/

namespace Sys2Proof.Machine

/-! ### setR -/

@[simp] theorem setR_cmd (v : Nat) (s : State) : (setR v s).cmd = s.cmd := rfl
@[simp] theorem setR_status (v : Nat) (s : State) : (setR v s).status = s.status := rfl
@[simp] theorem setR_errcode (v : Nat) (s : State) : (setR v s).errcode = s.errcode := rfl
@[simp] theorem setR_n (v : Nat) (s : State) : (setR v s).n = s.n := rfl
@[simp] theorem setR_q (v : Nat) (s : State) : (setR v s).q = s.q := rfl
@[simp] theorem setR_r (v : Nat) (s : State) : (setR v s).r = toWord v := rfl
@[simp] theorem setR_psi (v : Nat) (s : State) : (setR v s).psi = s.psi := rfl
@[simp] theorem setR_psiInv (v : Nat) (s : State) : (setR v s).psiInv = s.psiInv := rfl
@[simp] theorem setR_nInv (v : Nat) (s : State) : (setR v s).nInv = s.nInv := rfl
@[simp] theorem setR_opa (v : Nat) (s : State) : (setR v s).opa = s.opa := rfl
@[simp] theorem setR_opb (v : Nat) (s : State) : (setR v s).opb = s.opb := rfl
@[simp] theorem setR_res (v : Nat) (s : State) : (setR v s).res = s.res := rfl
@[simp] theorem setR_attempt (v : Nat) (s : State) : (setR v s).attempt = s.attempt := rfl
@[simp] theorem setR_a (v : Nat) (s : State) : (setR v s).a = s.a := rfl
@[simp] theorem setR_tf (v : Nat) (s : State) : (setR v s).tf = s.tf := rfl
@[simp] theorem setR_ti (v : Nat) (s : State) : (setR v s).ti = s.ti := rfl
@[simp] theorem setR_seq (v : Nat) (s : State) : (setR v s).seq = s.seq := rfl
@[simp] theorem setR_entropy (v : Nat) (s : State) : (setR v s).entropy = s.entropy := rfl
@[simp] theorem setR_env (v : Nat) (s : State) : (setR v s).env = s.env := rfl
@[simp] theorem setR_returned (v : Nat) (s : State) : (setR v s).returned = s.returned := rfl

/-! ### setPsi -/

@[simp] theorem setPsi_cmd (v : Nat) (s : State) : (setPsi v s).cmd = s.cmd := rfl
@[simp] theorem setPsi_status (v : Nat) (s : State) : (setPsi v s).status = s.status := rfl
@[simp] theorem setPsi_errcode (v : Nat) (s : State) : (setPsi v s).errcode = s.errcode := rfl
@[simp] theorem setPsi_n (v : Nat) (s : State) : (setPsi v s).n = s.n := rfl
@[simp] theorem setPsi_q (v : Nat) (s : State) : (setPsi v s).q = s.q := rfl
@[simp] theorem setPsi_r (v : Nat) (s : State) : (setPsi v s).r = s.r := rfl
@[simp] theorem setPsi_psi (v : Nat) (s : State) : (setPsi v s).psi = toWord v := rfl
@[simp] theorem setPsi_psiInv (v : Nat) (s : State) : (setPsi v s).psiInv = s.psiInv := rfl
@[simp] theorem setPsi_nInv (v : Nat) (s : State) : (setPsi v s).nInv = s.nInv := rfl
@[simp] theorem setPsi_opa (v : Nat) (s : State) : (setPsi v s).opa = s.opa := rfl
@[simp] theorem setPsi_opb (v : Nat) (s : State) : (setPsi v s).opb = s.opb := rfl
@[simp] theorem setPsi_res (v : Nat) (s : State) : (setPsi v s).res = s.res := rfl
@[simp] theorem setPsi_attempt (v : Nat) (s : State) : (setPsi v s).attempt = s.attempt := rfl
@[simp] theorem setPsi_a (v : Nat) (s : State) : (setPsi v s).a = s.a := rfl
@[simp] theorem setPsi_tf (v : Nat) (s : State) : (setPsi v s).tf = s.tf := rfl
@[simp] theorem setPsi_ti (v : Nat) (s : State) : (setPsi v s).ti = s.ti := rfl
@[simp] theorem setPsi_seq (v : Nat) (s : State) : (setPsi v s).seq = s.seq := rfl
@[simp] theorem setPsi_entropy (v : Nat) (s : State) : (setPsi v s).entropy = s.entropy := rfl
@[simp] theorem setPsi_env (v : Nat) (s : State) : (setPsi v s).env = s.env := rfl
@[simp] theorem setPsi_returned (v : Nat) (s : State) : (setPsi v s).returned = s.returned := rfl

/-! ### setNInv -/

@[simp] theorem setNInv_cmd (v : Nat) (s : State) : (setNInv v s).cmd = s.cmd := rfl
@[simp] theorem setNInv_status (v : Nat) (s : State) : (setNInv v s).status = s.status := rfl
@[simp] theorem setNInv_errcode (v : Nat) (s : State) : (setNInv v s).errcode = s.errcode := rfl
@[simp] theorem setNInv_n (v : Nat) (s : State) : (setNInv v s).n = s.n := rfl
@[simp] theorem setNInv_q (v : Nat) (s : State) : (setNInv v s).q = s.q := rfl
@[simp] theorem setNInv_r (v : Nat) (s : State) : (setNInv v s).r = s.r := rfl
@[simp] theorem setNInv_psi (v : Nat) (s : State) : (setNInv v s).psi = s.psi := rfl
@[simp] theorem setNInv_psiInv (v : Nat) (s : State) : (setNInv v s).psiInv = s.psiInv := rfl
@[simp] theorem setNInv_nInv (v : Nat) (s : State) : (setNInv v s).nInv = toWord v := rfl
@[simp] theorem setNInv_opa (v : Nat) (s : State) : (setNInv v s).opa = s.opa := rfl
@[simp] theorem setNInv_opb (v : Nat) (s : State) : (setNInv v s).opb = s.opb := rfl
@[simp] theorem setNInv_res (v : Nat) (s : State) : (setNInv v s).res = s.res := rfl
@[simp] theorem setNInv_attempt (v : Nat) (s : State) : (setNInv v s).attempt = s.attempt := rfl
@[simp] theorem setNInv_a (v : Nat) (s : State) : (setNInv v s).a = s.a := rfl
@[simp] theorem setNInv_tf (v : Nat) (s : State) : (setNInv v s).tf = s.tf := rfl
@[simp] theorem setNInv_ti (v : Nat) (s : State) : (setNInv v s).ti = s.ti := rfl
@[simp] theorem setNInv_seq (v : Nat) (s : State) : (setNInv v s).seq = s.seq := rfl
@[simp] theorem setNInv_entropy (v : Nat) (s : State) : (setNInv v s).entropy = s.entropy := rfl
@[simp] theorem setNInv_env (v : Nat) (s : State) : (setNInv v s).env = s.env := rfl
@[simp] theorem setNInv_returned (v : Nat) (s : State) : (setNInv v s).returned = s.returned := rfl

/-! ### setRes -/

@[simp] theorem setRes_cmd (v : Nat) (s : State) : (setRes v s).cmd = s.cmd := rfl
@[simp] theorem setRes_status (v : Nat) (s : State) : (setRes v s).status = s.status := rfl
@[simp] theorem setRes_errcode (v : Nat) (s : State) : (setRes v s).errcode = s.errcode := rfl
@[simp] theorem setRes_n (v : Nat) (s : State) : (setRes v s).n = s.n := rfl
@[simp] theorem setRes_q (v : Nat) (s : State) : (setRes v s).q = s.q := rfl
@[simp] theorem setRes_r (v : Nat) (s : State) : (setRes v s).r = s.r := rfl
@[simp] theorem setRes_psi (v : Nat) (s : State) : (setRes v s).psi = s.psi := rfl
@[simp] theorem setRes_psiInv (v : Nat) (s : State) : (setRes v s).psiInv = s.psiInv := rfl
@[simp] theorem setRes_nInv (v : Nat) (s : State) : (setRes v s).nInv = s.nInv := rfl
@[simp] theorem setRes_opa (v : Nat) (s : State) : (setRes v s).opa = s.opa := rfl
@[simp] theorem setRes_opb (v : Nat) (s : State) : (setRes v s).opb = s.opb := rfl
@[simp] theorem setRes_res (v : Nat) (s : State) : (setRes v s).res = toWord v := rfl
@[simp] theorem setRes_attempt (v : Nat) (s : State) : (setRes v s).attempt = s.attempt := rfl
@[simp] theorem setRes_a (v : Nat) (s : State) : (setRes v s).a = s.a := rfl
@[simp] theorem setRes_tf (v : Nat) (s : State) : (setRes v s).tf = s.tf := rfl
@[simp] theorem setRes_ti (v : Nat) (s : State) : (setRes v s).ti = s.ti := rfl
@[simp] theorem setRes_seq (v : Nat) (s : State) : (setRes v s).seq = s.seq := rfl
@[simp] theorem setRes_entropy (v : Nat) (s : State) : (setRes v s).entropy = s.entropy := rfl
@[simp] theorem setRes_env (v : Nat) (s : State) : (setRes v s).env = s.env := rfl
@[simp] theorem setRes_returned (v : Nat) (s : State) : (setRes v s).returned = s.returned := rfl

/-! ### setAttempt -/

@[simp] theorem setAttempt_cmd (v : Nat) (s : State) : (setAttempt v s).cmd = s.cmd := rfl
@[simp] theorem setAttempt_status (v : Nat) (s : State) : (setAttempt v s).status = s.status := rfl
@[simp] theorem setAttempt_errcode (v : Nat) (s : State) : (setAttempt v s).errcode = s.errcode := rfl
@[simp] theorem setAttempt_n (v : Nat) (s : State) : (setAttempt v s).n = s.n := rfl
@[simp] theorem setAttempt_q (v : Nat) (s : State) : (setAttempt v s).q = s.q := rfl
@[simp] theorem setAttempt_r (v : Nat) (s : State) : (setAttempt v s).r = s.r := rfl
@[simp] theorem setAttempt_psi (v : Nat) (s : State) : (setAttempt v s).psi = s.psi := rfl
@[simp] theorem setAttempt_psiInv (v : Nat) (s : State) : (setAttempt v s).psiInv = s.psiInv := rfl
@[simp] theorem setAttempt_nInv (v : Nat) (s : State) : (setAttempt v s).nInv = s.nInv := rfl
@[simp] theorem setAttempt_opa (v : Nat) (s : State) : (setAttempt v s).opa = s.opa := rfl
@[simp] theorem setAttempt_opb (v : Nat) (s : State) : (setAttempt v s).opb = s.opb := rfl
@[simp] theorem setAttempt_res (v : Nat) (s : State) : (setAttempt v s).res = s.res := rfl
@[simp] theorem setAttempt_attempt (v : Nat) (s : State) : (setAttempt v s).attempt = toWord v := rfl
@[simp] theorem setAttempt_a (v : Nat) (s : State) : (setAttempt v s).a = s.a := rfl
@[simp] theorem setAttempt_tf (v : Nat) (s : State) : (setAttempt v s).tf = s.tf := rfl
@[simp] theorem setAttempt_ti (v : Nat) (s : State) : (setAttempt v s).ti = s.ti := rfl
@[simp] theorem setAttempt_seq (v : Nat) (s : State) : (setAttempt v s).seq = s.seq := rfl
@[simp] theorem setAttempt_entropy (v : Nat) (s : State) : (setAttempt v s).entropy = s.entropy := rfl
@[simp] theorem setAttempt_env (v : Nat) (s : State) : (setAttempt v s).env = s.env := rfl
@[simp] theorem setAttempt_returned (v : Nat) (s : State) : (setAttempt v s).returned = s.returned := rfl

/-! ### setEntropy -/

@[simp] theorem setEntropy_cmd (bs : List Byte) (s : State) : (setEntropy bs s).cmd = s.cmd := rfl
@[simp] theorem setEntropy_status (bs : List Byte) (s : State) : (setEntropy bs s).status = s.status := rfl
@[simp] theorem setEntropy_errcode (bs : List Byte) (s : State) : (setEntropy bs s).errcode = s.errcode := rfl
@[simp] theorem setEntropy_n (bs : List Byte) (s : State) : (setEntropy bs s).n = s.n := rfl
@[simp] theorem setEntropy_q (bs : List Byte) (s : State) : (setEntropy bs s).q = s.q := rfl
@[simp] theorem setEntropy_r (bs : List Byte) (s : State) : (setEntropy bs s).r = s.r := rfl
@[simp] theorem setEntropy_psi (bs : List Byte) (s : State) : (setEntropy bs s).psi = s.psi := rfl
@[simp] theorem setEntropy_psiInv (bs : List Byte) (s : State) : (setEntropy bs s).psiInv = s.psiInv := rfl
@[simp] theorem setEntropy_nInv (bs : List Byte) (s : State) : (setEntropy bs s).nInv = s.nInv := rfl
@[simp] theorem setEntropy_opa (bs : List Byte) (s : State) : (setEntropy bs s).opa = s.opa := rfl
@[simp] theorem setEntropy_opb (bs : List Byte) (s : State) : (setEntropy bs s).opb = s.opb := rfl
@[simp] theorem setEntropy_res (bs : List Byte) (s : State) : (setEntropy bs s).res = s.res := rfl
@[simp] theorem setEntropy_attempt (bs : List Byte) (s : State) : (setEntropy bs s).attempt = s.attempt := rfl
@[simp] theorem setEntropy_a (bs : List Byte) (s : State) : (setEntropy bs s).a = s.a := rfl
@[simp] theorem setEntropy_tf (bs : List Byte) (s : State) : (setEntropy bs s).tf = s.tf := rfl
@[simp] theorem setEntropy_ti (bs : List Byte) (s : State) : (setEntropy bs s).ti = s.ti := rfl
@[simp] theorem setEntropy_seq (bs : List Byte) (s : State) : (setEntropy bs s).seq = s.seq := rfl
@[simp] theorem setEntropy_entropy (bs : List Byte) (s : State) : (setEntropy bs s).entropy = bs := rfl
@[simp] theorem setEntropy_env (bs : List Byte) (s : State) : (setEntropy bs s).env = s.env := rfl
@[simp] theorem setEntropy_returned (bs : List Byte) (s : State) : (setEntropy bs s).returned = s.returned := rfl

/-! ### setSeq -/

@[simp] theorem setSeq_cmd (p : Seq) (s : State) : (setSeq p s).cmd = s.cmd := rfl
@[simp] theorem setSeq_status (p : Seq) (s : State) : (setSeq p s).status = s.status := rfl
@[simp] theorem setSeq_errcode (p : Seq) (s : State) : (setSeq p s).errcode = s.errcode := rfl
@[simp] theorem setSeq_n (p : Seq) (s : State) : (setSeq p s).n = s.n := rfl
@[simp] theorem setSeq_q (p : Seq) (s : State) : (setSeq p s).q = s.q := rfl
@[simp] theorem setSeq_r (p : Seq) (s : State) : (setSeq p s).r = s.r := rfl
@[simp] theorem setSeq_psi (p : Seq) (s : State) : (setSeq p s).psi = s.psi := rfl
@[simp] theorem setSeq_psiInv (p : Seq) (s : State) : (setSeq p s).psiInv = s.psiInv := rfl
@[simp] theorem setSeq_nInv (p : Seq) (s : State) : (setSeq p s).nInv = s.nInv := rfl
@[simp] theorem setSeq_opa (p : Seq) (s : State) : (setSeq p s).opa = s.opa := rfl
@[simp] theorem setSeq_opb (p : Seq) (s : State) : (setSeq p s).opb = s.opb := rfl
@[simp] theorem setSeq_res (p : Seq) (s : State) : (setSeq p s).res = s.res := rfl
@[simp] theorem setSeq_attempt (p : Seq) (s : State) : (setSeq p s).attempt = s.attempt := rfl
@[simp] theorem setSeq_a (p : Seq) (s : State) : (setSeq p s).a = s.a := rfl
@[simp] theorem setSeq_tf (p : Seq) (s : State) : (setSeq p s).tf = s.tf := rfl
@[simp] theorem setSeq_ti (p : Seq) (s : State) : (setSeq p s).ti = s.ti := rfl
@[simp] theorem setSeq_seq (p : Seq) (s : State) : (setSeq p s).seq = p := rfl
@[simp] theorem setSeq_entropy (p : Seq) (s : State) : (setSeq p s).entropy = s.entropy := rfl
@[simp] theorem setSeq_env (p : Seq) (s : State) : (setSeq p s).env = s.env := rfl
@[simp] theorem setSeq_returned (p : Seq) (s : State) : (setSeq p s).returned = s.returned := rfl

/-! ### beginCommand -/

@[simp] theorem beginCommand_cmd (s : State) : (beginCommand s).cmd = s.cmd := rfl
@[simp] theorem beginCommand_status (s : State) : (beginCommand s).status = statusAtStart s.status := rfl
@[simp] theorem beginCommand_errcode (s : State) : (beginCommand s).errcode = s.errcode := rfl
@[simp] theorem beginCommand_n (s : State) : (beginCommand s).n = s.n := rfl
@[simp] theorem beginCommand_q (s : State) : (beginCommand s).q = s.q := rfl
@[simp] theorem beginCommand_r (s : State) : (beginCommand s).r = s.r := rfl
@[simp] theorem beginCommand_psi (s : State) : (beginCommand s).psi = s.psi := rfl
@[simp] theorem beginCommand_psiInv (s : State) : (beginCommand s).psiInv = s.psiInv := rfl
@[simp] theorem beginCommand_nInv (s : State) : (beginCommand s).nInv = s.nInv := rfl
@[simp] theorem beginCommand_opa (s : State) : (beginCommand s).opa = s.opa := rfl
@[simp] theorem beginCommand_opb (s : State) : (beginCommand s).opb = s.opb := rfl
@[simp] theorem beginCommand_res (s : State) : (beginCommand s).res = s.res := rfl
@[simp] theorem beginCommand_attempt (s : State) : (beginCommand s).attempt = s.attempt := rfl
@[simp] theorem beginCommand_a (s : State) : (beginCommand s).a = s.a := rfl
@[simp] theorem beginCommand_tf (s : State) : (beginCommand s).tf = s.tf := rfl
@[simp] theorem beginCommand_ti (s : State) : (beginCommand s).ti = s.ti := rfl
@[simp] theorem beginCommand_seq (s : State) : (beginCommand s).seq = s.seq := rfl
@[simp] theorem beginCommand_entropy (s : State) : (beginCommand s).entropy = s.entropy := rfl
@[simp] theorem beginCommand_env (s : State) : (beginCommand s).env = s.env := rfl
@[simp] theorem beginCommand_returned (s : State) : (beginCommand s).returned = s.returned := rfl

/-! ### completeCommand -/

@[simp] theorem completeCommand_cmd (c : ErrCode) (s : State) : (completeCommand c s).cmd = s.cmd := rfl
@[simp] theorem completeCommand_status (c : ErrCode) (s : State) : (completeCommand c s).status = statusAtCompletion c s.status := rfl
@[simp] theorem completeCommand_errcode (c : ErrCode) (s : State) : (completeCommand c s).errcode = errCodeWord c := rfl
@[simp] theorem completeCommand_n (c : ErrCode) (s : State) : (completeCommand c s).n = s.n := rfl
@[simp] theorem completeCommand_q (c : ErrCode) (s : State) : (completeCommand c s).q = s.q := rfl
@[simp] theorem completeCommand_r (c : ErrCode) (s : State) : (completeCommand c s).r = s.r := rfl
@[simp] theorem completeCommand_psi (c : ErrCode) (s : State) : (completeCommand c s).psi = s.psi := rfl
@[simp] theorem completeCommand_psiInv (c : ErrCode) (s : State) : (completeCommand c s).psiInv = s.psiInv := rfl
@[simp] theorem completeCommand_nInv (c : ErrCode) (s : State) : (completeCommand c s).nInv = s.nInv := rfl
@[simp] theorem completeCommand_opa (c : ErrCode) (s : State) : (completeCommand c s).opa = s.opa := rfl
@[simp] theorem completeCommand_opb (c : ErrCode) (s : State) : (completeCommand c s).opb = s.opb := rfl
@[simp] theorem completeCommand_res (c : ErrCode) (s : State) : (completeCommand c s).res = s.res := rfl
@[simp] theorem completeCommand_attempt (c : ErrCode) (s : State) : (completeCommand c s).attempt = s.attempt := rfl
@[simp] theorem completeCommand_a (c : ErrCode) (s : State) : (completeCommand c s).a = s.a := rfl
@[simp] theorem completeCommand_tf (c : ErrCode) (s : State) : (completeCommand c s).tf = s.tf := rfl
@[simp] theorem completeCommand_ti (c : ErrCode) (s : State) : (completeCommand c s).ti = s.ti := rfl
@[simp] theorem completeCommand_seq (c : ErrCode) (s : State) : (completeCommand c s).seq = .idle := rfl
@[simp] theorem completeCommand_entropy (c : ErrCode) (s : State) : (completeCommand c s).entropy = s.entropy := rfl
@[simp] theorem completeCommand_env (c : ErrCode) (s : State) : (completeCommand c s).env = s.env := rfl
@[simp] theorem completeCommand_returned (c : ErrCode) (s : State) : (completeCommand c s).returned = s.returned := rfl

/-! ### acknowledge -/

@[simp] theorem acknowledge_cmd (v : Word) (s : State) : (acknowledge v s).cmd = s.cmd := rfl
@[simp] theorem acknowledge_status (v : Word) (s : State) : (acknowledge v s).status = statusAtWrite v s.status := rfl
@[simp] theorem acknowledge_errcode (v : Word) (s : State) : (acknowledge v s).errcode = s.errcode := rfl
@[simp] theorem acknowledge_n (v : Word) (s : State) : (acknowledge v s).n = s.n := rfl
@[simp] theorem acknowledge_q (v : Word) (s : State) : (acknowledge v s).q = s.q := rfl
@[simp] theorem acknowledge_r (v : Word) (s : State) : (acknowledge v s).r = s.r := rfl
@[simp] theorem acknowledge_psi (v : Word) (s : State) : (acknowledge v s).psi = s.psi := rfl
@[simp] theorem acknowledge_psiInv (v : Word) (s : State) : (acknowledge v s).psiInv = s.psiInv := rfl
@[simp] theorem acknowledge_nInv (v : Word) (s : State) : (acknowledge v s).nInv = s.nInv := rfl
@[simp] theorem acknowledge_opa (v : Word) (s : State) : (acknowledge v s).opa = s.opa := rfl
@[simp] theorem acknowledge_opb (v : Word) (s : State) : (acknowledge v s).opb = s.opb := rfl
@[simp] theorem acknowledge_res (v : Word) (s : State) : (acknowledge v s).res = s.res := rfl
@[simp] theorem acknowledge_attempt (v : Word) (s : State) : (acknowledge v s).attempt = s.attempt := rfl
@[simp] theorem acknowledge_a (v : Word) (s : State) : (acknowledge v s).a = s.a := rfl
@[simp] theorem acknowledge_tf (v : Word) (s : State) : (acknowledge v s).tf = s.tf := rfl
@[simp] theorem acknowledge_ti (v : Word) (s : State) : (acknowledge v s).ti = s.ti := rfl
@[simp] theorem acknowledge_seq (v : Word) (s : State) : (acknowledge v s).seq = s.seq := rfl
@[simp] theorem acknowledge_entropy (v : Word) (s : State) : (acknowledge v s).entropy = s.entropy := rfl
@[simp] theorem acknowledge_env (v : Word) (s : State) : (acknowledge v s).env = s.env := rfl
@[simp] theorem acknowledge_returned (v : Word) (s : State) : (acknowledge v s).returned = s.returned := rfl

/-! ### setSpaceMem -/

@[simp] theorem setSpaceMem_a_cmd (m : Memory) (s : State) : (setSpaceMem .a m s).cmd = s.cmd := rfl
@[simp] theorem setSpaceMem_a_status (m : Memory) (s : State) : (setSpaceMem .a m s).status = s.status := rfl
@[simp] theorem setSpaceMem_a_errcode (m : Memory) (s : State) : (setSpaceMem .a m s).errcode = s.errcode := rfl
@[simp] theorem setSpaceMem_a_n (m : Memory) (s : State) : (setSpaceMem .a m s).n = s.n := rfl
@[simp] theorem setSpaceMem_a_q (m : Memory) (s : State) : (setSpaceMem .a m s).q = s.q := rfl
@[simp] theorem setSpaceMem_a_r (m : Memory) (s : State) : (setSpaceMem .a m s).r = s.r := rfl
@[simp] theorem setSpaceMem_a_psi (m : Memory) (s : State) : (setSpaceMem .a m s).psi = s.psi := rfl
@[simp] theorem setSpaceMem_a_psiInv (m : Memory) (s : State) : (setSpaceMem .a m s).psiInv = s.psiInv := rfl
@[simp] theorem setSpaceMem_a_nInv (m : Memory) (s : State) : (setSpaceMem .a m s).nInv = s.nInv := rfl
@[simp] theorem setSpaceMem_a_opa (m : Memory) (s : State) : (setSpaceMem .a m s).opa = s.opa := rfl
@[simp] theorem setSpaceMem_a_opb (m : Memory) (s : State) : (setSpaceMem .a m s).opb = s.opb := rfl
@[simp] theorem setSpaceMem_a_res (m : Memory) (s : State) : (setSpaceMem .a m s).res = s.res := rfl
@[simp] theorem setSpaceMem_a_attempt (m : Memory) (s : State) : (setSpaceMem .a m s).attempt = s.attempt := rfl
@[simp] theorem setSpaceMem_a_a (m : Memory) (s : State) : (setSpaceMem .a m s).a = m := rfl
@[simp] theorem setSpaceMem_a_tf (m : Memory) (s : State) : (setSpaceMem .a m s).tf = s.tf := rfl
@[simp] theorem setSpaceMem_a_ti (m : Memory) (s : State) : (setSpaceMem .a m s).ti = s.ti := rfl
@[simp] theorem setSpaceMem_a_seq (m : Memory) (s : State) : (setSpaceMem .a m s).seq = s.seq := rfl
@[simp] theorem setSpaceMem_a_entropy (m : Memory) (s : State) : (setSpaceMem .a m s).entropy = s.entropy := rfl
@[simp] theorem setSpaceMem_a_env (m : Memory) (s : State) : (setSpaceMem .a m s).env = s.env := rfl
@[simp] theorem setSpaceMem_a_returned (m : Memory) (s : State) : (setSpaceMem .a m s).returned = s.returned := rfl
@[simp] theorem setSpaceMem_tf_cmd (m : Memory) (s : State) : (setSpaceMem .tf m s).cmd = s.cmd := rfl
@[simp] theorem setSpaceMem_tf_status (m : Memory) (s : State) : (setSpaceMem .tf m s).status = s.status := rfl
@[simp] theorem setSpaceMem_tf_errcode (m : Memory) (s : State) : (setSpaceMem .tf m s).errcode = s.errcode := rfl
@[simp] theorem setSpaceMem_tf_n (m : Memory) (s : State) : (setSpaceMem .tf m s).n = s.n := rfl
@[simp] theorem setSpaceMem_tf_q (m : Memory) (s : State) : (setSpaceMem .tf m s).q = s.q := rfl
@[simp] theorem setSpaceMem_tf_r (m : Memory) (s : State) : (setSpaceMem .tf m s).r = s.r := rfl
@[simp] theorem setSpaceMem_tf_psi (m : Memory) (s : State) : (setSpaceMem .tf m s).psi = s.psi := rfl
@[simp] theorem setSpaceMem_tf_psiInv (m : Memory) (s : State) : (setSpaceMem .tf m s).psiInv = s.psiInv := rfl
@[simp] theorem setSpaceMem_tf_nInv (m : Memory) (s : State) : (setSpaceMem .tf m s).nInv = s.nInv := rfl
@[simp] theorem setSpaceMem_tf_opa (m : Memory) (s : State) : (setSpaceMem .tf m s).opa = s.opa := rfl
@[simp] theorem setSpaceMem_tf_opb (m : Memory) (s : State) : (setSpaceMem .tf m s).opb = s.opb := rfl
@[simp] theorem setSpaceMem_tf_res (m : Memory) (s : State) : (setSpaceMem .tf m s).res = s.res := rfl
@[simp] theorem setSpaceMem_tf_attempt (m : Memory) (s : State) : (setSpaceMem .tf m s).attempt = s.attempt := rfl
@[simp] theorem setSpaceMem_tf_a (m : Memory) (s : State) : (setSpaceMem .tf m s).a = s.a := rfl
@[simp] theorem setSpaceMem_tf_tf (m : Memory) (s : State) : (setSpaceMem .tf m s).tf = m := rfl
@[simp] theorem setSpaceMem_tf_ti (m : Memory) (s : State) : (setSpaceMem .tf m s).ti = s.ti := rfl
@[simp] theorem setSpaceMem_tf_seq (m : Memory) (s : State) : (setSpaceMem .tf m s).seq = s.seq := rfl
@[simp] theorem setSpaceMem_tf_entropy (m : Memory) (s : State) : (setSpaceMem .tf m s).entropy = s.entropy := rfl
@[simp] theorem setSpaceMem_tf_env (m : Memory) (s : State) : (setSpaceMem .tf m s).env = s.env := rfl
@[simp] theorem setSpaceMem_tf_returned (m : Memory) (s : State) : (setSpaceMem .tf m s).returned = s.returned := rfl
@[simp] theorem setSpaceMem_ti_cmd (m : Memory) (s : State) : (setSpaceMem .ti m s).cmd = s.cmd := rfl
@[simp] theorem setSpaceMem_ti_status (m : Memory) (s : State) : (setSpaceMem .ti m s).status = s.status := rfl
@[simp] theorem setSpaceMem_ti_errcode (m : Memory) (s : State) : (setSpaceMem .ti m s).errcode = s.errcode := rfl
@[simp] theorem setSpaceMem_ti_n (m : Memory) (s : State) : (setSpaceMem .ti m s).n = s.n := rfl
@[simp] theorem setSpaceMem_ti_q (m : Memory) (s : State) : (setSpaceMem .ti m s).q = s.q := rfl
@[simp] theorem setSpaceMem_ti_r (m : Memory) (s : State) : (setSpaceMem .ti m s).r = s.r := rfl
@[simp] theorem setSpaceMem_ti_psi (m : Memory) (s : State) : (setSpaceMem .ti m s).psi = s.psi := rfl
@[simp] theorem setSpaceMem_ti_psiInv (m : Memory) (s : State) : (setSpaceMem .ti m s).psiInv = s.psiInv := rfl
@[simp] theorem setSpaceMem_ti_nInv (m : Memory) (s : State) : (setSpaceMem .ti m s).nInv = s.nInv := rfl
@[simp] theorem setSpaceMem_ti_opa (m : Memory) (s : State) : (setSpaceMem .ti m s).opa = s.opa := rfl
@[simp] theorem setSpaceMem_ti_opb (m : Memory) (s : State) : (setSpaceMem .ti m s).opb = s.opb := rfl
@[simp] theorem setSpaceMem_ti_res (m : Memory) (s : State) : (setSpaceMem .ti m s).res = s.res := rfl
@[simp] theorem setSpaceMem_ti_attempt (m : Memory) (s : State) : (setSpaceMem .ti m s).attempt = s.attempt := rfl
@[simp] theorem setSpaceMem_ti_a (m : Memory) (s : State) : (setSpaceMem .ti m s).a = s.a := rfl
@[simp] theorem setSpaceMem_ti_tf (m : Memory) (s : State) : (setSpaceMem .ti m s).tf = s.tf := rfl
@[simp] theorem setSpaceMem_ti_ti (m : Memory) (s : State) : (setSpaceMem .ti m s).ti = m := rfl
@[simp] theorem setSpaceMem_ti_seq (m : Memory) (s : State) : (setSpaceMem .ti m s).seq = s.seq := rfl
@[simp] theorem setSpaceMem_ti_entropy (m : Memory) (s : State) : (setSpaceMem .ti m s).entropy = s.entropy := rfl
@[simp] theorem setSpaceMem_ti_env (m : Memory) (s : State) : (setSpaceMem .ti m s).env = s.env := rfl
@[simp] theorem setSpaceMem_ti_returned (m : Memory) (s : State) : (setSpaceMem .ti m s).returned = s.returned := rfl
@[simp] theorem setSpaceMem_cmd (sp : Space) (m : Memory) (s : State) : (setSpaceMem sp m s).cmd = s.cmd := by cases sp <;> rfl
@[simp] theorem setSpaceMem_status (sp : Space) (m : Memory) (s : State) : (setSpaceMem sp m s).status = s.status := by cases sp <;> rfl
@[simp] theorem setSpaceMem_errcode (sp : Space) (m : Memory) (s : State) : (setSpaceMem sp m s).errcode = s.errcode := by cases sp <;> rfl
@[simp] theorem setSpaceMem_n (sp : Space) (m : Memory) (s : State) : (setSpaceMem sp m s).n = s.n := by cases sp <;> rfl
@[simp] theorem setSpaceMem_q (sp : Space) (m : Memory) (s : State) : (setSpaceMem sp m s).q = s.q := by cases sp <;> rfl
@[simp] theorem setSpaceMem_r (sp : Space) (m : Memory) (s : State) : (setSpaceMem sp m s).r = s.r := by cases sp <;> rfl
@[simp] theorem setSpaceMem_psi (sp : Space) (m : Memory) (s : State) : (setSpaceMem sp m s).psi = s.psi := by cases sp <;> rfl
@[simp] theorem setSpaceMem_psiInv (sp : Space) (m : Memory) (s : State) : (setSpaceMem sp m s).psiInv = s.psiInv := by cases sp <;> rfl
@[simp] theorem setSpaceMem_nInv (sp : Space) (m : Memory) (s : State) : (setSpaceMem sp m s).nInv = s.nInv := by cases sp <;> rfl
@[simp] theorem setSpaceMem_opa (sp : Space) (m : Memory) (s : State) : (setSpaceMem sp m s).opa = s.opa := by cases sp <;> rfl
@[simp] theorem setSpaceMem_opb (sp : Space) (m : Memory) (s : State) : (setSpaceMem sp m s).opb = s.opb := by cases sp <;> rfl
@[simp] theorem setSpaceMem_res (sp : Space) (m : Memory) (s : State) : (setSpaceMem sp m s).res = s.res := by cases sp <;> rfl
@[simp] theorem setSpaceMem_attempt (sp : Space) (m : Memory) (s : State) : (setSpaceMem sp m s).attempt = s.attempt := by cases sp <;> rfl
@[simp] theorem setSpaceMem_seq (sp : Space) (m : Memory) (s : State) : (setSpaceMem sp m s).seq = s.seq := by cases sp <;> rfl
@[simp] theorem setSpaceMem_entropy (sp : Space) (m : Memory) (s : State) : (setSpaceMem sp m s).entropy = s.entropy := by cases sp <;> rfl
@[simp] theorem setSpaceMem_env (sp : Space) (m : Memory) (s : State) : (setSpaceMem sp m s).env = s.env := by cases sp <;> rfl
@[simp] theorem setSpaceMem_returned (sp : Space) (m : Memory) (s : State) : (setSpaceMem sp m s).returned = s.returned := by cases sp <;> rfl

/-! ### deliverEntropy -/

@[simp] theorem deliverEntropy_cmd (bs : List Byte) (s : State) : (deliverEntropy bs s).cmd = s.cmd := rfl
@[simp] theorem deliverEntropy_status (bs : List Byte) (s : State) : (deliverEntropy bs s).status = s.status := rfl
@[simp] theorem deliverEntropy_errcode (bs : List Byte) (s : State) : (deliverEntropy bs s).errcode = s.errcode := rfl
@[simp] theorem deliverEntropy_n (bs : List Byte) (s : State) : (deliverEntropy bs s).n = s.n := rfl
@[simp] theorem deliverEntropy_q (bs : List Byte) (s : State) : (deliverEntropy bs s).q = s.q := rfl
@[simp] theorem deliverEntropy_r (bs : List Byte) (s : State) : (deliverEntropy bs s).r = s.r := rfl
@[simp] theorem deliverEntropy_psi (bs : List Byte) (s : State) : (deliverEntropy bs s).psi = s.psi := rfl
@[simp] theorem deliverEntropy_psiInv (bs : List Byte) (s : State) : (deliverEntropy bs s).psiInv = s.psiInv := rfl
@[simp] theorem deliverEntropy_nInv (bs : List Byte) (s : State) : (deliverEntropy bs s).nInv = s.nInv := rfl
@[simp] theorem deliverEntropy_opa (bs : List Byte) (s : State) : (deliverEntropy bs s).opa = s.opa := rfl
@[simp] theorem deliverEntropy_opb (bs : List Byte) (s : State) : (deliverEntropy bs s).opb = s.opb := rfl
@[simp] theorem deliverEntropy_res (bs : List Byte) (s : State) : (deliverEntropy bs s).res = s.res := rfl
@[simp] theorem deliverEntropy_attempt (bs : List Byte) (s : State) : (deliverEntropy bs s).attempt = s.attempt := rfl
@[simp] theorem deliverEntropy_a (bs : List Byte) (s : State) : (deliverEntropy bs s).a = s.a := rfl
@[simp] theorem deliverEntropy_tf (bs : List Byte) (s : State) : (deliverEntropy bs s).tf = s.tf := rfl
@[simp] theorem deliverEntropy_ti (bs : List Byte) (s : State) : (deliverEntropy bs s).ti = s.ti := rfl
@[simp] theorem deliverEntropy_seq (bs : List Byte) (s : State) : (deliverEntropy bs s).seq = s.seq := rfl
@[simp] theorem deliverEntropy_entropy (bs : List Byte) (s : State) : (deliverEntropy bs s).entropy = s.entropy ++ bs := rfl
@[simp] theorem deliverEntropy_env (bs : List Byte) (s : State) : (deliverEntropy bs s).env = s.env := rfl
@[simp] theorem deliverEntropy_returned (bs : List Byte) (s : State) : (deliverEntropy bs s).returned = s.returned := rfl

/-! ### commandWriteNext -/

@[simp] theorem commandWriteNext_cmd (w : Nat) (s : State) : (commandWriteNext w s).cmd = s.cmd := rfl
@[simp] theorem commandWriteNext_status (w : Nat) (s : State) : (commandWriteNext w s).status = s.status := rfl
@[simp] theorem commandWriteNext_errcode (w : Nat) (s : State) : (commandWriteNext w s).errcode = s.errcode := rfl
@[simp] theorem commandWriteNext_n (w : Nat) (s : State) : (commandWriteNext w s).n = s.n := rfl
@[simp] theorem commandWriteNext_q (w : Nat) (s : State) : (commandWriteNext w s).q = s.q := rfl
@[simp] theorem commandWriteNext_r (w : Nat) (s : State) : (commandWriteNext w s).r = s.r := rfl
@[simp] theorem commandWriteNext_psi (w : Nat) (s : State) : (commandWriteNext w s).psi = s.psi := rfl
@[simp] theorem commandWriteNext_psiInv (w : Nat) (s : State) : (commandWriteNext w s).psiInv = s.psiInv := rfl
@[simp] theorem commandWriteNext_nInv (w : Nat) (s : State) : (commandWriteNext w s).nInv = s.nInv := rfl
@[simp] theorem commandWriteNext_opa (w : Nat) (s : State) : (commandWriteNext w s).opa = s.opa := rfl
@[simp] theorem commandWriteNext_opb (w : Nat) (s : State) : (commandWriteNext w s).opb = s.opb := rfl
@[simp] theorem commandWriteNext_res (w : Nat) (s : State) : (commandWriteNext w s).res = s.res := rfl
@[simp] theorem commandWriteNext_attempt (w : Nat) (s : State) : (commandWriteNext w s).attempt = s.attempt := rfl
@[simp] theorem commandWriteNext_a (w : Nat) (s : State) : (commandWriteNext w s).a = s.a := rfl
@[simp] theorem commandWriteNext_tf (w : Nat) (s : State) : (commandWriteNext w s).tf = s.tf := rfl
@[simp] theorem commandWriteNext_ti (w : Nat) (s : State) : (commandWriteNext w s).ti = s.ti := rfl
@[simp] theorem commandWriteNext_seq (w : Nat) (s : State) : (commandWriteNext w s).seq = .idle := rfl
@[simp] theorem commandWriteNext_entropy (w : Nat) (s : State) : (commandWriteNext w s).entropy = s.entropy := rfl
@[simp] theorem commandWriteNext_env (w : Nat) (s : State) : (commandWriteNext w s).env = .host (.wr (regAddr .cmd) (toWord w)) :: s.env := rfl
@[simp] theorem commandWriteNext_returned (w : Nat) (s : State) : (commandWriteNext w s).returned = s.returned := rfl

end Sys2Proof.Machine
end

