-- ==== Sys2Proof/Tests/Slice0.lean ====
section
/-! SUPPORT. Tests of the model against the numbers of the spec, and for each statement with hypotheses a state that meets
them. Every expected value stands in spec/ (the rule or the table of 95_test_vectors.md named at the test). -/

namespace Sys2Proof.Tests

open Sys2Proof Sys2Proof.Machine

/-! ## Helpers -/

/-- A memory with the words `l` at indices 0, 1, ... -/
def memOf (l : List Nat) : Memory := l.zipIdx.map fun p => (p.2, toWord p.1)

/-- The reset state with parameters and memories. -/
def vecState (n q : Nat) (a tf ti : List Nat) : State :=
  { State.reset with n := toWord n, q := toWord q, a := memOf a, tf := memOf tf, ti := memOf ti }

/-- The reset state with scalar operands and bytes ready at the source. -/
def scalarState (n q r opa opb : Nat) (bytes : List Nat) : State :=
  { State.reset with
    n := toWord n, q := toWord q, r := toWord r, opa := toWord opa, opb := toWord opb
    entropy := bytes.map (BitVec.ofNat 8) }

/-- The reset state with events to come. -/
def eventState (env : List Event) : State := { State.reset with env := env }

/-- A RNDRANGE in `[0, 256]` that waits at its second draw with one byte of two ready, and the events to come. -/
def waitingState (env : List Event) : State :=
  { State.reset with
    cmd := 1, opb := 256, seq := .draw 2, entropy := [0x34#8], env := env
    status := { busy := true, done := false, err := false, errs := true } }

/-- A FINDROOT with `N = 8`, `Q = 17`, `R = 1` that waits at the first draw of attempt `k`, and the events to come. -/
def searchState (k : Nat) (env : List Event) : State :=
  { scalarState 8 17 1 0 0 [] with
    cmd := 2, attempt := toWord k, seq := .root k (.draw 1), env := env
    status := { busy := true, done := false, err := false, errs := false } }

/-- What a test looks at in an outcome that is a next state. -/
def view {α : Type} (o : Result State) (f : State → α) : Option α :=
  match o with
  | .next s => some (f s)
  | _ => none

/-- The refusal an outcome is, if it is one. -/
def refusal (o : Result State) : Option Refusal :=
  match o with
  | .refused f => some f
  | _ => none

/-- The numbers a memory holds in its first words. -/
def words (m : Memory) (n : Nat) : List (Option Nat) := (List.range n).map fun i => (memRead m i).map BitVec.toNat

/-- Written words as `words` shows them. -/
def shown (l : List Nat) : List (Option Nat) := l.map some

/-! ## Well-formedness: each check refuses an ill-formed term -/

theorem test_rsv0_refused : ({ op := 4, sel := false, auto := false, rsv0 := 1, rsv1 := 0 } : CommandFields).wellFormed = false := by decide
theorem test_rsv1_refused : ({ op := 4, sel := false, auto := false, rsv0 := 0, rsv1 := 1 } : CommandFields).wellFormed = false := by decide
theorem test_op_refused : ({ op := 9, sel := false, auto := false, rsv0 := 0, rsv1 := 0 } : CommandFields).wellFormed = false := by decide
theorem test_sel_refused : ({ op := 4, sel := true, auto := false, rsv0 := 0, rsv1 := 0 } : CommandFields).wellFormed = false := by decide
theorem test_auto_refused : ({ op := 3, sel := true, auto := true, rsv0 := 0, rsv1 := 0 } : CommandFields).wellFormed = false := by decide
theorem test_loc_refused : (Loc.word .a 1024).wellFormed = false := by decide
theorem test_line_refused : (AsmLine.rdvec .tf 1025).wellFormed = false ∧
    (AsmLine.mov (.reg .n) (.word .ti 5000)).wellFormed = false := by decide
theorem test_instr_wellFormed : ∀ i : Instr, i.wellFormed = true := by intro i; cases i <;> rfl

/-! ## Decoding: the word of every command, from the fields of 30_encoding.md R80 and R82 (RSV1, RSV0, AUTO, SEL, OP) -/

theorem test_word_nop : decode 0b0000000000000000_0000000000_0_0_0000#32 = .legal .nop := by decide
theorem test_word_rndrange : decode 0b0000000000000000_0000000000_0_0_0001#32 = .legal .rndrange := by decide
theorem test_word_findroot : decode 0b0000000000000000_0000000000_0_0_0010#32 = .legal .findroot := by decide
theorem test_word_findrootA : decode 0b0000000000000000_0000000000_1_0_0010#32 = .legal .findrootA := by decide
theorem test_word_twgenF : decode 0b0000000000000000_0000000000_0_0_0011#32 = .legal .twgenF := by decide
theorem test_word_twgenI : decode 0b0000000000000000_0000000000_0_1_0011#32 = .legal .twgenI := by decide
theorem test_word_fntt : decode 0b0000000000000000_0000000000_0_0_0100#32 = .legal .fntt := by decide
theorem test_word_intt : decode 0b0000000000000000_0000000000_0_0_0101#32 = .legal .intt := by decide
theorem test_word_bitrev : decode 0b0000000000000000_0000000000_0_0_0110#32 = .legal .bitrev := by decide
theorem test_word_mulmod : decode 0b0000000000000000_0000000000_0_0_0111#32 = .legal .mulmod := by decide
theorem test_word_modinv : decode 0b0000000000000000_0000000000_0_0_1000#32 = .legal .modinv := by decide

/-- The illegal words of V-SYS. -/
theorem test_words_illegal :
    [0x9, 0xF, 0x14, 0x12, 0x32, 0x24, 0x23, 0x33, 0x20, 0x40, 0x8004, 0x10004, 0x80000000].all
      (fun w => decodeTableWord 32 w == none) = true := by decide

theorem test_table_word : decodeTableWord 32 0x22 = some .findrootA ∧ decodeTableWord 32 0x13 = some .twgenI := by decide

/-- The next step runs the word put where the step fetches (R82: 0x0000 is NOP; R180: DONE). -/
theorem test_fetch_word : view (step (State.reset.withFetchWord 32 0x0000)) (fun s => (s.cmd, s.status.done, s.errcode)) =
    some (0, true, 0) := by decide

/-! ## One step of each command, on the vectors of 95_test_vectors.md -/

/-- R180's example: after a failed command, `STATUS = 0b1110`; NOP gives `0b1010`. -/
theorem test_nop_keeps_sticky :
    view (exec .nop { State.reset with errcode := 2, status := ⟨false, true, true, true⟩ })
      (fun s => (statusWord s.status, s.errcode)) = some (0b1010, 0) := by decide

/-- V-ARITH rows 1 and 3: the product must not be truncated. -/
theorem test_mulmod : view (exec .mulmod (scalarState 0 17 0 13 15 [])) (fun s => s.res) = some 8 ∧
    view (exec .mulmod (scalarState 0 12289 0 0xFFFFFFFF 0xFFFFFFFF [])) (fun s => s.res) = some 8339 := by decide

/-- V-ARITH: inverses, an operand above `Q`, no inverse. -/
theorem test_modinv : view (exec .modinv (scalarState 0 17 0 20 0 [])) (fun s => s.res) = some 6 ∧
    view (exec .modinv (scalarState 0 12289 0 1024 0 [])) (fun s => s.res) = some 12277 ∧
    view (exec .modinv (scalarState 0 16 0 8 0 [])) (fun s => (s.res, s.errcode, statusWord s.status)) =
      some (0, 4, 0b1110) := by decide

/-- V-RAND: little-endian draws, a rejected draw, the bytes used. -/
theorem test_rndrange :
    view (exec .rndrange (scalarState 0 0 0 0 256 [0xFF, 0x01, 0x34, 0xFE])) (fun s => (s.res, s.entropy)) = some (52, []) ∧
    view (exec .rndrange (scalarState 0 0 0 0 65536 [0, 0, 1])) (fun s => s.res) = some 65536 := by decide

/-- V-RAND, last row: three rejections, then the source is silent: no DONE, no ERRCODE. -/
theorem test_rndrange_hangs :
    view (exec .rndrange (scalarState 0 0 0 2 16 [0xFF, 0x1F, 0x2F])) (fun s => (s.seq, statusWord s.status)) =
      some (.draw 4, 1) := by decide

/-- V-ROOT row 2: two rejected candidates, then 3. -/
theorem test_findrootA :
    view (exec .findrootA (scalarState 8 17 0 0 0 [0x02, 0x00, 0x01])) (fun s => (s.r, s.psi, s.attempt, s.errcode)) =
      some (1, 3, 3, 0) := by decide

/-- V-ROOT: the host's `R` on a composite `Q`; `Q = 2` has no range. -/
theorem test_findroot :
    view (exec .findroot (scalarState 2 25 1 0 0 [5])) (fun s => (s.r, s.psi, s.attempt)) = some (1, 7, 1) ∧
    view (exec .findroot (scalarState 8 2 0 0 0 [])) (fun s => (s.attempt, s.errcode)) = some (1, 1) := by decide

/-- V-TW row 1, forward. -/
theorem test_twgenF :
    view (exec .twgenF { vecState 8 17 [] [] [] with psi := 3 }) (fun s => (words s.tf 9, s.ti)) =
      some (shown [1, 13, 9, 15, 3, 5, 10, 11] ++ [none], []) := by decide

/-- V-TW row 2, inverse. -/
theorem test_twgenI :
    view (exec .twgenI { vecState 8 17 [] [] [] with psi := 3, psiInv := 6 }) (fun s => (words s.ti 8, s.tf)) =
      some (shown [1, 4, 2, 8, 6, 7, 12, 14], []) := by decide

/-- V-FNTT: the unit vector gives the odd powers in bit-reversed order; inputs above `Q` are reduced. -/
theorem test_fntt :
    view (exec .fntt (vecState 8 17 [0, 1, 0, 0, 0, 0, 0, 0] [1, 13, 9, 15, 3, 5, 10, 11] [])) (fun s => words s.a 8) =
      some (shown [3, 14, 5, 12, 10, 7, 11, 6]) ∧
    view (exec .fntt (vecState 4 17 [18, 19, 20, 21] [1, 4, 2, 8] [])) (fun s => words s.a 4) =
      some (shown [15, 11, 13, 16]) := by decide

/-- V-FNTT: `n = 1` leaves the word as it is; P5's sixth program is refused. -/
theorem test_fntt_edges :
    view (exec .fntt (vecState 1 17 [20] [] [])) (fun s => words s.a 1) = some (shown [20]) ∧
    refusal (exec .fntt (vecState 4 17 [1, 2, 3, 4] [] [])) = some (.unwrittenWord .tf 1) := by decide

/-- V-INTT rows 2 and 4, and `n = 1`. -/
theorem test_intt :
    view (exec .intt (vecState 8 97 [9, 38, 35, 11, 28, 62, 90, 10] [] [1, 75, 47, 33, 85, 70, 18, 89]))
      (fun s => (s.nInv, words s.a 8)) = some (85, shown [96, 0, 1, 50, 0, 1, 6, 5]) ∧
    view (exec .intt (vecState 1 17 [20] [] [])) (fun s => (s.nInv, words s.a 1)) = some (1, shown [3]) := by decide

/-- V-BITREV row 1, with `Q = 0`. -/
theorem test_bitrev :
    view (exec .bitrev (vecState 8 0 [10, 11, 12, 13, 14, 15, 16, 17] [] [])) (fun s => words s.a 8) =
      some (shown [10, 14, 12, 16, 11, 15, 13, 17]) ∧
    view (exec .bitrev (vecState 6 17 [] [] [])) (fun s => s.errcode) = some 3 := by decide

/-! ## The host port, events, the wait -/

/-- P3: CAPS reads 0xA20; a reserved offset reads 0. -/
theorem test_read_caps :
    view (step (eventState [.host (.rd 0x003#12)])) (fun s => s.returned) = some [(0x003#12, 0x00000A20#32)] ∧
    view (step (eventState [.host (.rd 0x00E#12)])) (fun s => s.returned) = some [(0x00E#12, 0#32)] := by decide

/-- R63: `A[3]` is at 0x403; a write to TF is ignored. -/
theorem test_write_memory :
    view (step (eventState [.host (.wr 0x403#12 7#32)])) (fun s => s.a) = some [(3, 7)] ∧
    view (step (eventState [.host (.wr 0x803#12 7#32)])) (fun s => s.tf) = some [] := by decide

/-- R44, U1: a read of a word nothing has written is refused. -/
theorem test_read_unwritten : refusal (step (eventState [.host (.rd 0xC01#12)])) = some (.unwrittenWord .ti 1) := by decide

/-- P3: CLRERR clears ERRS only. -/
theorem test_clrerr :
    view (step { eventState [.host (.wr 0x001#12 8#32)] with errcode := 1, status := ⟨false, true, true, true⟩ })
      (fun s => (statusWord s.status, s.errcode)) = some (0b0110, 1) := by decide

/-- R91: the pseudo-instruction LDVEC. -/
theorem test_ldvec : expandLine (.ldvec [5, 6]) State.reset = [.wr 0x400#12 5, .wr 0x401#12 6] := by decide

/-- R91, P1: `MOV OPA, PSI` copies the word the read returns. -/
theorem test_mov :
    view (runLine (.mov (.reg .opa) (.reg .psi)) { State.reset with psi := 2 }) (fun s => (s.opa, s.returned)) =
      some (2, [(0x007#12, 2)]) ∧
    expandLine (.mov (.reg .opa) (.word .a 0)) State.reset = [.rd 0x400#12] := by decide

/-- R91: the claim of `EXPECT`, on a right value, a wrong value and an unwritten word. -/
theorem test_expect :
    programClaims [.setup 4 17, .expect (.reg .q) 17, .expect (.reg .caps) 0xA20] State.reset = true ∧
    programClaims [.setup 4 17, .expect (.reg .q) 4] State.reset = false ∧
    lineClaim (.expect (.word .a 0) 0) State.reset = false := by decide

/-- R230: while a draw waits the host reads STATUS, and nothing else. -/
theorem test_busy_access :
    view (step (waitingState [.host (.rd 0x001#12)])) (fun s => s.returned) = some [(0x001#12, 0b1001#32)] ∧
    refusal (step (waitingState [.host (.rd 0x002#12)])) = some .accessWhileBusy := by decide

/-- V-RAND row 4, its second draw delivered byte by byte: 0xFE34 masked is 52. -/
theorem test_wait_completes :
    view (step { waitingState [] with entropy := [0x34#8, 0xFE#8] }) (fun s => (s.res, s.entropy, s.seq, statusWord s.status)) =
      some (52, [], .idle, 0b1010) := by decide

/-- R139: a root search that waited goes on by its phases. -/
theorem test_root_phases :
    view (microRun 4 { scalarState 8 17 1 0 0 [0x21] with seq := .root 1 (.draw 2), attempt := 1 })
      (fun s => (s.psi, s.attempt, s.errcode, s.seq)) = some (3, 1, 0, .idle) := by decide

/-- R137, V-ROOT row 2 cut short: 4 fails, 0xFF is rejected, the source is silent in attempt 2. -/
theorem test_findroot_starved :
    view (exec .findroot (scalarState 8 17 1 0 0 [0x02, 0xFF])) (fun s => (s.seq, s.attempt, statusWord s.status, s.entropy)) =
      some (.root 2 (.draw 2), 2, 1, []) := by decide

/-- R220: a reset ends the command that waits, without DONE. -/
theorem test_reset_while_waiting :
    view (step (waitingState [.reset])) (fun s => (s.seq, statusWord s.status, s.cmd, s.entropy)) =
      some (.idle, 0, 0, [0x34#8]) := by decide

/-- R159, R169: the stage references used in the statements give the traces of the spec. -/
theorem test_stage_references :
    (List.range 4).map (fnttWords 4 17 (wordAt (memOf [1, 4, 2, 8])) (wordAt (memOf [1, 2, 3, 4])) 1) = [13, 1, 6, 3] ∧
    (List.range 4).map (inttWords 4 17 (wordAt (memOf [1, 13, 9, 15])) (wordAt (memOf [15, 11, 13, 16])) 1) =
      [9, 2, 12, 6] := by decide

/-- V-CONV row 1: the reference convolution. -/
theorem test_negacyclic :
    (List.range 4).map (negacyclic 4 17 (wordAt (memOf [1, 2, 3, 4])) (wordAt (memOf [5, 6, 7, 8]))) = [12, 15, 2, 9] := by
  decide

/-! ## Witnesses: for each statement with hypotheses, a state and operands that meet them -/

theorem witness_ResetEventGivesTheResetState :
    (waitingState [.reset]).env = .reset :: [] ∧ (eventState [.reset]).env = .reset :: [] := by decide

theorem witness_StepRunsTheDecodedCommand :
    (eventState [.host (.wr 0x000#12 0x22)]).seq = .idle ∧
    (eventState [.host (.wr 0x000#12 0x22)]).env = .host (.wr 0x000#12 0x22) :: [] ∧
    decode 0x22 = .legal .findrootA := by decide

theorem witness_IllegalWordEndsWithIllegalCmd :
    (eventState [.host (.wr 0x000#12 9)]).seq = .idle ∧
    (eventState [.host (.wr 0x000#12 9)]).env = .host (.wr 0x000#12 9) :: [] ∧
    decode 9 = .illegal .reservedOp := by decide

theorem witness_ConfigIsCheckedFirst :
    badConfig .fntt (vecState 3 17 [] [] []) = true ∧ badConfig .mulmod (vecState 0 17 [] [] []) = false ∧
    view (exec .mulmod (vecState 0 17 [] [] [])) (fun t => t.seq) = some .idle := by decide

theorem witness_CommandsEndWithTheirListedCodes :
    view (exec .modinv (vecState 0 17 [] [] [])) (fun t => t.seq) = some .idle := by decide

theorem witness_FailedCommandsArePrecise :
    view (exec .findrootA (scalarState 8 2 0 0 0 [])) (fun t => (t.seq, t.errcode != 0)) = some (.idle, true) ∧
    view (exec .modinv (vecState 0 17 [] [] [])) (fun t => (t.seq, t.errcode != 0)) = some (.idle, true) := by decide

theorem witness_CommandsIgnoreTheFlags :
    view (exec .mulmod (vecState 0 17 [] [] [])) (fun t => t.seq) = some .idle ∧
    view (exec .rndrange (scalarState 0 0 0 2 16 [])) (fun t => t.seq) = some (.draw 1) ∧
    refusal (exec .bitrev (vecState 2 17 [1] [] [])) = some (.unwrittenWord .a 1) := by decide

theorem witness_CommandsWriteOnlyTheirState :
    view (exec .fntt (vecState 2 5 [3, 4, 9] [1, 2] [])) (fun t => words t.a 3) = some (shown [1, 0, 9]) ∧
    view (exec .findroot (scalarState 4 17 2 0 0 [4])) (fun t => t.psi) = some 2 := by decide

theorem witness_WrittenWordsAreResidues :
    view (exec .fntt (vecState 2 5 [8, 9] [1, 2] [])) (fun t => words t.a 2) = some (shown [1, 0]) ∧
    view (exec .intt (vecState 2 5 [1, 0] [] [1, 3])) (fun t => words t.a 2) = some (shown [3, 4]) ∧
    view (exec .twgenF { vecState 2 5 [] [] [] with psi := 2 }) (fun t => words t.tf 2) = some (shown [1, 2]) ∧
    view (exec .twgenI { vecState 2 5 [] [] [] with psiInv := 3 }) (fun t => words t.ti 2) = some (shown [1, 3]) := by
  decide

/-- Any address is met; the range clauses at their boundaries. -/
theorem witness_HostReadReturnsTheAddressedWord (addr : Addr) :
    (eventState [.host (.rd addr)]).seq = .idle ∧ (eventState [.host (.rd addr)]).env = .host (.rd addr) :: [] := ⟨rfl, rfl⟩

theorem witness_address_ranges :
    [0x00E#12, 0x3FF#12].all (fun x => decide (0x00E ≤ x.toNat ∧ x.toNat < 0x400)) = true ∧
    [0x400#12, 0x7FF#12].all (fun x => decide (0x400 ≤ x.toNat ∧ x.toNat < 0x800)) = true ∧
    [0x800#12, 0xBFF#12].all (fun x => decide (0x800 ≤ x.toNat ∧ x.toNat < 0xC00)) = true ∧
    [0xC00#12, 0xFFF#12].all (fun x => decide (0xC00 ≤ x.toNat)) = true := by decide

theorem witness_HostWriteDoesExactlyOneThing (addr : Addr) (v : Word) :
    (eventState [.host (.wr addr v)]).seq = .idle ∧ (eventState [.host (.wr addr v)]).env = .host (.wr addr v) :: [] :=
  ⟨rfl, rfl⟩

theorem witness_write_clauses : (0x8#32).getLsbD 3 = true ∧ (0x7#32).getLsbD 3 = false := by decide

theorem witness_AssemblerAddressesNameTheirLocations :
    (Loc.word .a 0).wellFormed = true ∧ (Loc.word .ti 1023).wellFormed = true ∧ State.reset.seq = .idle ∧
    hostReadValue (locAddr (.reg .psi)) State.reset = .next 0 := ⟨by decide, by decide, rfl, rfl⟩

theorem witness_CapsIsAConstant (v : Word) :
    (eventState [.host (.wr 0x003#12 v)]).seq = .idle ∧
    (eventState [.host (.wr 0x003#12 v)]).env = .host (.wr 0x003#12 v) :: [] := ⟨rfl, rfl⟩

theorem witness_CmdHoldsTheLastWordWritten :
    view (step (eventState [.host (.wr 0x000#12 0x8004)])) (fun t => t.cmd) = some 0x8004 ∧
    view (step (eventState [.entropy [1]])) (fun t => t.cmd) = some 0 ∧
    view (step (waitingState [.host (.rd 0x001#12)])) (fun t => (t.cmd, t.env)) = some (1, []) ∧
    view (step (eventState [])) (fun t => t.cmd) = some 0 ∧
    view (step (eventState [.host (.rd 0x000#12)])) (fun t => t.returned) = some [(0x000#12, 0)] := by decide

theorem witness_SubModIsTheLeastResidue : (0 : Nat) < 17 ∧ 3 % 17 < 5 % 17 := by decide

theorem witness_ModExpIsThePowerResidue : (0 : Nat) < 1 := by decide

theorem witness_ModInvIsTheUniqueInverse :
    Nat.gcd (3 % 17) 17 = 1 ∧ Nat.gcd (0 % 1) 1 = 1 ∧ Nat.gcd (34 % 17) 17 ≠ 1 := by decide

theorem witness_MulmodWritesTheProductResidue :
    (vecState 0 0 [] [] []).q.toNat = 0 ∧ (vecState 0 1 [] [] []).q.toNat ≠ 0 := by decide

theorem witness_ModinvWritesTheInverse :
    (scalarState 0 0 0 3 0 []).q.toNat = 0 ∧ Nat.gcd (34 % 17) 17 ≠ 1 ∧ (scalarState 0 17 0 34 0 []).q.toNat ≠ 0 ∧
    Nat.gcd ((scalarState 0 17 0 3 0 []).opa.toNat % (scalarState 0 17 0 3 0 []).q.toNat)
      (scalarState 0 17 0 3 0 []).q.toNat = 1 := by decide

theorem witness_MaskCoversTheSpan : (0 : Nat) < 255 ∧ 8 * drawBytes 255 ≤ 2 ^ 3 := by decide

/-- R123's example: 0xFF is rejected, 0x21 gives 3. -/
theorem witness_oneDraw : oneDraw 2 16 [0xFF#8, 0x21#8] 3 :=
  .inr ⟨by decide, [[0xFF#8]], [0x21#8], rfl, by unfold rejectedDraws; decide, by decide, by decide, by decide⟩

theorem witness_RndrangeWritesTheDraw :
    oneDraw (scalarState 0 0 0 2 16 [0xFF, 0x21]).opa.toNat (scalarState 0 0 0 2 16 [0xFF, 0x21]).opb.toNat
      [0xFF#8, 0x21#8] 3 ∧
    (scalarState 0 0 0 2 16 [0xFF, 0x21]).entropy = [0xFF#8, 0x21#8] ++ [] := ⟨witness_oneDraw, rfl⟩

theorem witness_RndrangeWritesTheDraw_degenerate :
    oneDraw (scalarState 0 0 0 10 10 []).opa.toNat (scalarState 0 0 0 10 10 []).opb.toNat [] 10 ∧
    (scalarState 0 0 0 10 10 []).entropy = [] ++ [] := ⟨.inl ⟨rfl, rfl, rfl⟩, rfl⟩

theorem witness_RndrangeStaysInRange :
    view (exec .rndrange (scalarState 0 0 0 2 16 [0xFF, 0x21])) (fun t => (t.seq, t.res)) = some (.idle, 3) ∧
    (2 : Nat) ≤ 16 := by decide

/-- The empty source starves attempt 1 of a FINDROOT; a rejected draw after a failed attempt starves attempt 2. -/
theorem witness_CommandsHangWithoutAnAcceptedDraw_search :
    configured (scalarState 8 17 1 0 0 [2, 0xFF]) ∧ failedAttempts 8 17 1 [([2#8], 4)] ∧
    rejectedDraws 14 [[0xFF#8]] ∧ ([] : List Byte).length < drawLength 14 ∧
    (scalarState 8 17 1 0 0 [2, 0xFF]).entropy =
      (([([2#8], 4)] : List (List Byte × Nat)).map Prod.fst).flatten ++ List.flatten [[0xFF#8]] ++ [] ∧
    (scalarState 8 17 1 0 0 [2, 0xFF]).r.toNat = 1 ∧ (17 - 1) / (2 * 8) = 1 ∧
    (scalarState 8 17 1 0 0 [2, 0xFF]).env = [] := by
  refine ⟨by decide, ?_, by unfold rejectedDraws; decide, by decide, by decide, by decide, by decide, rfl⟩
  intro p hp
  simp only [List.mem_cons, List.not_mem_nil, or_false] at hp
  subst hp
  exact ⟨.inr ⟨by decide, [], [2#8], rfl, by unfold rejectedDraws; decide, by decide, by decide, by decide⟩,
    by unfold acceptsDraw; decide⟩

theorem witness_CommandsHangWithoutAnAcceptedDraw :
    (scalarState 0 0 0 0 256 [0xFF, 0x01, 0x34]).opa.toNat < (scalarState 0 0 0 0 256 [0xFF, 0x01, 0x34]).opb.toNat ∧
    rejectedDraws 256 [[0xFF#8, 0x01#8]] ∧ ([0x34#8] : List Byte).length < drawLength 256 ∧
    (scalarState 0 0 0 0 256 [0xFF, 0x01, 0x34]).entropy = List.flatten [[0xFF#8, 0x01#8]] ++ [0x34#8] ∧
    (scalarState 0 0 0 0 256 [0xFF, 0x01, 0x34]).env = [] := by unfold rejectedDraws; decide

theorem witness_InvalidRangeIsReported :
    (scalarState 0 0 0 5 3 []).opb.toNat < (scalarState 0 0 0 5 3 []).opa.toNat ∧
    (scalarState 8 1 0 0 0 []).q.toNat = 1 ∧ (scalarState 8 2 0 0 0 []).q.toNat = 2 ∧
    nValid (scalarState 8 2 0 0 0 []).n.toNat = true := by decide

/-- V-ROOT row 2 with `r = 1`: 4 and 2 fail, 3 is accepted. -/
theorem witness_FindrootReturnsTheFirstAcceptedCandidate :
    configured (scalarState 8 17 1 0 0 [2, 0, 1]) ∧
    failedAttempts 8 17 1 [([2#8], 4), ([0#8], 2)] ∧ oneDraw 2 (17 - 1) [1#8] 3 ∧ acceptsDraw 8 17 1 3 ∧
    (scalarState 8 17 1 0 0 [2, 0, 1]).entropy =
      (([([2#8], 4), ([0#8], 2)] : List (List Byte × Nat)).map Prod.fst).flatten ++ [1#8] ++ [] ∧
    (scalarState 8 17 1 0 0 [2, 0, 1]).r.toNat = 1 ∧ (17 - 1) / (2 * 8) = 1 := by
  refine ⟨by decide, ?_, ?_, by unfold acceptsDraw; decide, by decide, by decide, by decide⟩
  · intro p hp
    simp only [List.mem_cons, List.not_mem_nil, or_false] at hp
    rcases hp with rfl | rfl
    · exact ⟨.inr ⟨by decide, [], [2#8], rfl, by unfold rejectedDraws; decide, by decide, by decide, by decide⟩,
        by unfold acceptsDraw; decide⟩
    · exact ⟨.inr ⟨by decide, [], [0#8], rfl, by unfold rejectedDraws; decide, by decide, by decide, by decide⟩,
        by unfold acceptsDraw; decide⟩
  · exact .inr ⟨by decide, [], [1#8], rfl, by unfold rejectedDraws; decide, by decide, by decide, by decide⟩

/-- V-ROOT: `N = 8`, `Q = 13`, fifty bytes 0; `r = 0`, every candidate is 1. -/
theorem witness_FindrootFailsAfterFiftyAttempts :
    configured (scalarState 8 13 0 0 0 (List.replicate 50 0)) ∧
    (List.replicate 50 ([0#8], 2) : List (List Byte × Nat)).length = 50 ∧
    failedAttempts 8 13 0 (List.replicate 50 ([0#8], 2)) ∧
    (scalarState 8 13 0 0 0 (List.replicate 50 0)).entropy =
      ((List.replicate 50 ([0#8], 2) : List (List Byte × Nat)).map Prod.fst).flatten ++ [] ∧
    (scalarState 8 13 0 0 0 (List.replicate 50 0)).r.toNat = 0 ∧ (13 - 1) / (2 * 8) = 0 := by
  refine ⟨by decide, by decide, ?_, by decide, by decide, by decide⟩
  intro p hp
  obtain rfl := List.eq_of_mem_replicate hp
  exact ⟨.inr ⟨by decide, [], [0#8], rfl, by unfold rejectedDraws; decide, by decide, by decide, by decide⟩,
    by unfold acceptsDraw; decide⟩

theorem witness_FoundRootsSatisfyTheRootLaw :
    view (exec .findroot (scalarState 4 17 2 0 0 [4])) (fun t => (t.seq, t.errcode, t.q.toNat)) = some (.idle, 0, 17) ∧
    view (exec .findrootA (scalarState 4 17 0 0 0 [4])) (fun t => (t.seq, t.errcode, t.q.toNat)) = some (.idle, 0, 17) ∧
    view (step { searchState 2 [] with seq := .root 2 (.test 3 16) }) (fun t => (t.seq, t.errcode, t.psi)) =
      some (.idle, 0, 3) := by
  decide

theorem witness_SmallModuliOfTheRootSearch :
    nValid (scalarState 1 3 1 0 0 []).n.toNat = true ∧ (scalarState 1 3 1 0 0 []).q.toNat = 3 ∧
    acceptsDraw 1 3 1 2 ∧ ¬ acceptsDraw 2 3 1 2 ∧ nValid 2 = true ∧
    (scalarState 1 1 1 0 0 []).q.toNat = 1 ∧ (scalarState 1 2 1 0 0 []).q.toNat = 2 ∧
    (scalarState 1 0 1 0 0 []).q.toNat = 0 ∧ (scalarState 1 3 1 0 0 []).r.toNat = 1 := by
  unfold acceptsDraw; decide

theorem witness_TwgenBuildsTheBitReversedPowers :
    (vecState 8 17 [] [] []).n.toNat = 2 ^ 3 ∧ (vecState 8 17 [] [] []).q.toNat ≠ 0 ∧
    (vecState 1024 17 [] [] []).n.toNat = 2 ^ 10 ∧ (vecState 1 1 [] [] []).n.toNat = 2 ^ 0 := by decide

theorem witness_StageTwiddlesAreOddPowers :
    (vecState 2 5 [] [] []).n.toNat = 2 ^ 1 ∧ (0 : Nat) < 2 ^ 0 ∧
    view (exec .twgenF { vecState 2 5 [] [] [] with psi := 2 }) (fun t => words t.tf 2) = some (shown [1, 2]) ∧
    view (exec .twgenI { vecState 2 5 [] [] [] with psiInv := 3 }) (fun t => words t.ti 2) = some (shown [1, 3]) := by
  decide

/-- The parameters `n = 4`, `q = 17`, `ψ = 2` of P1 are matched. -/
theorem witness_matched : Matched (2 ^ 2) 17 2 :=
  ⟨by decide, by norm_num, by decide, by decide, by decide⟩

/-- The smallest matched parameters, `n = 1`, `q = 3`, `ψ = 2`. -/
theorem witness_matched_one : Matched (2 ^ 0) 3 2 :=
  ⟨by decide, by norm_num, by decide, by decide, by decide⟩

/-- P1's state with tables and a vector loaded. -/
def p1State (a : List Nat) : State :=
  { vecState 4 17 a [1, 4, 2, 8] [1, 13, 9, 15] with psi := 2, psiInv := 9 }

theorem witness_TablesOfInverseRootsAreInverse :
    Matched (2 ^ 2) (p1State []).q.toNat (p1State []).psi.toNat ∧
    modInv (p1State []).psi.toNat (p1State []).q.toNat = some (p1State []).psiInv.toNat ∧
    (∃ t u, exec .twgenF (p1State []) = .next t ∧ exec .twgenI t = .next u) :=
  ⟨witness_matched, by decide, _, _, rfl, rfl⟩

theorem witness_FnttComputesItsStages :
    (p1State [1, 2, 3, 4]).n.toNat = 2 ^ 2 ∧ (p1State [1, 2, 3, 4]).q.toNat ≠ 0 ∧
    written (p1State [1, 2, 3, 4]).a 0 (2 ^ 2) ∧ written (p1State [1, 2, 3, 4]).tf 1 (2 ^ 2) := by decide

theorem witness_FnttNeedsExactlyItsWords :
    (vecState 1 17 [] [] []).n.toNat = 2 ^ 0 ∧ written (p1State [1, 2, 3, 4]).a 0 (2 ^ 2) ∧
    ¬ written (p1State [1, 2, 3]).a 0 (2 ^ 2) ∧
    refusal (exec .fntt (p1State [1, 2, 3])) = some (.unwrittenWord .a 3) := by decide

theorem witness_FnttDependsOnlyOnItsInputs :
    (∀ i, i < 4 → memRead (p1State [1, 2, 3, 4, 5]).a i = memRead (p1State [1, 2, 3, 4]).a i) ∧
    (∀ i, 1 ≤ i → i < 4 → memRead (p1State []).tf i = memRead (vecState 4 17 [] [99, 4, 2, 8] []).tf i) ∧
    view (exec .fntt (p1State [1, 2, 3, 4])) (fun t => words t.a 4) = some (shown [15, 11, 13, 16]) := by
  refine ⟨by decide, fun i h1 h2 => ?_, by decide⟩
  interval_cases i <;> decide

theorem witness_FnttIsLinear :
    configured (p1State [1, 2, 3, 4]) ∧
    (∀ i, i < 4 → wordAt (p1State [6, 8, 10, 12]).a i ≡
      1 * wordAt (p1State [1, 2, 3, 4]).a i + 1 * wordAt (p1State [5, 6, 7, 8]).a i [MOD 17]) ∧
    view (exec .fntt (p1State [6, 8, 10, 12])) (fun t => words t.a 1) = some (shown [5]) := by
  refine ⟨by decide, fun i hi => ?_, by decide⟩
  interval_cases i <;> decide

theorem witness_FnttEvaluatesAtOddPowers :
    Matched (2 ^ 2) (p1State [1, 2, 3, 4]).q.toNat (p1State [1, 2, 3, 4]).psi.toNat ∧
    tableOf (p1State [1, 2, 3, 4]).tf 2 2 17 ∧ written (p1State [1, 2, 3, 4]).a 0 (2 ^ 2) := by
  refine ⟨witness_matched, fun p h1 h2 => ?_, by decide⟩
  have : p < 4 := h2
  interval_cases p <;> decide

theorem witness_InttComputesItsStages :
    Nat.gcd (2 ^ 2 % (p1State [15, 11, 13, 16]).q.toNat) (p1State [15, 11, 13, 16]).q.toNat = 1 ∧
    written (p1State [15, 11, 13, 16]).a 0 (2 ^ 2) ∧ written (p1State [15, 11, 13, 16]).ti 1 (2 ^ 2) := by decide

theorem witness_InttNeedsExactlyItsWords :
    Nat.gcd (2 ^ 3 % 16) 16 ≠ 1 ∧ (vecState 8 16 [] [] []).n.toNat = 2 ^ 3 ∧
    refusal (exec .intt (p1State [1, 2])) = some (.unwrittenWord .a 2) := by decide

theorem witness_InttInterpolatesInNaturalOrder :
    (p1State [15, 11, 13, 16]).psi.toNat * (p1State [15, 11, 13, 16]).psiInv.toNat % 17 = 1 ∧
    tableOf (p1State [15, 11, 13, 16]).ti 2 9 17 ∧ written (p1State [15, 11, 13, 16]).a 0 (2 ^ 2) := by
  refine ⟨by decide, fun p h1 h2 => ?_, by decide⟩
  have : p < 4 := h2
  interval_cases p <;> decide

/-- The round trip's premises are those of the two closed forms together; at this state both commands run. -/
theorem witness_ForwardThenInverseRestoresTheInput :
    Matched (2 ^ 2) (p1State [1, 2, 3, 4]).q.toNat (p1State [1, 2, 3, 4]).psi.toNat ∧
    (p1State [1, 2, 3, 4]).psi.toNat * (p1State [1, 2, 3, 4]).psiInv.toNat % 17 = 1 ∧
    tableOf (p1State [1, 2, 3, 4]).tf 2 2 17 ∧ tableOf (p1State [1, 2, 3, 4]).ti 2 9 17 ∧
    written (p1State [1, 2, 3, 4]).a 0 (2 ^ 2) := by
  refine ⟨witness_matched, by decide, fun p h1 h2 => ?_, fun p h1 h2 => ?_, by decide⟩ <;>
  · have : p < 4 := h2
    interval_cases p <;> decide

/-- V-CONV row 1: `[1,2,3,4]`, `[5,6,7,8]`, the product `[3,3,6,2]`. -/
theorem witness_PointwiseProductIsNegacyclicConvolution :
    view (exec .fntt (p1State [1, 2, 3, 4])) (fun t => words t.a 4) = some (shown [15, 11, 13, 16]) ∧
    view (exec .fntt (p1State [5, 6, 7, 8])) (fun t => words t.a 4) = some (shown [7, 8, 7, 15]) ∧
    (∀ p, p < 4 → memRead (p1State [3, 3, 6, 2]).a p =
      some (toWord (mulMod (wordAt (memOf [15, 11, 13, 16]) p) (wordAt (memOf [7, 8, 7, 15]) p) 17))) ∧
    view (exec .intt (p1State [3, 3, 6, 2])) (fun t => words t.a 4) = some (shown [12, 15, 2, 9]) := by
  refine ⟨by decide, by decide, fun p hp => ?_, by decide⟩
  interval_cases p <;> decide

theorem witness_BrvReversesTheBits : (6 : Nat) < 2 ^ 3 := by decide

theorem witness_BitrevPermutesTheWords :
    written (vecState 4 0 [1, 2, 3, 4] [] []).a 0 (2 ^ 2) ∧ nValid (vecState 2048 0 [] [] []).n.toNat = false ∧
    ¬ written (vecState 4 0 [1, 2] [] []).a 0 (2 ^ 2) := by decide

theorem witness_BitrevIsSelfInverse :
    nValid (vecState 4 0 [1, 2, 3, 4] [] []).n.toNat = true ∧
    view (exec .bitrev (vecState 4 0 [1, 2, 3, 4] [] [])) (fun t => words t.a 4) = some (shown [1, 3, 2, 4]) := by decide

theorem witness_FnttSequencerFollowsTheLoopNest :
    (fnttPositions (2 ^ 2))[0]? = some ⟨1, 0, 0⟩ ∧ (fnttPositions (2 ^ 2))[3]? = some ⟨2, 1, 2⟩ := by decide

theorem witness_InttSequencerFollowsTheLoopNest :
    (inttPositions (2 ^ 2))[0]? = some ⟨4, 0, 0⟩ ∧ (inttPositions (2 ^ 2))[3]? = some ⟨2, 0, 1⟩ := by decide

theorem witness_OrderInsideAStageIsUnobservable :
    Memory.wf (p1State [1, 2, 3, 4]).a = true ∧
    List.Perm [⟨1, 0, 1⟩, ⟨1, 0, 0⟩] (stagePositions (2 ^ 0) (2 ^ 0) (fnttSpan (2 ^ 2) (2 ^ 0))) ∧
    List.Perm [⟨2, 0, 1⟩, ⟨2, 0, 0⟩] (stagePositions (2 * 2 ^ 0) (2 ^ 0) (inttSpan (2 ^ 2) (2 * 2 ^ 0))) ∧
    view (forEach (fnttAt (2 ^ 2) 17) (stagePositions (2 ^ 0) (2 ^ 0) (fnttSpan (2 ^ 2) (2 ^ 0))) (p1State [1, 2, 3, 4]))
      (fun t => words t.a 4) = some (shown [13, 1, 6, 3]) ∧
    (view (forEach (inttAt (2 ^ 2) 17) (stagePositions (2 * 2 ^ 0) (2 ^ 0) (inttSpan (2 ^ 2) (2 * 2 ^ 0)))
      (p1State [9, 2, 12, 6])) (fun t => words t.a 4)) = some (shown [4, 8, 12, 16]) ∧
    List.Perm [3, 2, 1, 0] (List.range (2 ^ 2)) ∧
    view (forEach (scaleAt 17 13) (List.range (2 ^ 2)) (p1State [4, 8, 12, 16])) (fun t => words t.a 4) =
      some (shown [1, 2, 3, 4]) := by decide

theorem witness_WaitingCommandsGoOnAfterADelivery :
    (waitingState [.entropy [0xFE#8]]).seq = .draw 2 ∧
    (waitingState [.entropy [0xFE#8]]).env = .entropy [0xFE#8] :: [] ∧
    (waitingState [.entropy [0xFE#8]]).opa.toNat < (waitingState [.entropy [0xFE#8]]).opb.toNat ∧
    (waitingState [.entropy [0xFE#8]]).entropy.length < drawLength 256 ∧
    (waitingState [.entropy [0xFE#8]]).entropy ++ [0xFE#8] = [0x34#8, 0xFE#8] ++ [] ∧
    ([0x34#8, 0xFE#8] : List Byte).length = drawLength 256 ∧ drawNumber 256 [0x34#8, 0xFE#8] = 52 := by decide

/-- The waiting state used above has the invariant of the block. -/
theorem witness_waiting_inv (env : List Event) : blockInv (waitingState env) :=
  ⟨fun sp => by cases sp <;> rfl, by simp [waitingState, State.reset], by simp [waitingState, State.reset],
    by simp [waitingState], by simp [waitingState], by simp [waitingState], by simp [waitingState],
    by simp [waitingState, seqInv, State.reset]⟩

/-- So has the waiting search, in every attempt and phase. -/
theorem witness_search_inv (env : List Event) : blockInv (searchState 2 env) ∧ blockInv (searchState 50 env) ∧
    blockInv { searchState 2 env with seq := .root 2 (.test 3 16) } := by
  refine ⟨⟨fun sp => by cases sp <;> rfl, ?_⟩, ⟨fun sp => by cases sp <;> rfl, ?_⟩, ⟨fun sp => by cases sp <;> rfl, ?_⟩⟩ <;>
  simp [searchState, scalarState, seqInv, State.reset, toWord, configured, nValid, Config.logNMax] <;> decide

/-- A search that waits in attempt 2 and is delivered 0 (2 fails) and 1 (3 is accepted); one that waits in attempt 50 and
is delivered 0; each phase. -/
theorem witness_WaitingCommandsGoOnAfterADelivery_search :
    seqInv (searchState 2 []) ∧ starvedDraw (searchState 2 [.entropy [0, 1]]) ∧
    noResetDue { searchState 2 [.entropy [0, 1]] with env := [] } ∧
    failedAttempts 8 17 1 [([0#8], 2)] ∧ oneDraw 2 (17 - 1) [1#8] 3 ∧ acceptsDraw 8 17 1 3 ∧
    (searchState 2 []).entropy ++ [0#8, 1#8] = (([([0#8], 2)] : List (List Byte × Nat)).map Prod.fst).flatten ++ [1#8] ++ [] ∧
    seqInv (searchState 50 []) ∧ 50 + ([([0#8], 2)] : List (List Byte × Nat)).length = 51 ∧
    seqInv { searchState 2 [] with seq := .root 2 (.test 3 16) } := by
  refine ⟨(witness_search_inv []).1.2.2.2.2.2.2.2, ⟨by decide, by decide⟩, by simp [noResetDue], ?_, ?_,
    by unfold acceptsDraw; decide, by decide, (witness_search_inv []).2.1.2.2.2.2.2.2.2, by decide,
    (witness_search_inv []).2.2.2.2.2.2.2.2.2⟩
  · intro p hp
    simp only [List.mem_cons, List.not_mem_nil, or_false] at hp
    subst hp
    exact ⟨.inr ⟨by decide, [], [0#8], rfl, by unfold rejectedDraws; decide, by decide, by decide, by decide⟩,
      by unfold acceptsDraw; decide⟩
  · exact .inr ⟨by decide, [], [1#8], rfl, by unfold rejectedDraws; decide, by decide, by decide, by decide⟩

/-- A search in each phase, and in its draw at the small moduli 3 and 2. -/
theorem witness_WaitingCommandsGoOnAfterADelivery_phases :
    seqInv { searchState 2 [] with entropy := [0xFF#8] } ∧ ([0xFF#8] : List Byte).length = drawLength 14 ∧
    seqInv { searchState 2 [] with seq := .root 2 (.expR 16) } ∧ seqInv { searchState 2 [] with seq := .root 2 (.expN 0) } ∧
    seqInv { searchState 2 [] with q := 3 } ∧ seqInv { searchState 2 [] with q := 2 } ∧ noResetDue (searchState 2 []) := by
  simp [searchState, scalarState, seqInv, State.reset, toWord, configured, nValid, Config.logNMax, noResetDue]; decide

theorem witness_BusyBlockAllowsOnlyStatusReads :
    blockInv (waitingState [.host (.rd 0x001#12)]) ∧ blockInv (waitingState [.host (.wr 0x000#12 0)]) ∧
    starvedDraw (waitingState [.host (.rd 0x001#12)]) ∧ blockInv (searchState 2 [.host (.wr 0x000#12 0)]) ∧
    starvedDraw (searchState 2 [.host (.wr 0x000#12 0)]) :=
  ⟨witness_waiting_inv _, witness_waiting_inv _, ⟨by decide, by decide⟩, (witness_search_inv _).1, ⟨by decide, by decide⟩⟩

theorem witness_EveryStepKeepsTheBlockInvariant :
    blockInv (waitingState [.reset]) ∧ view (step (waitingState [.reset])) (fun t => t.env) = some [] :=
  ⟨witness_waiting_inv _, by decide⟩

theorem witness_StepsStopOnlyWhereTheSpecLetsThem :
    blockInv (waitingState [.host (.rd 0x002#12)]) ∧
    refusal (step (waitingState [.host (.rd 0x002#12)])) = some .accessWhileBusy := ⟨witness_waiting_inv _, by decide⟩

end Sys2Proof.Tests
end

section
/-! The micro-step level reaches the command level (00_scope.md R3), in layers: runs of the engine and the relation
`Reaches`; what a pass over the memories does with the sequencer position; the orders of visit; one loop theorem for the
positions, one for the placements, one for the draws; then each command. -/

namespace Sys2Proof.Machine

/-! ### Runs of the engine -/

theorem andThen_assoc {α β γ : Type} (o : Result α) (f : α → Result β) (g : β → Result γ) :
    andThen (andThen o f) g = andThen o fun x => andThen (f x) g := by
  cases o <;> rfl

/-- Some number of micro-steps from the outcome `o` gives exactly the outcome `r`. -/
def Reaches (o r : Result State) : Prop := ∃ steps, andThen o (microRun steps) = r

theorem microRun_of_stuck {s : State} (h : microStep s = .next none) (k : Nat) : microRun k s = .next s := by
  cases k <;> simp [microRun, h]

theorem microRun_add (j k : Nat) (s : State) : microRun (j + k) s = andThen (microRun j s) (microRun k) := by
  induction j generalizing s with
  | zero => simp [microRun]
  | succ j ih =>
    rw [Nat.succ_add]
    cases h : microStep s with
    | next o =>
      cases o with
      | none => simp [microRun, h, microRun_of_stuck h]
      | some t => simp [microRun, h, ih]
    | fault e => simp [microRun, h]
    | refused e => simp [microRun, h]

theorem Reaches.refl (o : Result State) : Reaches o o := ⟨0, by cases o <;> rfl⟩

theorem Reaches.trans {o p r : Result State} (h₁ : Reaches o p) (h₂ : Reaches p r) : Reaches o r := by
  obtain ⟨j, rfl⟩ := h₁
  obtain ⟨k, rfl⟩ := h₂
  refine ⟨j + k, ?_⟩
  rw [andThen_assoc]
  congr 1
  funext s
  exact microRun_add j k s

/-- After a common first part it is enough to look at its next state. -/
theorem Reaches.andThen_congr {α : Type} {o : Result α} {f g : α → Result State}
    (h : ∀ x, o = .next x → Reaches (f x) (g x)) : Reaches (andThen o f) (andThen o g) := by
  cases o with
  | next x => exact h x rfl
  | fault e => exact .refl _
  | refused e => exact .refl _

/-- One micro-step that does `o` and then moves on. -/
theorem reaches_of_microStep {s : State} {o : Result State} {g : State → State}
    (h : microStep s = andThen o fun t => .next (some (g t))) : Reaches (.next s) (andThen o fun t => .next (g t)) := by
  refine ⟨1, ?_⟩
  simp only [andThen_next, microRun, h, andThen_assoc]

/-- One micro-step that cannot stop. -/
theorem reaches_next {s t : State} (h : microStep s = .next (some t)) : Reaches (.next s) (.next t) :=
  ⟨1, by simp [microRun, h]⟩

/-! ### Passes over the memories -/

/-- The operands of the loops, `N`, `Q` and `N_INV`, are those of `s`. -/
structure SameOperands (s t : State) : Prop where
  n : t.n = s.n
  q : t.q = s.q
  nInv : t.nInv = s.nInv

theorem SameOperands.refl (s : State) : SameOperands s s := ⟨rfl, rfl, rfl⟩

theorem SameOperands.trans {s t u : State} (h₁ : SameOperands s t) (h₂ : SameOperands t u) : SameOperands s u :=
  ⟨h₂.n.trans h₁.n, h₂.q.trans h₁.q, h₂.nInv.trans h₁.nInv⟩

/-- An operation that works on the memories alone: it neither reads nor moves the sequencer position (10_state.md R40),
and leaves the operands of the loops. -/
structure MemoryPass (f : State → Result State) : Prop where
  setSeq : ∀ (p : Seq) (s : State), f (setSeq p s) = andThen (f s) fun t => .next (setSeq p t)
  same : ∀ {s t : State}, f s = .next t → SameOperands s t

theorem spaceMem_setSeq (sp : Space) (p : Seq) (s : State) : spaceMem sp (setSeq p s) = spaceMem sp s := by
  cases sp <;> rfl

@[simp] theorem setSeq_setSeq (p p' : Seq) (s : State) : setSeq p' (setSeq p s) = setSeq p' s := rfl

@[simp] theorem completeCommand_setSeq (c : ErrCode) (p : Seq) (s : State) :
    completeCommand c (setSeq p s) = completeCommand c s := rfl

theorem setSpaceMem_setSeq (sp : Space) (m : Memory) (p : Seq) (s : State) :
    setSpaceMem sp m (setSeq p s) = setSeq p (setSpaceMem sp m s) := by
  cases sp <;> rfl

theorem readWord_setSeq (sp : Space) (i : Nat) (p : Seq) (s : State) :
    readWord sp i (setSeq p s) = readWord sp i s := by
  simp only [readWord, spaceMem_setSeq]

theorem memoryPass_writeWord (sp : Space) (i : Nat) (v : Word) : MemoryPass (writeWord sp i v) where
  setSeq p s := by
    unfold writeWord
    split_ifs
    · simp only [andThen_next, spaceMem_setSeq, setSpaceMem_setSeq]
    · rfl
  same h := by
    obtain ⟨-, rfl⟩ := writeWord_eq_next.mp h
    exact ⟨by simp, by simp, by simp⟩

theorem MemoryPass.read {sp : Space} {i : Nat} {g : Word → State → Result State} (h : ∀ v, MemoryPass (g v)) :
    MemoryPass fun s => andThen (readWord sp i s) fun v => g v s where
  setSeq p s := by
    rw [readWord_setSeq, andThen_assoc]
    congr 1
    funext v
    exact (h v).setSeq p s
  same hst := by
    obtain ⟨v, -, hv⟩ := andThen_eq_next.mp hst
    exact (h v).same hv

theorem MemoryPass.seq {f g : State → Result State} (hf : MemoryPass f) (hg : MemoryPass g) :
    MemoryPass fun s => andThen (f s) g where
  setSeq p s := by
    rw [hf.setSeq, andThen_assoc, andThen_assoc]
    congr 1
    funext t
    exact hg.setSeq p t
  same hst := by
    obtain ⟨u, hu, ht⟩ := andThen_eq_next.mp hst
    exact (hf.same hu).trans (hg.same ht)

theorem memoryPass_fnttAt (n q : Nat) (p : LoopPos) : MemoryPass (fnttAt n q p) :=
  .read fun _ => .read fun _ => .read fun _ => .seq (memoryPass_writeWord ..) (memoryPass_writeWord ..)

theorem memoryPass_inttAt (n q : Nat) (p : LoopPos) : MemoryPass (inttAt n q p) :=
  .read fun _ => .read fun _ => .read fun _ => .seq (memoryPass_writeWord ..) (memoryPass_writeWord ..)

theorem memoryPass_scaleAt (q ninv j : Nat) : MemoryPass (scaleAt q ninv j) :=
  .read fun _ => memoryPass_writeWord ..

theorem memoryPass_placePower (dest : Space) (k : Nat) (p : Nat × Nat) : MemoryPass (placePower dest k p) :=
  memoryPass_writeWord ..

theorem memoryPass_placeOld (k : Nat) (p : Word × Nat) : MemoryPass (placeOld k p) :=
  memoryPass_writeWord ..

theorem sameOperands_forEach {α : Type} {f : α → State → Result State} (hf : ∀ x, MemoryPass (f x)) {xs : List α}
    {s t : State} (h : forEach f xs s = .next t) : SameOperands s t :=
  forEach_relates .refl (fun _ _ _ => .trans) (fun x _ _ _ hx => (hf x).same hx) h

/-! ### Orders of visit -/

/-- `next` leads from each element of the list to the one after it, and from the last to `exit`. -/
def Follows {α : Type} (next : α → Option α) : List α → Option α → Prop
  | [], _ => True
  | x :: xs, exit => next x = xs.head?.or exit ∧ Follows next xs exit

section orders
variable {α : Type} {next : α → Option α}

theorem Follows.append {xs ys : List α} {exit : Option α} (hx : Follows next xs (ys.head?.or exit))
    (hy : Follows next ys exit) : Follows next (xs ++ ys) exit := by
  induction xs with
  | nil => exact hy
  | cons x xs ih =>
    obtain ⟨hnext, hxs⟩ := hx
    exact ⟨by rw [hnext, List.append_eq, List.head?_append, Option.or_assoc], ih hxs⟩

theorem head?_flatMap_range {g : Nat} {block : Nat → List α} {x : α} (hg : 0 < g) (h : (block 0).head? = some x) :
    ((List.range g).flatMap block).head? = some x := by
  obtain ⟨g, rfl⟩ := Nat.exists_eq_succ_of_ne_zero hg.ne'
  simp [List.range_succ_eq_map, List.head?_append, h]

/-- Blocks in a row, each led to the first element of the next block. -/
theorem follows_flatMap_range {g : Nat} {block : Nat → List α} {first : Nat → α} {exit : Option α}
    (hhead : ∀ i < g, (block i).head? = some (first i))
    (hblock : ∀ i < g, Follows next (block i) (if i + 1 < g then some (first (i + 1)) else exit)) :
    Follows next ((List.range g).flatMap block) exit := by
  induction g generalizing exit with
  | zero => trivial
  | succ g ih =>
    have hlast : Follows next (block g) exit := by simpa using hblock g (Nat.lt_succ_self g)
    rw [List.range_succ, List.flatMap_append, List.flatMap_singleton]
    refine .append ?_ hlast
    rw [hhead g (Nat.lt_succ_self g), Option.some_or]
    refine ih (fun i hi => hhead i (by omega)) fun i hi => ?_
    have hi' := hblock i (by omega)
    rw [if_pos (by omega)] at hi'
    split_ifs with h
    · exact hi'
    · rwa [show g = i + 1 by omega]

/-- A block whose elements are numbered. -/
theorem follows_map_range {t : Nat} {f : Nat → α} {exit : Option α}
    (h : ∀ o < t, next (f o) = if o + 1 < t then some (f (o + 1)) else exit) :
    Follows next ((List.range t).map f) exit := by
  rw [List.map_eq_flatMap]
  exact follows_flatMap_range (fun _ _ => rfl) fun o ho => ⟨h o ho, trivial⟩

end orders

theorem head?_stagePositions {m groups t : Nat} (hg : 0 < groups) (ht : 0 < t) :
    (stagePositions m groups t).head? = some ⟨m, 0, 0⟩ :=
  head?_flatMap_range hg (by simp [List.head?_range, ht.ne'])

/-- The order inside a stage: along the group, to the next group, out of the stage. -/
theorem follows_stagePositions {next : LoopPos → Option LoopPos} {m groups t : Nat} {exit : Option LoopPos} (ht : 0 < t)
    (h : ∀ i < groups, ∀ o < t, next ⟨m, i, 2 * i * t + o⟩ =
      if o + 1 < t then some ⟨m, i, 2 * i * t + (o + 1)⟩
      else if i + 1 < groups then some ⟨m, i + 1, 2 * (i + 1) * t⟩ else exit) :
    Follows next (stagePositions m groups t) exit :=
  follows_flatMap_range (first := fun i => ⟨m, i, 2 * i * t⟩) (fun i _ => by simp [List.head?_range, ht.ne'])
    fun i hi => follows_map_range (h i hi)

theorem fnttSpan_pos {k e : Nat} (he : e < k) : 0 < fnttSpan (2 ^ k) (2 ^ e) := by
  have h : 2 * 2 ^ e ≤ 2 ^ k := by rw [← pow_succ']; exact Nat.pow_le_pow_right (by decide) he
  exact Nat.div_pos h (by positivity)

theorem fnttPositions_two_pow (k : Nat) : fnttPositions (2 ^ k) =
    (List.range k).flatMap fun e => stagePositions (2 ^ e) (2 ^ e) (fnttSpan (2 ^ k) (2 ^ e)) := by
  rw [fnttPositions, fnttStages, log2_two_pow, List.flatMap_map]

theorem head?_fnttPositions {k : Nat} (hk : 0 < k) : (fnttPositions (2 ^ k)).head? = some ⟨1, 0, 0⟩ := by
  rw [fnttPositions_two_pow]
  exact head?_flatMap_range hk (head?_stagePositions (by simp) (fnttSpan_pos hk))

/-- 44_forward_ntt.md R152: the sequencer of FNTT follows the loop nest. -/
theorem follows_fnttPositions (k : Nat) : Follows (fnttNext (2 ^ k)) (fnttPositions (2 ^ k)) none := by
  rw [fnttPositions_two_pow]
  refine follows_flatMap_range (first := fun e => ⟨2 ^ e, 0, 0⟩)
    (fun e he => head?_stagePositions (by positivity) (fnttSpan_pos he))
    fun e he => follows_stagePositions (fnttSpan_pos he) fun i _ o _ => ?_
  have hlast : 2 * 2 ^ e ≤ 2 ^ k / 2 ↔ e + 1 < k := by
    obtain ⟨k, rfl⟩ := Nat.exists_eq_succ_of_ne_zero (Nat.ne_zero_of_lt he)
    rw [← pow_succ', Nat.succ_eq_add_one, pow_succ 2 k, Nat.mul_div_cancel _ (by decide),
      Nat.pow_le_pow_iff_right (by decide)]
    omega
  simp only [fnttNext, hlast, pow_succ', Nat.add_assoc, Nat.add_lt_add_iff_left]

theorem inttSpan_pos {k e : Nat} (he : e < k) : 0 < inttSpan (2 ^ k) (2 ^ k / 2 ^ e) := by
  rw [inttSpan, Nat.pow_div he.le (by decide), Nat.pow_div (by omega) (by decide)]
  positivity

theorem half_inttStage_pos {k e : Nat} (he : e < k) : 0 < 2 ^ k / 2 ^ e / 2 := by
  rw [Nat.div_div_eq_div_mul, ← pow_succ, Nat.pow_div he (by decide)]
  positivity

theorem inttPositions_two_pow (k : Nat) : inttPositions (2 ^ k) =
    (List.range k).flatMap fun e =>
      stagePositions (2 ^ k / 2 ^ e) (2 ^ k / 2 ^ e / 2) (inttSpan (2 ^ k) (2 ^ k / 2 ^ e)) := by
  rw [inttPositions, inttStages, log2_two_pow, List.flatMap_map]

theorem head?_inttPositions {k : Nat} (hk : 0 < k) : (inttPositions (2 ^ k)).head? = some ⟨2 ^ k, 0, 0⟩ := by
  rw [inttPositions_two_pow]
  refine head?_flatMap_range hk ?_
  rw [head?_stagePositions (half_inttStage_pos hk) (inttSpan_pos hk), pow_zero, Nat.div_one]

/-- 45_inverse_ntt.md R162: the sequencer of INTT follows the loop nest. -/
theorem follows_inttPositions (k : Nat) : Follows (inttNext (2 ^ k)) (inttPositions (2 ^ k)) none := by
  rw [inttPositions_two_pow]
  refine follows_flatMap_range (first := fun e => ⟨2 ^ k / 2 ^ e, 0, 0⟩)
    (fun e he => head?_stagePositions (half_inttStage_pos he) (inttSpan_pos he))
    fun e he => follows_stagePositions (inttSpan_pos he) fun i _ o _ => ?_
  have hhalf : 2 ^ k / 2 ^ e / 2 = 2 ^ k / 2 ^ (e + 1) := by rw [Nat.div_div_eq_div_mul, ← pow_succ]
  have hlast : 2 ≤ 2 ^ k / 2 ^ (e + 1) ↔ e + 1 < k := by
    rw [Nat.pow_div he (by decide)]
    nth_rw 1 [← pow_one 2]
    rw [Nat.pow_le_pow_iff_right (by decide)]
    omega
  simp only [inttNext, hhalf, hlast, Nat.add_assoc, Nat.add_lt_add_iff_left]

/-! ### Loops over positions -/

/-- The sequencer at the position `x`, or past the last one. -/
def goTo {α : Type} (pos : α → Seq) (done : State → State) : Option α → State → State
  | some x, s => setSeq (pos x) s
  | none, s => done s

/-- The sequencer at a butterfly of FNTT. -/
def fnttSeq (p : LoopPos) : Seq := .fntt p.m p.i p.j

/-- The sequencer at a butterfly of INTT. -/
def inttSeq (p : LoopPos) : Seq := .intt p.m p.i p.j

theorem goTo_ite {α : Type} (pos : α → Seq) (done : State → State) (c : Prop) [Decidable c] (x : α) (s : State) :
    goTo pos done (if c then some x else none) s = if c then setSeq (pos x) s else done s := by
  split_ifs <;> rfl

/-- A loop nest, micro-step by micro-step: if each position does its pass and goes where `next` leads, the run from the
first position of a list that `next` enumerates is the loop over the list. -/
theorem reaches_forEach {α : Type} {f : α → State → Result State} {pos : α → Seq} {next : α → Option α}
    {done : State → State} {s₀ : State} (hf : ∀ x, MemoryPass (f x))
    (hstep : ∀ x s, SameOperands s₀ s →
      microStep (setSeq (pos x) s) = andThen (f x s) fun t => .next (some (goTo pos done (next x) t)))
    {xs : List α} (hxs : Follows next xs none) {s : State} (hs : SameOperands s₀ s) :
    Reaches (.next (goTo pos done xs.head? s)) (andThen (forEach f xs s) fun t => .next (done t)) := by
  induction xs generalizing s with
  | nil => exact .refl _
  | cons x xs ih =>
    obtain ⟨hnext, hxs⟩ := hxs
    rw [Option.or_none] at hnext
    have hfirst := hstep x s hs
    rw [hnext] at hfirst
    rw [forEach_cons, andThen_assoc]
    exact (reaches_of_microStep hfirst).trans
      (.andThen_congr fun t ht => ih hxs (hs.trans ((hf x).same ht)))

theorem microStep_fntt (p : LoopPos) (s : State) :
    microStep (setSeq (fnttSeq p) s) = andThen (fnttAt s.n.toNat s.q.toNat p s) fun t =>
      .next (some (goTo fnttSeq (completeCommand .ok) (fnttNext s.n.toNat p) t)) := by
  simp only [microStep, fnttSeq, setSeq_seq, setSeq_n, setSeq_q, (memoryPass_fnttAt _ _ _).setSeq, andThen_assoc,
    andThen_next, fnttAdvance]
  cases fnttNext s.n.toNat p <;> rfl

theorem microStep_intt (p : LoopPos) (s : State) :
    microStep (setSeq (inttSeq p) s) = andThen (inttAt s.n.toNat s.q.toNat p s) fun t =>
      .next (some (goTo inttSeq (setSeq (.inttScale 0)) (inttNext s.n.toNat p) t)) := by
  simp only [microStep, inttSeq, setSeq_seq, setSeq_n, setSeq_q, (memoryPass_inttAt _ _ _).setSeq, andThen_assoc,
    andThen_next, inttAdvance]
  cases inttNext s.n.toNat p <;> rfl

theorem microStep_inttScale (j : Nat) (s : State) :
    microStep (setSeq (.inttScale j) s) = andThen (scaleAt s.q.toNat s.nInv.toNat j s) fun t =>
      .next (some (goTo .inttScale (completeCommand .ok) (if j + 1 < s.n.toNat then some (j + 1) else none) t)) := by
  simp only [microStep, setSeq_seq, setSeq_n, setSeq_q, setSeq_nInv, (memoryPass_scaleAt _ _ _).setSeq, andThen_assoc,
    andThen_next, setSeq_setSeq, completeCommand_setSeq, goTo_ite]
  rfl

theorem reaches_fnttLoop {s : State} {k : Nat} (hn : s.n.toNat = 2 ^ k) :
    Reaches (.next (goTo fnttSeq (completeCommand .ok) (fnttPositions (2 ^ k)).head? s))
      (andThen (forEach (fnttAt (2 ^ k) s.q.toNat) (fnttPositions (2 ^ k)) s) fun t =>
        .next (completeCommand .ok t)) := by
  refine reaches_forEach (s₀ := s) (fun p => memoryPass_fnttAt _ _ p) (fun p t ht => ?_)
    (follows_fnttPositions k) (.refl s)
  rw [microStep_fntt, ht.n, ht.q, hn]

theorem reaches_inttLoop {s : State} {k : Nat} (hn : s.n.toNat = 2 ^ k) :
    Reaches (.next (goTo inttSeq (setSeq (.inttScale 0)) (inttPositions (2 ^ k)).head? s))
      (andThen (forEach (inttAt (2 ^ k) s.q.toNat) (inttPositions (2 ^ k)) s) fun t =>
        .next (setSeq (.inttScale 0) t)) := by
  refine reaches_forEach (s₀ := s) (fun p => memoryPass_inttAt _ _ p) (fun p t ht => ?_)
    (follows_inttPositions k) (.refl s)
  rw [microStep_intt, ht.n, ht.q, hn]

theorem reaches_scaleLoop {s : State} (hn : 0 < s.n.toNat) :
    Reaches (.next (setSeq (.inttScale 0) s))
      (andThen (forEach (scaleAt s.q.toNat s.nInv.toNat) (List.range s.n.toNat) s) fun t =>
        .next (completeCommand .ok t)) := by
  have horder : Follows (fun j => if j + 1 < s.n.toNat then some (j + 1) else none) (List.range s.n.toNat) none := by
    rw [← List.map_id (List.range s.n.toNat)]
    exact follows_map_range fun _ _ => rfl
  have hloop := reaches_forEach (s₀ := s) (s := s) (pos := .inttScale) (done := completeCommand .ok)
    (fun j => memoryPass_scaleAt s.q.toNat s.nInv.toNat j)
    (fun j t ht => by rw [microStep_inttScale, ht.n, ht.q, ht.nInv]) horder (.refl s)
  rwa [List.head?_range, if_neg hn.ne'] at hloop

/-! ### Loops over the words not yet placed -/

theorem microStep_twgenPerm (dest : Space) (i p : Nat) (ps : List Nat) (s : State) :
    microStep (setSeq (.twgenPerm dest i (p :: ps)) s) = andThen (placePower dest (log2 s.n.toNat) (p, i) s) fun t =>
      .next (some (if i + 1 < s.n.toNat then setSeq (.twgenPerm dest (i + 1) ps) t else completeCommand .ok t)) := by
  simp only [microStep, setSeq_seq, setSeq_n, (memoryPass_placePower _ _ _).setSeq, andThen_assoc, andThen_next,
    setSeq_setSeq, completeCommand_setSeq]
  rfl

theorem microStep_bitrev (i : Nat) (w : Word) (ws : List Word) (s : State) :
    microStep (setSeq (.bitrev i (w :: ws)) s) = andThen (placeOld (log2 s.n.toNat) (w, i) s) fun t =>
      .next (some (if i + 1 < s.n.toNat then setSeq (.bitrev (i + 1) ws) t else completeCommand .ok t)) := by
  simp only [microStep, setSeq_seq, setSeq_n, (memoryPass_placeOld _ _).setSeq, andThen_assoc, andThen_next,
    setSeq_setSeq, completeCommand_setSeq]
  rfl

/-- A position that carries the words `i, ..., n-1` still to place, and places one in each micro-step, does the loop
over the numbered words. -/
theorem reaches_placing {β : Type} {place : β × Nat → State → Result State} {pos : Nat → List β → Seq} {n : Nat}
    (hplace : ∀ p, MemoryPass (place p))
    (hstep : ∀ i w ws s, s.n.toNat = n → microStep (setSeq (pos i (w :: ws)) s) = andThen (place (w, i) s) fun t =>
      .next (some (if i + 1 < n then setSeq (pos (i + 1) ws) t else completeCommand .ok t)))
    {ws : List β} {i : Nat} {s : State} (hs : s.n.toNat = n) (hlen : i + ws.length = n) (hne : ws ≠ []) :
    Reaches (.next (setSeq (pos i ws) s))
      (andThen (forEach place (ws.zipIdx i) s) fun t => .next (completeCommand .ok t)) := by
  induction ws generalizing i s with
  | nil => exact absurd rfl hne
  | cons w ws ih =>
    rw [List.zipIdx_cons, forEach_cons, andThen_assoc]
    refine (reaches_of_microStep (hstep i w ws s hs)).trans (.andThen_congr fun t ht => ?_)
    rw [List.length_cons] at hlen
    cases ws with
    | nil =>
      rw [if_neg (by simp at hlen; omega)]
      exact .refl _
    | cons v ws =>
      rw [if_pos (by simp at hlen; omega)]
      exact ih (by rw [((hplace _).same ht).n, hs]) (by omega) (List.cons_ne_nil v ws)

/-! ### The powers of a root -/

theorem length_powersFrom (root q count p : Nat) : (powersFrom root q count p).length = count := by
  induction count generalizing p with
  | zero => rfl
  | succ count ih => simp [powersFrom, ih]

theorem microStep_twgenPow (dest : Space) (i p : Nat) (ps : List Nat) (s : State) :
    microStep (setSeq (.twgenPow dest i p ps) s) = .next (some (setSeq
      (if i + 1 < s.n.toNat then
        .twgenPow dest (i + 1) (mulMod p (twiddleRoot dest s) s.q.toNat)
          (ps ++ [mulMod p (twiddleRoot dest s) s.q.toNat])
      else .twgenPerm dest 0 (ps ++ [mulMod p (twiddleRoot dest s) s.q.toNat])) s)) := by
  cases dest <;> rfl

/-- The powers `P[i..n-1]` of 43_twiddle_table.md R140, one in each micro-step. -/
theorem reaches_twgenPerm {dest : Space} {s : State} (count : Nat) {i p : Nat} {ps : List Nat}
    (hi : i + (count + 1) = s.n.toNat) :
    Reaches (.next (setSeq (.twgenPow dest i p ps) s))
      (.next (setSeq (.twgenPerm dest 0 (ps ++ powersFrom (twiddleRoot dest s) s.q.toNat (count + 1)
        (mulMod p (twiddleRoot dest s) s.q.toNat))) s)) := by
  induction count generalizing i p ps with
  | zero =>
    have h := reaches_next (microStep_twgenPow dest i p ps s)
    rwa [if_neg (by omega)] at h
  | succ count ih =>
    have h := reaches_next (microStep_twgenPow dest i p ps s)
    rw [if_pos (by omega)] at h
    rw [powersFrom, List.append_cons]
    exact h.trans (ih (by omega))

/-! ### Draws -/

/-- The rejection loop of 41_secure_random_range.md R121, one draw in each micro-step: it ends at the accepted draw, or
waits at the draw the source has not answered. `wait d bs` is the state at draw `d` with the bytes `bs` ready. -/
theorem reaches_drawLoop {min span : Nat} {wait accept : Nat → List Byte → State}
    (haccept : ∀ d bs v rest, drawOnce min span bs = .accepted v rest →
      microStep (wait d bs) = .next (some (accept v rest)))
    (hreject : ∀ d bs rest, drawOnce min span bs = .rejected rest →
      microStep (wait d bs) = .next (some (wait (d + 1) rest)))
    (fuel d : Nat) (bs : List Byte) :
    (∃ v rest, drawLoop min span fuel d bs = .value v rest ∧ Reaches (.next (wait d bs)) (.next (accept v rest))) ∨
    (∃ d' rest, drawLoop min span fuel d bs = .starved d' rest ∧
      Reaches (.next (wait d bs)) (.next (wait d' rest))) := by
  induction fuel generalizing d bs with
  | zero => exact .inr ⟨d, bs, rfl, .refl _⟩
  | succ fuel ih =>
    cases h : drawOnce min span bs with
    | accepted v rest => exact .inl ⟨v, rest, by simp [drawLoop, h], reaches_next (haccept d bs v rest h)⟩
    | starved => exact .inr ⟨d, bs, by simp [drawLoop, h], .refl _⟩
    | rejected rest =>
      have hfirst := reaches_next (hreject d bs rest h)
      have hloop : drawLoop min span (fuel + 1) d bs = drawLoop min span fuel (d + 1) rest := by simp [drawLoop, h]
      rw [hloop]
      rcases ih (d + 1) rest with ⟨v, rest', hv, hr⟩ | ⟨d', rest', hd, hr⟩
      · exact .inl ⟨v, rest', hv, hfirst.trans hr⟩
      · exact .inr ⟨d', rest', hd, hfirst.trans hr⟩

/-- A proper range draws: the result of `RandRange` on a state that waits in the rejection loop. -/
theorem randRange_of_lt {min max : Nat} (h : min < max) (bs : List Byte) :
    randRange min max bs = drawLoop min (max - min) (bs.length + 1) 1 bs := by
  rw [randRange, if_neg (by omega), if_neg (by omega)]

/-! ### The frame of a command -/

/-- The state a command's pseudocode leaves, once its frame has closed (47_system.md R181). -/
def settle : Finish → Result State
  | .ended c s => .next (completeCommand c s)
  | .waiting s => .next s

theorem runCommand_eq_settle (body : State → Result Finish) (s : State) :
    runCommand body s = andThen (body (beginCommand s)) settle := by
  unfold runCommand
  cases body (beginCommand s) with
  | next o => cases o <;> rfl
  | fault e => rfl
  | refused e => rfl

/-- It is enough to look inside the frame. -/
theorem reaches_runCommand {start body : State → Result Finish}
    (h : ∀ b, Reaches (andThen (start b) settle) (andThen (body b) settle)) (s : State) :
    Reaches (runCommand start s) (runCommand body s) := by
  simpa only [runCommand_eq_settle] using h (beginCommand s)

/-- A failed check ends both levels in the same way. -/
theorem reaches_withN {s : State} {start body : Nat → Result Finish}
    (h : ∀ k, s.n.toNat = 2 ^ k → Reaches (andThen (start (2 ^ k)) settle) (andThen (body (2 ^ k)) settle)) :
    Reaches (andThen (withN s start) settle) (andThen (withN s body) settle) := by
  unfold withN
  split_ifs with hn
  · obtain ⟨k, -, hk⟩ := (nValid_iff _).mp hn
    rw [hk]
    exact h k hk
  · exact .refl _

/-- A failed check ends both levels in the same way. -/
theorem reaches_withNQ {s : State} {start body : Nat → Nat → Result Finish}
    (h : ∀ k, s.n.toNat = 2 ^ k → s.q.toNat ≠ 0 →
      Reaches (andThen (start (2 ^ k) s.q.toNat) settle) (andThen (body (2 ^ k) s.q.toNat) settle)) :
    Reaches (andThen (withNQ s start) settle) (andThen (withNQ s body) settle) := by
  unfold withNQ
  split_ifs with hc
  · obtain ⟨hq, hn⟩ := hc
    obtain ⟨k, -, hk⟩ := (nValid_iff _).mp hn
    rw [hk]
    exact h k hk hq
  · exact .refl _

/-- A loop that ends the pseudocode completes the command. -/
theorem andThen_finish_settle (o : Result State) :
    andThen (andThen o finish) settle = andThen o fun t => .next (completeCommand .ok t) := andThen_assoc ..

/-! ### The vector commands -/

theorem reaches_fnttBody (b : State) : Reaches (andThen (startFntt b) settle) (andThen (fnttBody b) settle) := by
  refine reaches_withNQ fun k hk _ => ?_
  rw [andThen_finish_settle]
  cases k with
  | zero => exact .refl _
  | succ k =>
    have hloop := reaches_fnttLoop hk
    rw [head?_fnttPositions k.succ_pos] at hloop
    rw [if_pos (Nat.one_lt_two_pow k.succ_ne_zero)]
    exact hloop

theorem modInv_lt {x q y : Nat} (hq : q ≠ 0) (h : modInv x q = some y) : y < q := by
  simp only [modInv] at h
  split_ifs at h
  cases h
  exact Nat.mod_lt _ (Nat.pos_of_ne_zero hq)

theorem reaches_inttBody (b : State) : Reaches (andThen (startIntt b) settle) (andThen (inttBody b) settle) := by
  refine reaches_withNQ fun k hk hq => ?_
  cases hinv : modInv (2 ^ k) b.q.toNat with
  | none => exact .refl _
  | some ninv =>
    have hstart : goTo inttSeq (setSeq (.inttScale 0)) (inttPositions (2 ^ k)).head? (setNInv ninv b) =
        setSeq (if 1 < 2 ^ k then .intt (2 ^ k) 0 0 else .inttScale 0) (setNInv ninv b) := by
      cases k with
      | zero => rfl
      | succ k => rw [head?_inttPositions k.succ_pos, if_pos (Nat.one_lt_two_pow k.succ_ne_zero)]; rfl
    have hloop := reaches_inttLoop (s := setNInv ninv b) hk
    rw [hstart] at hloop
    simp only [andThen_assoc]
    refine hloop.trans (.andThen_congr fun t ht => ?_)
    have hsame := sameOperands_forEach (fun p => memoryPass_inttAt _ _ p) ht
    have hn : t.n.toNat = 2 ^ k := by rw [hsame.n, setNInv_n, hk]
    have hninv : t.nInv.toNat = ninv := by
      have hlt : ninv < 2 ^ 32 := (modInv_lt hq hinv).trans b.q.isLt
      rw [hsame.nInv, setNInv_nInv, toWord, BitVec.toNat_ofNat, Nat.mod_eq_of_lt hlt]
    have hscale := reaches_scaleLoop (s := t) (by rw [hn]; positivity)
    rw [hn, hninv, hsame.q, setNInv_q] at hscale
    exact hscale

theorem reaches_bitrevBody (b : State) : Reaches (andThen (startBitrev b) settle) (andThen (bitrevBody b) settle) := by
  refine reaches_withN fun k hk => ?_
  simp only [andThen_assoc]
  refine .andThen_congr fun old hold => ?_
  have hlen : old.length = 2 ^ k := (readWords_eq_next.mp hold).1
  exact reaches_placing (pos := .bitrev) (fun p => memoryPass_placeOld _ p)
    (fun i w ws s hs => by rw [microStep_bitrev, hs]) hk (by rw [Nat.zero_add, hlen])
    (List.ne_nil_of_length_pos (by rw [hlen]; positivity))

theorem reaches_twgenBody (dest : Space) (b : State) :
    Reaches (andThen (startTwgen dest b) settle) (andThen (twgenBody dest b) settle) := by
  refine reaches_withNQ fun k hk _ => ?_
  have hpowers : Reaches
      (.next (setSeq (if 1 < 2 ^ k then .twgenPow dest 1 (1 % b.q.toNat) [1 % b.q.toNat]
        else .twgenPerm dest 0 [1 % b.q.toNat]) b))
      (.next (setSeq (.twgenPerm dest 0 (powers (twiddleRoot dest b) b.q.toNat (2 ^ k))) b)) := by
    obtain ⟨c, hc⟩ : ∃ c, 2 ^ k = c + 1 := Nat.exists_eq_succ_of_ne_zero (by positivity)
    rw [hc, powers, powersFrom]
    cases c with
    | zero => exact .refl _
    | succ c =>
      rw [if_pos (by omega)]
      exact reaches_twgenPerm c (by omega)
  have hlen : (powers (twiddleRoot dest b) b.q.toNat (2 ^ k)).length = 2 ^ k := length_powersFrom ..
  rw [andThen_finish_settle]
  exact hpowers.trans (reaches_placing (pos := .twgenPerm dest) (fun p => memoryPass_placePower _ _ p)
    (fun i w ws s hs => by rw [microStep_twgenPerm, hs]) hk (by rw [Nat.zero_add, hlen])
    (List.ne_nil_of_length_pos (by rw [hlen]; positivity)))

/-! ### RNDRANGE -/

theorem microStep_draw (d : Nat) (s : State) : microStep (setSeq (.draw d) s) = .next (rndrangeStep d s) := rfl

theorem rndrangeStep_accepted {s : State} (d : Nat) {v : Nat} {rest : List Byte}
    (h : drawOnce s.opa.toNat (s.opb.toNat - s.opa.toNat) s.entropy = .accepted v rest) :
    rndrangeStep d s = some (completeCommand .ok (setRes v (setEntropy rest s))) := by
  rw [rndrangeStep, h]

theorem rndrangeStep_rejected {s : State} (d : Nat) {rest : List Byte}
    (h : drawOnce s.opa.toNat (s.opb.toNat - s.opa.toNat) s.entropy = .rejected rest) :
    rndrangeStep d s = some (setSeq (.draw (d + 1)) (setEntropy rest s)) := by
  rw [rndrangeStep, h]

theorem reaches_rndrangeBody (b : State) :
    Reaches (andThen (startRndrange b) settle) (andThen (rndrangeBody b) settle) := by
  unfold startRndrange rndrangeBody
  rcases Nat.lt_trichotomy b.opa.toNat b.opb.toNat with hlt | heq | hgt
  · rw [if_neg (by omega), if_neg (by omega), randRange_of_lt hlt]
    have hdraw := reaches_drawLoop (min := b.opa.toNat) (span := b.opb.toNat - b.opa.toNat)
      (wait := fun d bs => setSeq (.draw d) (setEntropy bs b))
      (accept := fun v rest => completeCommand .ok (setRes v (setEntropy rest b)))
      (fun d bs _ _ h => (microStep_draw ..).trans (congrArg _ (rndrangeStep_accepted (s := setEntropy bs b) d h)))
      (fun d bs _ h => (microStep_draw ..).trans (congrArg _ (rndrangeStep_rejected (s := setEntropy bs b) d h)))
      (b.entropy.length + 1) 1 b.entropy
    rcases hdraw with ⟨v, rest, hv, hr⟩ | ⟨d, rest, hd, hr⟩
    · rw [hv]; exact hr
    · rw [hd]; exact hr
  · rw [if_neg (by omega), if_pos heq, randRange, if_neg (by omega), if_pos heq]
    exact .refl _
  · rw [if_pos hgt, randRange, if_pos hgt]
    exact .refl _

/-! ### The root search -/

/-- The state in which the root search leaves the block (42_primitive_root_search.md R130, R137, 60_exceptions.md R192,
R194). -/
def searchEnd (s : State) : Search → State
  | .found candidate attempt rest =>
    completeCommand .ok (setPsi candidate (setAttempt attempt (setEntropy rest s)))
  | .invalidRange attempt => completeCommand .invalidRange (setAttempt attempt s)
  | .notFound attempt rest => completeCommand .rootNotFound (setAttempt attempt (setEntropy rest s))
  | .starved attempt d rest => setSeq (.root attempt (.draw d)) (setAttempt attempt (setEntropy rest s))

theorem microStep_root (k : Nat) (phase : RootPhase) (s : State) :
    microStep (setSeq (.root k phase) s) = .next (rootStep k phase s) := by
  cases phase <;> rfl

section phases
variable {s : State}

theorem rootStep_draw_invalidRange (hq : s.q.toNat - 1 < 2) (k d : Nat) :
    rootStep k (.draw d) s = some (completeCommand .invalidRange s) := if_pos hq

theorem rootStep_draw_single (hq : s.q.toNat - 1 = 2) (k d : Nat) :
    rootStep k (.draw d) s = some (setSeq (.root k (.expR 2)) s) := by
  simp [rootStep, hq]

theorem rootStep_draw_accepted (hq : 2 < s.q.toNat - 1) (k d : Nat) {x : Nat} {rest : List Byte}
    (h : drawOnce 2 (s.q.toNat - 1 - 2) s.entropy = .accepted x rest) :
    rootStep k (.draw d) s = some (setSeq (.root k (.expR x)) (setEntropy rest s)) := by
  simp only [rootStep, h, if_neg hq.not_gt, if_neg hq.ne']

theorem rootStep_draw_rejected (hq : 2 < s.q.toNat - 1) (k d : Nat) {rest : List Byte}
    (h : drawOnce 2 (s.q.toNat - 1 - 2) s.entropy = .rejected rest) :
    rootStep k (.draw d) s = some (setSeq (.root k (.draw (d + 1))) (setEntropy rest s)) := by
  simp only [rootStep, h, if_neg hq.not_gt, if_neg hq.ne']

/-- Where a failed attempt `k` leads: to the next one, or out of the search after the last (R132, R139). -/
def afterFailure (k : Nat) (s : State) : State :=
  if k < Config.attemptsMax then enterAttempt (k + 1) s else completeCommand .rootNotFound s

theorem rootStep_test_accepted {k candidate : Nat} (h : rootAccepted s.n.toNat s.q.toNat candidate = true) :
    rootStep k (.test candidate (modExp candidate s.n.toNat s.q.toNat)) s =
      some (completeCommand .ok (setPsi candidate s)) :=
  if_pos (beq_iff_eq.mp h)

theorem rootStep_test_failed {k candidate : Nat} (h : ¬ rootAccepted s.n.toNat s.q.toNat candidate = true) :
    rootStep k (.test candidate (modExp candidate s.n.toNat s.q.toNat)) s = some (afterFailure k s) := by
  have hne : modExp candidate s.n.toNat s.q.toNat ≠ s.q.toNat - 1 := fun he => h (beq_iff_eq.mpr he)
  simp only [rootStep, if_neg hne, afterFailure]
  split_ifs <;> rfl

end phases

section attempts
variable {s : State}

/-- The draw of attempt `k` in a proper range or at the single value 2 (R139). -/
theorem reaches_rootDraw (hq : 2 ≤ s.q.toNat - 1) (k : Nat) (bs : List Byte) :
    (∃ x rest, randRange 2 (s.q.toNat - 1) bs = .value x rest ∧
      Reaches (.next (enterAttempt k (setEntropy bs s)))
        (.next (setSeq (.root k (.expR x)) (setAttempt k (setEntropy rest s))))) ∨
    (∃ d rest, randRange 2 (s.q.toNat - 1) bs = .starved d rest ∧
      Reaches (.next (enterAttempt k (setEntropy bs s))) (.next (searchEnd s (.starved k d rest)))) := by
  rcases hq.lt_or_eq with hlt | heq
  · rw [randRange_of_lt hlt]
    exact reaches_drawLoop
      (wait := fun d bs => setSeq (.root k (.draw d)) (setAttempt k (setEntropy bs s)))
      (accept := fun x rest => setSeq (.root k (.expR x)) (setAttempt k (setEntropy rest s)))
      (fun d bs _ _ h => (microStep_root ..).trans
        (congrArg _ (rootStep_draw_accepted (s := setAttempt k (setEntropy bs s)) hlt k d h)))
      (fun d bs _ h => (microStep_root ..).trans
        (congrArg _ (rootStep_draw_rejected (s := setAttempt k (setEntropy bs s)) hlt k d h)))
      (bs.length + 1) 1 bs
  · refine .inl ⟨2, bs, by rw [randRange, if_neg (by omega), if_pos heq], reaches_next ?_⟩
    rw [enterAttempt, microStep_root, rootStep_draw_single (s := setAttempt k (setEntropy bs s)) heq.symm]

/-- The phases `EXP_R` and `EXP_N` of attempt `k` (R139). -/
theorem reaches_rootTest (k x : Nat) (s : State) :
    Reaches (.next (setSeq (.root k (.expR x)) s))
      (.next (setSeq (.root k (.test (modExp x s.r.toNat s.q.toNat)
        (modExp (modExp x s.r.toNat s.q.toNat) s.n.toNat s.q.toNat))) s)) :=
  (reaches_next (t := setSeq (.root k (.expN (modExp x s.r.toNat s.q.toNat))) s) rfl).trans (reaches_next rfl)

/-- The attempts left after a failed attempt `k`, or all of them after `k = 0`, micro-step by micro-step (R130,
R132). -/
theorem reaches_rootSearch (hq : 2 ≤ s.q.toNat - 1) (left : Nat) {k : Nat} (hk : k + left = Config.attemptsMax)
    (bs : List Byte) :
    Reaches (.next (afterFailure k (setAttempt k (setEntropy bs s))))
      (.next (searchEnd s (rootSearch s.n.toNat s.q.toNat s.r.toNat left (k + 1) bs))) := by
  induction left generalizing k bs with
  | zero =>
    rw [afterFailure, if_neg (by omega)]
    exact .refl _
  | succ left ih =>
    rw [afterFailure, if_pos (by omega), rootSearch]
    rcases reaches_rootDraw hq (k + 1) bs with ⟨x, rest, hx, hr⟩ | ⟨d, rest, hd, hr⟩
    · have htest := hr.trans (reaches_rootTest (k + 1) x (setAttempt (k + 1) (setEntropy rest s)))
      rw [hx]
      dsimp only
      split_ifs with hacc
      · exact htest.trans (reaches_next ((microStep_root ..).trans
          (congrArg _ (rootStep_test_accepted (s := setAttempt (k + 1) (setEntropy rest s)) hacc))))
      · have hfailed := htest.trans (reaches_next ((microStep_root ..).trans
          (congrArg _ (rootStep_test_failed (s := setAttempt (k + 1) (setEntropy rest s)) hacc))))
        exact hfailed.trans (ih (by omega) rest)
    · rw [hd]
      exact hr

/-- A range `[2, Q - 1]` that is empty ends the search at once (60_exceptions.md R192). -/
theorem reaches_rootSearch_invalidRange (hq : s.q.toNat - 1 < 2) :
    Reaches (.next (enterAttempt 1 s))
      (.next (searchEnd s (rootSearch s.n.toNat s.q.toNat s.r.toNat Config.attemptsMax 1 s.entropy))) := by
  have hend : rootSearch s.n.toNat s.q.toNat s.r.toNat Config.attemptsMax 1 s.entropy = .invalidRange 1 := by
    rw [Config.attemptsMax, rootSearch, randRange, if_pos hq]
  rw [hend]
  refine reaches_next ?_
  rw [enterAttempt, microStep_root, rootStep_draw_invalidRange (s := setAttempt 1 s) hq]
  rfl

end attempts

/-- The whole search, from the entry of its first attempt (R130). -/
theorem reaches_searchEnd (s : State) :
    Reaches (.next (enterAttempt 1 s))
      (.next (searchEnd s (rootSearch s.n.toNat s.q.toNat s.r.toNat Config.attemptsMax 1 s.entropy))) := by
  rcases Nat.lt_or_ge (s.q.toNat - 1) 2 with hshort | hproper
  · exact reaches_rootSearch_invalidRange hshort
  · exact reaches_rootSearch hproper Config.attemptsMax (Nat.zero_add _) s.entropy

theorem prepareR_n (auto : Bool) (n q : Nat) (s : State) : (prepareR auto n q s).n = s.n := by
  cases auto <;> rfl

theorem prepareR_q (auto : Bool) (n q : Nat) (s : State) : (prepareR auto n q s).q = s.q := by
  cases auto <;> rfl

theorem reaches_findrootBody (auto : Bool) (b : State) :
    Reaches (andThen (startFindroot auto b) settle) (andThen (findrootBody auto b) settle) := by
  refine reaches_withNQ fun k hk _ => ?_
  have hsearch := reaches_searchEnd (prepareR auto (2 ^ k) b.q.toNat b)
  rw [prepareR_n, prepareR_q, hk] at hsearch
  dsimp only
  cases hend : rootSearch (2 ^ k) b.q.toNat (prepareR auto (2 ^ k) b.q.toNat b).r.toNat Config.attemptsMax 1
      (prepareR auto (2 ^ k) b.q.toNat b).entropy with
  | found candidate attempt rest => rwa [hend] at hsearch
  | invalidRange attempt => rwa [hend] at hsearch
  | notFound attempt rest => rwa [hend] at hsearch
  | starved attempt d rest => rwa [hend] at hsearch

/-! ### Every command -/

theorem reaches_exec (i : Instr) (s : State) : Reaches (startCommand i s) (exec i s) := by
  cases i with
  | nop => exact .refl _
  | mulmod => exact .refl _
  | modinv => exact .refl _
  | rndrange => exact reaches_runCommand reaches_rndrangeBody s
  | findroot => exact reaches_runCommand (reaches_findrootBody false) s
  | findrootA => exact reaches_runCommand (reaches_findrootBody true) s
  | twgenF => exact reaches_runCommand (reaches_twgenBody .tf) s
  | twgenI => exact reaches_runCommand (reaches_twgenBody .ti) s
  | fntt => exact reaches_runCommand reaches_fnttBody s
  | intt => exact reaches_runCommand reaches_inttBody s
  | bitrev => exact reaches_runCommand reaches_bitrevBody s

/-- Settles O55, command by command: each loop of a command's pseudocode is a run of its positions. -/
theorem microStepsReachTheCommandResult : Obligations.MicroStepsReachTheCommandResult := by
  unfold Obligations.MicroStepsReachTheCommandResult
  exact reaches_exec

end Sys2Proof.Machine
end

section
/-! What a command can do (10_state.md R34), in layers: the writes of the memory loops; the draws of the root search; one
inversion lemma for every command; then its frame, and that the flags are not read (R35). -/

namespace Sys2Proof.Machine

/-! ### Writes to one memory -/

/-- `t` is `s` after writes to the memory `sp`, each of a word `v` at an index `i` with `P i v`. -/
structure WritesTo (sp : Space) (P : Nat → Word → Prop) (s t : State) : Prop where
  frame : ∃ m, t = setSpaceMem sp m s
  wf : Memory.wf (spaceMem sp s) = true → Memory.wf (spaceMem sp t) = true
  word : ∀ i, memRead (spaceMem sp t) i = memRead (spaceMem sp s) i ∨
    ∃ v, memRead (spaceMem sp t) i = some v ∧ P i v

@[simp] theorem spaceMem_setSpaceMem_same (sp : Space) (m : Memory) (s : State) :
    spaceMem sp (setSpaceMem sp m s) = m := by
  rw [spaceMem_setSpaceMem, if_pos rfl]

theorem setSpaceMem_spaceMem (sp : Space) (s : State) : setSpaceMem sp (spaceMem sp s) s = s := by
  cases sp <;> rfl

theorem setSpaceMem_setSpaceMem (sp : Space) (m m' : Memory) (s : State) :
    setSpaceMem sp m' (setSpaceMem sp m s) = setSpaceMem sp m' s := by
  cases sp <;> rfl

namespace WritesTo
variable {sp : Space} {P Q : Nat → Word → Prop} {s t u : State}

theorem refl (s : State) : WritesTo sp P s s :=
  ⟨⟨spaceMem sp s, (setSpaceMem_spaceMem sp s).symm⟩, id, fun _ => .inl rfl⟩

theorem trans (h₁ : WritesTo sp P s t) (h₂ : WritesTo sp P t u) : WritesTo sp P s u where
  frame := by
    obtain ⟨m, rfl⟩ := h₁.frame
    obtain ⟨m', rfl⟩ := h₂.frame
    exact ⟨m', setSpaceMem_setSpaceMem sp m m' s⟩
  wf hs := h₂.wf (h₁.wf hs)
  word i := by
    rcases h₂.word i with hkept | hnew
    · rw [hkept]; exact h₁.word i
    · exact .inr hnew

theorem mono (h : WritesTo sp P s t) (hPQ : ∀ i v, P i v → Q i v) : WritesTo sp Q s t where
  frame := h.frame
  wf := h.wf
  word i := (h.word i).imp_right fun ⟨v, hv, hP⟩ => ⟨v, hv, hPQ i v hP⟩

theorem spaceMem_other (h : WritesTo sp P s t) {sp' : Space} (hne : sp' ≠ sp) : spaceMem sp' t = spaceMem sp' s := by
  obtain ⟨m, rfl⟩ := h.frame
  rw [spaceMem_setSpaceMem, if_neg hne]

theorem wf_all (h : WritesTo sp P s t) (hs : ∀ sp', Memory.wf (spaceMem sp' s) = true) (sp' : Space) :
    Memory.wf (spaceMem sp' t) = true := by
  by_cases hsp : sp' = sp
  · rw [hsp]; exact h.wf (hs sp)
  · rw [h.spaceMem_other hsp]; exact hs sp'

theorem word_all (h : WritesTo sp P s t) (sp' : Space) (i : Nat) :
    memRead (spaceMem sp' t) i = memRead (spaceMem sp' s) i ∨ ∃ v, memRead (spaceMem sp' t) i = some v ∧ P i v := by
  by_cases hsp : sp' = sp
  · rw [hsp]; exact h.word i
  · rw [h.spaceMem_other hsp]; exact .inl rfl

end WritesTo

theorem writesTo_writeWord {sp : Space} {i : Nat} {v : Word} {s t : State} (h : writeWord sp i v s = .next t) :
    WritesTo sp (fun j w => j = i ∧ w = v) s t := by
  obtain ⟨hi, rfl⟩ := writeWord_eq_next.mp h
  refine ⟨⟨_, rfl⟩, fun hs => ?_, fun j => ?_⟩
  · rw [spaceMem_setSpaceMem_same]; exact memWrite_wf _ v hs hi
  · rw [spaceMem_setSpaceMem_same, memRead_memWrite]
    split_ifs with hj
    · exact .inr ⟨v, rfl, hj, rfl⟩
    · exact .inl rfl

theorem writesTo_afterRead {sp sp' : Space} {P : Nat → Word → Prop} {i : Nat} {g : Word → Result State} {s u : State}
    (hg : ∀ v, g v = .next u → WritesTo sp P s u) (h : andThen (readWord sp' i s) g = .next u) : WritesTo sp P s u := by
  obtain ⟨v, -, hv⟩ := andThen_eq_next.mp h
  exact hg v hv

theorem writesTo_forEach {α : Type} {f : α → State → Result State} {sp : Space} {P : Nat → Word → Prop} {xs : List α}
    {s t : State} (hf : ∀ x ∈ xs, ∀ u v, f x u = .next v → WritesTo sp P u v) (h : forEach f xs s = .next t) :
    WritesTo sp P s t :=
  forEach_relates .refl (fun _ _ _ => .trans) hf h

/-! ### The passes of the vector commands -/

/-- A word the block writes under the modulus `q` (10_state.md R39); without a modulus nothing is claimed. -/
def Residue (q : Nat) (v : Word) : Prop := q ≠ 0 → v.toNat < q

theorem residue_toWord {q x : Nat} (h : q ≠ 0 → x < q) : Residue q (toWord x) := fun hq => by
  rw [toWord, BitVec.toNat_ofNat]
  exact (Nat.mod_le _ _).trans_lt (h hq)

theorem residue_toWord_mod (x q : Nat) : Residue q (toWord (x % q)) :=
  residue_toWord fun hq => Nat.mod_lt x (Nat.pos_of_ne_zero hq)

/-- What the two writes of a butterfly of span `t` at `j` can leave (44_forward_ntt.md R151, 45_inverse_ntt.md R161). -/
def ButterflyWord (q j t i : Nat) (v : Word) : Prop := (i = j ∨ i = j + t) ∧ Residue q v

theorem writesTo_butterflyWrites {q j t x y : Nat} {s u : State}
    (h : (andThen (writeWord .a j (toWord (x % q)) s) fun s' => writeWord .a (j + t) (toWord (y % q)) s') = .next u) :
    WritesTo .a (ButterflyWord q j t) s u := by
  obtain ⟨s', hlow, hhigh⟩ := andThen_eq_next.mp h
  refine ((writesTo_writeWord hlow).mono ?_).trans ((writesTo_writeWord hhigh).mono ?_)
  · rintro _ _ ⟨rfl, rfl⟩; exact ⟨.inl rfl, residue_toWord_mod x q⟩
  · rintro _ _ ⟨rfl, rfl⟩; exact ⟨.inr rfl, residue_toWord_mod y q⟩

theorem writesTo_fnttAt {n q : Nat} {p : LoopPos} {s u : State} (h : fnttAt n q p s = .next u) :
    WritesTo .a (ButterflyWord q p.j (fnttSpan n p.m)) s u :=
  writesTo_afterRead (fun _ => writesTo_afterRead fun _ => writesTo_afterRead fun _ => writesTo_butterflyWrites) h

theorem writesTo_inttAt {n q : Nat} {p : LoopPos} {s u : State} (h : inttAt n q p s = .next u) :
    WritesTo .a (ButterflyWord q p.j (inttSpan n p.m)) s u :=
  writesTo_afterRead (fun _ => writesTo_afterRead fun _ => writesTo_afterRead fun _ => writesTo_butterflyWrites) h

theorem writesTo_scaleAt {q ninv j : Nat} {s u : State} (h : scaleAt q ninv j s = .next u) :
    WritesTo .a (fun i v => i = j ∧ Residue q v) s u := by
  obtain ⟨_, -, hwrite⟩ := andThen_eq_next.mp h
  refine (writesTo_writeWord hwrite).mono ?_
  rintro _ _ ⟨rfl, rfl⟩
  exact ⟨rfl, residue_toWord_mod _ q⟩

/-! ### The indices the passes reach -/

theorem stagePositions_lt {m groups t : Nat} {p : LoopPos} (h : p ∈ stagePositions m groups t) :
    p.m = m ∧ p.j + t < 2 * groups * t := by
  simp only [stagePositions, List.mem_flatMap, List.mem_map, List.mem_range] at h
  obtain ⟨i, hi, o, ho, rfl⟩ := h
  refine ⟨rfl, ?_⟩
  calc 2 * i * t + o + t < 2 * (i + 1) * t := by linarith
    _ ≤ 2 * groups * t := by gcongr; exact hi

theorem fnttPositions_lt {n : Nat} {p : LoopPos} (h : p ∈ fnttPositions n) : p.j + fnttSpan n p.m < n := by
  obtain ⟨m, -, hp⟩ := List.mem_flatMap.mp h
  obtain ⟨rfl, hlt⟩ := stagePositions_lt hp
  exact hlt.trans_le (Nat.mul_div_le n (2 * p.m))

theorem inttPositions_lt {n : Nat} {p : LoopPos} (h : p ∈ inttPositions n) : p.j + inttSpan n p.m < n := by
  obtain ⟨m, -, hp⟩ := List.mem_flatMap.mp h
  obtain ⟨rfl, hlt⟩ := stagePositions_lt hp
  calc p.j + inttSpan n p.m < 2 * (p.m / 2) * inttSpan n p.m := hlt
    _ ≤ p.m * (n / p.m) := Nat.mul_le_mul_right _ (Nat.mul_div_le p.m 2)
    _ ≤ n := Nat.mul_div_le n p.m

theorem brv_lt (k i : Nat) : brv k i < 2 ^ k := by
  induction k generalizing i with
  | zero => simp [brv]
  | succ k ih =>
    have hrest := ih (i / 2)
    have htop : i % 2 * 2 ^ k ≤ 1 * 2 ^ k := Nat.mul_le_mul_right _ (by omega)
    rw [brv, pow_succ]
    omega

theorem two_pow_log2 {n : Nat} (h : nValid n = true) : 2 ^ log2 n = n := by
  obtain ⟨k, -, rfl⟩ := (nValid_iff n).mp h
  rw [log2_two_pow]

theorem powersFrom_lt {root q count p x : Nat} (hp : p < q) (h : x ∈ powersFrom root q count p) : x < q := by
  induction count generalizing p with
  | zero => cases h
  | succ count ih =>
    rcases List.mem_cons.mp h with rfl | hx
    · exact hp
    · exact ih (Nat.mod_lt _ (Nat.zero_lt_of_lt hp)) hx

/-! ### The loops of the vector commands -/

/-- A word that a vector command may leave: at an index below `n`, and a residue of `q`. -/
def ResidueBelow (n q i : Nat) (v : Word) : Prop := i < n ∧ v.toNat < q

theorem ButterflyWord.residueBelow {n q j t i : Nat} {v : Word} (h : ButterflyWord q j t i v) (hq : q ≠ 0)
    (hlt : j + t < n) : ResidueBelow n q i v := by
  obtain ⟨hi, hv⟩ := h
  exact ⟨by omega, hv hq⟩

theorem writesTo_fnttLoop {n q : Nat} (hq : q ≠ 0) {s u : State} (h : forEach (fnttAt n q) (fnttPositions n) s = .next u) :
    WritesTo .a (ResidueBelow n q) s u :=
  writesTo_forEach (fun _ hp _ _ hat =>
    (writesTo_fnttAt hat).mono fun _ _ hw => hw.residueBelow hq (fnttPositions_lt hp)) h

theorem writesTo_inttLoop {n q : Nat} (hq : q ≠ 0) {s u : State} (h : forEach (inttAt n q) (inttPositions n) s = .next u) :
    WritesTo .a (ResidueBelow n q) s u :=
  writesTo_forEach (fun _ hp _ _ hat =>
    (writesTo_inttAt hat).mono fun _ _ hw => hw.residueBelow hq (inttPositions_lt hp)) h

theorem writesTo_scaleLoop {n q ninv : Nat} (hq : q ≠ 0) {s u : State}
    (h : forEach (scaleAt q ninv) (List.range n) s = .next u) : WritesTo .a (ResidueBelow n q) s u := by
  refine writesTo_forEach (fun j hj _ _ hat => (writesTo_scaleAt hat).mono ?_) h
  rintro _ _ ⟨rfl, hv⟩
  exact ⟨List.mem_range.mp hj, hv hq⟩

theorem writesTo_powersLoop {dest : Space} {root n q : Nat} (hq : q ≠ 0) (hn : nValid n = true) {s u : State}
    (h : forEach (placePower dest (log2 n)) (powers root q n).zipIdx s = .next u) :
    WritesTo dest (ResidueBelow n q) s u := by
  refine writesTo_forEach (fun p hp _ _ hplace => (writesTo_writeWord hplace).mono ?_) h
  rintro _ _ ⟨rfl, rfl⟩
  have hpower : p.1 < q :=
    powersFrom_lt (Nat.mod_lt 1 (Nat.pos_of_ne_zero hq)) (List.fst_mem_of_mem_zipIdx hp)
  exact ⟨(brv_lt _ _).trans_eq (two_pow_log2 hn), residue_toWord (fun _ => hpower) hq⟩

theorem writesTo_bitrevLoop {n : Nat} (hn : nValid n = true) {old : List Word} {s u : State}
    (h : forEach (placeOld (log2 n)) old.zipIdx s = .next u) : WritesTo .a (fun i _ => i < n) s u := by
  refine writesTo_forEach (fun p _ _ _ hplace => (writesTo_writeWord hplace).mono ?_) h
  rintro _ _ ⟨rfl, -⟩
  exact (brv_lt _ _).trans_eq (two_pow_log2 hn)

/-! ### The draws -/

/-- The rejection loop never counts its draws back. -/
theorem drawLoop_starved_le {min span fuel d d' : Nat} {bs rest : List Byte}
    (h : drawLoop min span fuel d bs = .starved d' rest) : d ≤ d' := by
  induction fuel generalizing d bs with
  | zero => cases h; exact le_rfl
  | succ fuel ih =>
    unfold drawLoop at h
    split at h
    · cases h
    · exact (Nat.le_succ d).trans (ih h)
    · cases h; exact le_rfl

/-- Only a proper range waits, at a draw numbered from 1 (10_state.md R40). -/
theorem randRange_starved {min max d : Nat} {bs rest : List Byte} (h : randRange min max bs = .starved d rest) :
    min < max ∧ 1 ≤ d := by
  unfold randRange at h
  split_ifs at h with hgt heq
  exact ⟨by omega, drawLoop_starved_le h⟩

/-- The attempt a root search ends or waits at is one of the fifty, and a draw it waits for is numbered from 1
(10_state.md R33, R40). -/
def Search.inRange : Search → Prop
  | .found _ attempt _ | .invalidRange attempt | .notFound attempt _ => attempt ≤ Config.attemptsMax
  | .starved attempt d _ => 1 ≤ attempt ∧ attempt ≤ Config.attemptsMax ∧ 1 ≤ d

theorem rootSearch_inRange {n q r left attempt : Nat} (hfirst : 1 ≤ attempt)
    (hleft : attempt + left = Config.attemptsMax + 1) (bs : List Byte) :
    (rootSearch n q r left attempt bs).inRange := by
  induction left generalizing attempt bs with
  | zero => show attempt - 1 ≤ Config.attemptsMax; omega
  | succ left ih =>
    unfold rootSearch
    split
    · show attempt ≤ Config.attemptsMax; omega
    · next d rest hstarved => exact ⟨hfirst, by omega, (randRange_starved hstarved).2⟩
    · dsimp only
      split_ifs
      · show attempt ≤ Config.attemptsMax; omega
      · exact ih (by omega) (by omega) _

/-! ### One inversion lemma for every command -/

/-- The pseudocode of a command, between the start and the completion of its frame (47_system.md R181). -/
def commandBody : Instr → State → Result Finish
  | .nop => finish
  | .rndrange => rndrangeBody
  | .findroot => findrootBody false
  | .findrootA => findrootBody true
  | .twgenF => twgenBody .tf
  | .twgenI => twgenBody .ti
  | .fntt => fnttBody
  | .intt => inttBody
  | .bitrev => bitrevBody
  | .mulmod => mulmodBody
  | .modinv => modinvBody

theorem exec_eq_runCommand (i : Instr) (s : State) : exec i s = runCommand (commandBody i) s := by
  cases i <;> rfl

/-- The state `b'` in which the root search of the command begins its attempts (42_primitive_root_search.md R131). -/
inductive Prepares : Instr → State → State → Prop
  | host (b : State) : Prepares .findroot b b
  | auto (v : Nat) (b : State) : Prepares .findrootA b (setR v b)

/-- Everything the pseudocode of a command can do from the state `b`, if it does not stop: the column of writes of
10_state.md R34, with the ranges of the values written where an invariant needs them. -/
inductive Does : Instr → State → Finish → Prop
  | nothing (i : Instr) (c : ErrCode) (b : State) : Does i b (.ended c b)
  | mulmod (v : Nat) (b : State) : Does .mulmod b (.ended .ok (setRes v b))
  | modinv (v : Nat) (b : State) : Does .modinv b (.ended .ok (setRes v b))
  | drawn (v : Nat) (rest : List Byte) (b : State) : Does .rndrange b (.ended .ok (setRes v (setEntropy rest b)))
  | drawWaits {d : Nat} (rest : List Byte) {b : State} (hd : 1 ≤ d) (hrange : b.opa.toNat < b.opb.toNat) :
      Does .rndrange b (.waiting (setSeq (.draw d) (setEntropy rest b)))
  | rootFound {i : Instr} {b b' : State} (hb : Prepares i b b') (candidate : Nat) {attempt : Nat} (rest : List Byte)
      (hattempt : attempt ≤ Config.attemptsMax) :
      Does i b (.ended .ok (setPsi candidate (setAttempt attempt (setEntropy rest b'))))
  | rootFailed {i : Instr} {b b' : State} (hb : Prepares i b b') (c : ErrCode) {attempt : Nat} (rest : List Byte)
      (hattempt : attempt ≤ Config.attemptsMax) : Does i b (.ended c (setAttempt attempt (setEntropy rest b')))
  | rootWaits {i : Instr} {b b' : State} (hb : Prepares i b b') {attempt d : Nat} (rest : List Byte)
      (hconf : configured b) (hfirst : 1 ≤ attempt) (hattempt : attempt ≤ Config.attemptsMax) (hd : 1 ≤ d) :
      Does i b (.waiting (setSeq (.root attempt (.draw d)) (setAttempt attempt (setEntropy rest b'))))
  | twgenF {b u : State} (h : WritesTo .tf (ResidueBelow b.n.toNat b.q.toNat) b u) : Does .twgenF b (.ended .ok u)
  | twgenI {b u : State} (h : WritesTo .ti (ResidueBelow b.n.toNat b.q.toNat) b u) : Does .twgenI b (.ended .ok u)
  | fntt {b u : State} (h : WritesTo .a (ResidueBelow b.n.toNat b.q.toNat) b u) : Does .fntt b (.ended .ok u)
  | intt {b u : State} (ninv : Nat) (h : WritesTo .a (ResidueBelow b.n.toNat b.q.toNat) (setNInv ninv b) u) :
      Does .intt b (.ended .ok u)
  | bitrev {b u : State} (h : WritesTo .a (fun i _ => i < b.n.toNat) b u) : Does .bitrev b (.ended .ok u)

theorem does_raise {i : Instr} {c : ErrCode} {b : State} {o : Finish} (h : raise c b = .next o) : Does i b o := by
  cases h; exact .nothing i c b

theorem does_withQ {i : Instr} {b : State} {k : Nat → Result Finish} {o : Finish} (h : withQ b k = .next o)
    (hk : k b.q.toNat = .next o → Does i b o) : Does i b o := by
  rcases withQ_cases b k with ⟨-, hcheck⟩ | ⟨-, hcheck⟩ <;> rw [hcheck] at h
  · exact does_raise h
  · exact hk h

theorem does_withN {i : Instr} {b : State} {k : Nat → Result Finish} {o : Finish} (h : withN b k = .next o)
    (hk : nValid b.n.toNat = true → k b.n.toNat = .next o → Does i b o) : Does i b o := by
  rcases withN_cases b k with ⟨-, hcheck⟩ | ⟨hn, hcheck⟩ <;> rw [hcheck] at h
  · exact does_raise h
  · exact hk hn h

theorem does_withNQ {i : Instr} {b : State} {k : Nat → Nat → Result Finish} {o : Finish} (h : withNQ b k = .next o)
    (hk : configured b → k b.n.toNat b.q.toNat = .next o → Does i b o) : Does i b o := by
  rcases withNQ_cases b k with ⟨-, hcheck⟩ | ⟨hconf, hcheck⟩ <;> rw [hcheck] at h
  · exact does_raise h
  · exact hk hconf h

/-- A loop that ends the pseudocode. -/
theorem andThen_finish_eq_next {r : Result State} {o : Finish} (h : andThen r finish = .next o) :
    ∃ u, r = .next u ∧ o = .ended .ok u := by
  obtain ⟨u, hu, ho⟩ := andThen_eq_next.mp h
  cases ho
  exact ⟨u, hu, rfl⟩

theorem does_mulmodBody {b : State} {o : Finish} (h : mulmodBody b = .next o) : Does .mulmod b o :=
  does_withQ h fun hk => by cases hk; exact .mulmod _ b

theorem does_modinvBody {b : State} {o : Finish} (h : modinvBody b = .next o) : Does .modinv b o := by
  refine does_withQ h fun hk => ?_
  cases hinv : modInv b.opa.toNat b.q.toNat with
  | none => rw [hinv] at hk; exact does_raise hk
  | some y => rw [hinv] at hk; cases hk; exact .modinv y b

theorem does_rndrangeBody {b : State} {o : Finish} (h : rndrangeBody b = .next o) : Does .rndrange b o := by
  unfold rndrangeBody at h
  split at h
  · exact does_raise h
  · cases h; exact .drawn ..
  · next d rest hstarved =>
    obtain ⟨hrange, hd⟩ := randRange_starved hstarved
    cases h
    exact .drawWaits rest hd hrange

theorem does_findrootBody {auto : Bool} {i : Instr} {b : State} {o : Finish}
    (hprepare : ∀ n q, Prepares i b (prepareR auto n q b)) (h : findrootBody auto b = .next o) : Does i b o := by
  refine does_withNQ h fun hconf hk => ?_
  dsimp only at hk
  have hb := hprepare b.n.toNat b.q.toNat
  generalize prepareR auto b.n.toNat b.q.toNat b = b' at hk hb
  have hrange : (rootSearch b.n.toNat b.q.toNat b'.r.toNat Config.attemptsMax 1 b'.entropy).inRange :=
    rootSearch_inRange le_rfl (Nat.add_comm ..) _
  cases hend : rootSearch b.n.toNat b.q.toNat b'.r.toNat Config.attemptsMax 1 b'.entropy with
  | found candidate attempt rest =>
    rw [hend] at hk hrange; cases hk
    exact .rootFound hb candidate rest hrange
  | invalidRange attempt =>
    rw [hend] at hk hrange; cases hk
    exact .rootFailed hb .invalidRange b'.entropy hrange
  | notFound attempt rest =>
    rw [hend] at hk hrange; cases hk
    exact .rootFailed hb .rootNotFound rest hrange
  | starved attempt d rest =>
    rw [hend] at hk hrange; cases hk
    obtain ⟨hfirst, hlast, hd⟩ := hrange
    exact .rootWaits hb rest hconf hfirst hlast hd

theorem does_twgenBody {i : Instr} {dest : Space} {b : State} {o : Finish} (h : twgenBody dest b = .next o)
    (hdoes : ∀ u, WritesTo dest (ResidueBelow b.n.toNat b.q.toNat) b u → Does i b (.ended .ok u)) : Does i b o := by
  refine does_withNQ h fun ⟨hq, hn⟩ hk => ?_
  obtain ⟨u, hu, rfl⟩ := andThen_finish_eq_next hk
  exact hdoes u (writesTo_powersLoop hq hn hu)

theorem does_fnttBody {b : State} {o : Finish} (h : fnttBody b = .next o) : Does .fntt b o := by
  refine does_withNQ h fun ⟨hq, _⟩ hk => ?_
  obtain ⟨u, hu, rfl⟩ := andThen_finish_eq_next hk
  exact .fntt (writesTo_fnttLoop hq hu)

theorem does_inttBody {b : State} {o : Finish} (h : inttBody b = .next o) : Does .intt b o := by
  refine does_withNQ h fun ⟨hq, _⟩ hk => ?_
  cases hinv : modInv b.n.toNat b.q.toNat with
  | none => rw [hinv] at hk; exact does_raise hk
  | some ninv =>
    rw [hinv] at hk
    obtain ⟨w, hstages, hscale⟩ := andThen_eq_next.mp hk
    obtain ⟨u, hu, rfl⟩ := andThen_finish_eq_next hscale
    exact .intt ninv ((writesTo_inttLoop hq hstages).trans (writesTo_scaleLoop hq hu))

theorem does_bitrevBody {b : State} {o : Finish} (h : bitrevBody b = .next o) : Does .bitrev b o := by
  refine does_withN h fun hn hk => ?_
  obtain ⟨old, -, hplace⟩ := andThen_eq_next.mp hk
  obtain ⟨u, hu, rfl⟩ := andThen_finish_eq_next hplace
  exact .bitrev (writesTo_bitrevLoop hn hu)

theorem does_commandBody {i : Instr} {b : State} {o : Finish} (h : commandBody i b = .next o) : Does i b o := by
  cases i with
  | nop => cases h; exact .nothing ..
  | rndrange => exact does_rndrangeBody h
  | findroot => exact does_findrootBody (auto := false) (fun _ _ => .host b) h
  | findrootA => exact does_findrootBody (auto := true) (fun _ _ => .auto _ b) h
  | twgenF => exact does_twgenBody h fun _ => .twgenF
  | twgenI => exact does_twgenBody h fun _ => .twgenI
  | fntt => exact does_fnttBody h
  | intt => exact does_inttBody h
  | bitrev => exact does_bitrevBody h
  | mulmod => exact does_mulmodBody h
  | modinv => exact does_modinvBody h

/-- The state a command leaves once its frame has closed. -/
def closed : Finish → State
  | .ended c u => completeCommand c u
  | .waiting u => u

theorem settle_eq_closed (o : Finish) : settle o = .next (closed o) := by
  cases o <;> rfl

theorem exec_eq_next {i : Instr} {s t : State} :
    exec i s = .next t ↔ ∃ o, commandBody i (beginCommand s) = .next o ∧ t = closed o := by
  simp only [exec_eq_runCommand, runCommand_eq_settle, andThen_eq_next, settle_eq_closed, Host.Outcome.next.injEq,
    eq_comm (a := t)]

/-- A command that answers is one of the cases of `Does`. -/
theorem does_of_exec {i : Instr} {s t : State} (h : exec i s = .next t) :
    ∃ o, Does i (beginCommand s) o ∧ t = closed o := by
  obtain ⟨o, ho, rfl⟩ := exec_eq_next.mp h
  exact ⟨o, does_commandBody ho, rfl⟩

/-! ### The frame of a command -/

/-- The registers and the fields of the environment that no command writes (10_state.md R34). -/
structure KeepsInputs (s t : State) : Prop where
  cmd : t.cmd = s.cmd
  n : t.n = s.n
  q : t.q = s.q
  psiInv : t.psiInv = s.psiInv
  opa : t.opa = s.opa
  opb : t.opb = s.opb
  env : t.env = s.env
  returned : t.returned = s.returned

theorem WritesTo.keepsInputs {sp : Space} {P : Nat → Word → Prop} {s t : State} (h : WritesTo sp P s t) :
    KeepsInputs s t := by
  obtain ⟨m, rfl⟩ := h.frame
  constructor <;> simp

theorem Does.keepsInputs {i : Instr} {s : State} {o : Finish} (h : Does i (beginCommand s) o) :
    KeepsInputs s (closed o) := by
  cases h with
  | rootFound hb | rootFailed hb | rootWaits hb => cases hb <;> exact ⟨rfl, rfl, rfl, rfl, rfl, rfl, rfl, rfl⟩
  | twgenF hw | twgenI hw | fntt hw | bitrev hw | intt ninv hw =>
    obtain ⟨hcmd, hn, hq, hpsiInv, hopa, hopb, henv, hreturned⟩ := hw.keepsInputs
    exact ⟨hcmd, hn, hq, hpsiInv, hopa, hopb, henv, hreturned⟩
  | _ => exact ⟨rfl, rfl, rfl, rfl, rfl, rfl, rfl, rfl⟩

/-- 10_state.md R34, R39: a word that a command changes is below `N`, and a residue except for BITREV's. -/
theorem Does.word {i : Instr} {s : State} {o : Finish} (h : Does i (beginCommand s) o) (sp : Space) (p : Nat) :
    memRead (spaceMem sp (closed o)) p = memRead (spaceMem sp s) p ∨
    ∃ v, memRead (spaceMem sp (closed o)) p = some v ∧ p < s.n.toNat ∧ (i ≠ .bitrev → v.toNat < s.q.toNat) := by
  cases h with
  | rootFound hb | rootFailed hb | rootWaits hb => cases hb <;> exact .inl rfl
  | twgenF hw | twgenI hw | fntt hw | intt ninv hw =>
    refine (hw.word_all sp p).imp_right ?_
    rintro ⟨v, hv, hlt, hresidue⟩
    exact ⟨v, hv, hlt, fun _ => hresidue⟩
  | bitrev hw =>
    refine (hw.word_all sp p).imp_right ?_
    rintro ⟨v, hv, hlt⟩
    exact ⟨v, hv, hlt, fun hne => absurd rfl hne⟩
  | _ => exact .inl rfl

/-- 10_state.md R34: the registers, memories and bytes of the source that only some commands write. -/
structure KeepsOutputs (i : Instr) (s t : State) : Prop where
  r : i ≠ .findrootA → t.r = s.r
  root : i ≠ .findroot → i ≠ .findrootA → t.psi = s.psi ∧ t.attempt = s.attempt
  nInv : i ≠ .intt → t.nInv = s.nInv
  res : i ≠ .rndrange → i ≠ .mulmod → i ≠ .modinv → t.res = s.res
  source : i ≠ .rndrange → i ≠ .findroot → i ≠ .findrootA → t.entropy = s.entropy ∧ t.seq = .idle
  a : i ≠ .fntt → i ≠ .intt → i ≠ .bitrev → t.a = s.a
  tf : i ≠ .twgenF → t.tf = s.tf
  ti : i ≠ .twgenI → t.ti = s.ti

theorem Does.keepsOutputs {i : Instr} {s : State} {o : Finish} (h : Does i (beginCommand s) o) :
    KeepsOutputs i s (closed o) := by
  cases h with
  | rootFound hb | rootFailed hb | rootWaits hb => cases hb <;> constructor <;> simp [closed]
  | twgenF hw | twgenI hw | fntt hw | bitrev hw | intt ninv hw =>
    obtain ⟨m, rfl⟩ := hw.frame
    constructor <;> simp [closed]
  | _ => constructor <;> simp [closed]

/-- Settles O12: the two halves of the frame, and the words at or above `N`. -/
theorem commandsWriteOnlyTheirState : Obligations.CommandsWriteOnlyTheirState := by
  unfold Obligations.CommandsWriteOnlyTheirState
  intro i s t h
  obtain ⟨o, hdoes, rfl⟩ := does_of_exec h
  obtain ⟨hcmd, hn, hq, hpsiInv, hopa, hopb, henv, hreturned⟩ := hdoes.keepsInputs
  obtain ⟨hr, hroot, hnInv, hres, hsource, ha, htf, hti⟩ := hdoes.keepsOutputs
  refine ⟨hcmd, hn, hq, hpsiInv, hopa, hopb, henv, hreturned, hr, hroot, hnInv, hres, hsource, ha, htf, hti, ?_⟩
  intro sp p hp
  rcases hdoes.word sp p with hkept | ⟨_, -, hlt, -⟩
  · exact hkept
  · exact absurd hlt (Nat.not_lt.mpr hp)

/-- Settles O13: none of the four commands is BITREV, which copies words without reducing them. -/
theorem writtenWordsAreResidues : Obligations.WrittenWordsAreResidues := by
  unfold Obligations.WrittenWordsAreResidues
  intro i s t hi h sp p v hv
  obtain ⟨o, hdoes, rfl⟩ := does_of_exec h
  have hne : i ≠ .bitrev := by rintro rfl; simp at hi
  rcases hdoes.word sp p with hkept | ⟨w, hw, -, hresidue⟩
  · exact .inr (hkept.symm.trans hv)
  · obtain rfl : v = w := Option.some.inj (hv.symm.trans hw)
    exact .inl (hresidue hne)

/-! ### The flags are not read -/

/-- The state with other flags and another `ERRCODE`. -/
def setFlags (st : Status) (e : Word) (s : State) : State := { s with status := st, errcode := e }

/-- The end of a pseudocode, with its state changed by `g`. -/
def Finish.map (g : State → State) : Finish → Finish
  | .ended c s => .ended c (g s)
  | .waiting s => .waiting (g s)

/-- An operation on the state that neither reads nor writes `STATUS` or `ERRCODE` (10_state.md R35). -/
structure FlagFree (f : State → Result State) : Prop where
  setFlags : ∀ st e s, f (setFlags st e s) = andThen (f s) fun t => .next (setFlags st e t)

/-- A pseudocode that neither reads nor writes `STATUS` or `ERRCODE`. -/
structure FlagFreeBody (body : State → Result Finish) : Prop where
  setFlags : ∀ st e s, body (setFlags st e s) = andThen (body s) fun o => .next (o.map (setFlags st e))

theorem spaceMem_setFlags (sp : Space) (st : Status) (e : Word) (s : State) :
    spaceMem sp (setFlags st e s) = spaceMem sp s := by
  cases sp <;> rfl

theorem readWord_setFlags (sp : Space) (i : Nat) (st : Status) (e : Word) (s : State) :
    readWord sp i (setFlags st e s) = readWord sp i s := by
  simp only [readWord, spaceMem_setFlags]

theorem readWords_setFlags (sp : Space) (st : Status) (e : Word) (s : State) (count i : Nat) :
    readWords sp (setFlags st e s) count i = readWords sp s count i := by
  induction count generalizing i with
  | zero => rfl
  | succ count ih => simp only [readWords, readWord_setFlags, ih]

theorem flagFree_writeWord (sp : Space) (i : Nat) (v : Word) : FlagFree (writeWord sp i v) where
  setFlags st e s := by
    unfold writeWord
    split_ifs
    · rw [spaceMem_setFlags]; cases sp <;> rfl
    · rfl

namespace FlagFree

theorem read {sp : Space} {i : Nat} {g : Word → State → Result State} (h : ∀ v, FlagFree (g v)) :
    FlagFree fun s => andThen (readWord sp i s) fun v => g v s where
  setFlags st e s := by
    rw [readWord_setFlags, andThen_assoc]
    congr 1
    funext v
    exact (h v).setFlags st e s

theorem seq {f g : State → Result State} (hf : FlagFree f) (hg : FlagFree g) :
    FlagFree fun s => andThen (f s) g where
  setFlags st e s := by
    rw [hf.setFlags, andThen_assoc, andThen_assoc]
    congr 1
    funext t
    exact hg.setFlags st e t

theorem forEach {α : Type} {f : α → State → Result State} (hf : ∀ x, FlagFree (f x)) (xs : List α) :
    FlagFree (forEach f xs) := by
  induction xs with
  | nil => exact ⟨fun _ _ _ => rfl⟩
  | cons x xs ih => exact (hf x).seq ih

/-- A pseudocode that goes on after an operation. -/
theorem body {f : State → Result State} {rest : State → Result Finish} (hf : FlagFree f) (hrest : FlagFreeBody rest) :
    FlagFreeBody fun s => andThen (f s) rest where
  setFlags st e s := by
    rw [hf.setFlags, andThen_assoc, andThen_assoc]
    congr 1
    funext t
    exact hrest.setFlags st e t

end FlagFree

theorem flagFree_fnttAt (n q : Nat) (p : LoopPos) : FlagFree (fnttAt n q p) :=
  .read fun _ => .read fun _ => .read fun _ => .seq (flagFree_writeWord ..) (flagFree_writeWord ..)

theorem flagFree_inttAt (n q : Nat) (p : LoopPos) : FlagFree (inttAt n q p) :=
  .read fun _ => .read fun _ => .read fun _ => .seq (flagFree_writeWord ..) (flagFree_writeWord ..)

theorem flagFree_scaleAt (q ninv j : Nat) : FlagFree (scaleAt q ninv j) :=
  .read fun _ => flagFree_writeWord ..

theorem flagFree_setNInv (ninv : Nat) : FlagFree fun s => .next (setNInv ninv s) := ⟨fun _ _ _ => rfl⟩

theorem flagFreeBody_finish : FlagFreeBody finish := ⟨fun _ _ _ => rfl⟩

theorem flagFreeBody_raise (c : ErrCode) : FlagFreeBody (raise c) := ⟨fun _ _ _ => rfl⟩

/-! The checks of the parameters read `N` and `Q` only. -/

theorem flagFreeBody_withQ {k : State → Nat → Result Finish} (hk : ∀ q, FlagFreeBody fun s => k s q) :
    FlagFreeBody fun s => withQ s (k s) where
  setFlags st e s := by
    show (if s.q.toNat = 0 then _ else _) = _
    unfold withQ
    split_ifs
    · rfl
    · exact (hk _).setFlags st e s

theorem flagFreeBody_withN {k : State → Nat → Result Finish} (hk : ∀ n, FlagFreeBody fun s => k s n) :
    FlagFreeBody fun s => withN s (k s) where
  setFlags st e s := by
    show (if nValid s.n.toNat = true then _ else _) = _
    unfold withN
    split_ifs
    · exact (hk _).setFlags st e s
    · rfl

theorem flagFreeBody_withNQ {k : State → Nat → Nat → Result Finish} (hk : ∀ n q, FlagFreeBody fun s => k s n q) :
    FlagFreeBody fun s => withNQ s (k s) where
  setFlags st e s := by
    show (if s.q.toNat ≠ 0 ∧ nValid s.n.toNat = true then _ else _) = _
    unfold withNQ
    split_ifs
    · exact (hk _ _).setFlags st e s
    · rfl

theorem flagFreeBody_rndrange : FlagFreeBody rndrangeBody where
  setFlags st e s := by
    have hrange : randRange (setFlags st e s).opa.toNat (setFlags st e s).opb.toNat (setFlags st e s).entropy =
      randRange s.opa.toNat s.opb.toNat s.entropy := rfl
    rw [rndrangeBody, rndrangeBody, hrange]
    cases randRange s.opa.toNat s.opb.toNat s.entropy <;> rfl

theorem prepareR_setFlags (auto : Bool) (n q : Nat) (st : Status) (e : Word) (s : State) :
    prepareR auto n q (setFlags st e s) = setFlags st e (prepareR auto n q s) := by
  cases auto <;> rfl

theorem flagFreeBody_findroot (auto : Bool) : FlagFreeBody (findrootBody auto) := by
  refine flagFreeBody_withNQ fun n q => ⟨fun st e s => ?_⟩
  dsimp only
  rw [prepareR_setFlags]
  generalize prepareR auto n q s = b
  have hsearch : rootSearch n q (setFlags st e b).r.toNat Config.attemptsMax 1 (setFlags st e b).entropy =
    rootSearch n q b.r.toNat Config.attemptsMax 1 b.entropy := rfl
  rw [hsearch]
  cases rootSearch n q b.r.toNat Config.attemptsMax 1 b.entropy <;> rfl

theorem flagFreeBody_twgen (dest : Space) : FlagFreeBody (twgenBody dest) := by
  refine flagFreeBody_withNQ fun n q => ⟨fun st e s => ?_⟩
  have hroot : twiddleRoot dest (setFlags st e s) = twiddleRoot dest s := by cases dest <;> rfl
  rw [hroot]
  exact ((FlagFree.forEach (fun _ => flagFree_writeWord ..) _).body flagFreeBody_finish).setFlags st e s

theorem flagFreeBody_fntt : FlagFreeBody fnttBody :=
  flagFreeBody_withNQ fun n q => (FlagFree.forEach (flagFree_fnttAt n q) _).body flagFreeBody_finish

theorem flagFreeBody_intt : FlagFreeBody inttBody := by
  refine flagFreeBody_withNQ fun n q => ?_
  cases modInv n q with
  | none => exact flagFreeBody_raise .notInvertible
  | some ninv =>
    have hscale := (FlagFree.forEach (flagFree_scaleAt q ninv) (List.range n)).body flagFreeBody_finish
    exact ((flagFree_setNInv ninv).seq (.forEach (flagFree_inttAt n q) _)).body hscale

theorem flagFreeBody_bitrev : FlagFreeBody bitrevBody := by
  refine flagFreeBody_withN fun n => ⟨fun st e s => ?_⟩
  rw [readWords_setFlags, andThen_assoc]
  congr 1
  funext old
  exact ((FlagFree.forEach (fun _ => flagFree_writeWord ..) _).body flagFreeBody_finish).setFlags st e s

theorem flagFreeBody_mulmod : FlagFreeBody mulmodBody :=
  flagFreeBody_withQ fun _ => ⟨fun _ _ _ => rfl⟩

theorem flagFreeBody_modinv : FlagFreeBody modinvBody := by
  refine flagFreeBody_withQ fun q => ⟨fun st e s => ?_⟩
  have hopa : (setFlags st e s).opa = s.opa := rfl
  rw [hopa]
  cases modInv s.opa.toNat q <;> rfl

theorem flagFreeBody_commandBody (i : Instr) : FlagFreeBody (commandBody i) := by
  cases i with
  | nop => exact flagFreeBody_finish
  | rndrange => exact flagFreeBody_rndrange
  | findroot => exact flagFreeBody_findroot false
  | findrootA => exact flagFreeBody_findroot true
  | twgenF => exact flagFreeBody_twgen .tf
  | twgenI => exact flagFreeBody_twgen .ti
  | fntt => exact flagFreeBody_fntt
  | intt => exact flagFreeBody_intt
  | bitrev => exact flagFreeBody_bitrev
  | mulmod => exact flagFreeBody_mulmod
  | modinv => exact flagFreeBody_modinv

theorem exec_setFlags (i : Instr) (st : Status) (e : Word) (s : State) :
    exec i (setFlags st e s) = andThen (commandBody i (beginCommand s)) fun o =>
      .next (closed (o.map (setFlags (statusAtStart st) e))) := by
  have hbegin : beginCommand (setFlags st e s) = setFlags (statusAtStart st) e (beginCommand s) := rfl
  rw [exec_eq_runCommand, runCommand_eq_settle, hbegin, (flagFreeBody_commandBody i).setFlags, andThen_assoc]
  simp only [andThen_next, settle_eq_closed]

/-- A command that waits has the flags with which it began, and a position that is not `IDLE`. -/
theorem Does.waiting {i : Instr} {b w : State} (h : Does i b (.waiting w)) :
    w.status = b.status ∧ w.errcode = b.errcode ∧ w.seq ≠ .idle := by
  cases h with
  | drawWaits => exact ⟨rfl, rfl, by simp⟩
  | rootWaits hb => cases hb <;> exact ⟨rfl, rfl, by simp⟩

theorem errCodeWord_ne_zero (c : ErrCode) : errCodeWord c ≠ 0 ↔ isError c = true := by
  cases c <;> decide

/-- Settles O11: the two runs of the pseudocode give the same end with other flags, so only the frame of the command
makes a difference: the sticky flag at a completion, `ERRCODE` and the sticky flag in a wait. -/
theorem commandsIgnoreTheFlags : Obligations.CommandsIgnoreTheFlags := by
  unfold Obligations.CommandsIgnoreTheFlags
  intro i s st e
  have hexec : exec i { s with status := st, errcode := e } = _ := exec_setFlags i st e s
  constructor
  · intro t h
    obtain ⟨o, ho, rfl⟩ := exec_eq_next.mp h
    refine ⟨closed (o.map (setFlags (statusAtStart st) e)), by rw [hexec, ho]; rfl, ?_⟩
    cases o with
    | ended c u =>
      refine ⟨rfl, fun _ => rfl, ?_⟩
      show (st.errs || isError c) = true ↔ st.errs = true ∨ Seq.idle = Seq.idle ∧ errCodeWord c ≠ 0
      rw [errCodeWord_ne_zero, Bool.or_eq_true]
      simp
    | waiting w =>
      obtain ⟨hstatus, -, hbusy⟩ := (does_commandBody ho).waiting
      refine ⟨?_, fun hidle => absurd hidle hbusy, ?_⟩
      · show setFlags (statusAtStart st) e w = setFlags { w.status with errs := st.errs } e w
        rw [hstatus]
        rfl
      · show st.errs = true ↔ st.errs = true ∨ w.seq = .idle ∧ w.errcode ≠ 0
        simp [hbusy]
  · intro f h
    rw [exec_eq_runCommand, runCommand_eq_refused] at h
    rw [hexec, h]
    rfl

end Sys2Proof.Machine
end

section
/-! What a step of the block can do (10_state.md R20 to R40, 70_reset_and_hazards.md): the reset state and the constant
words; the host's writes; what is kept of `CMD`; and the invariant of the block. -/

namespace Sys2Proof.Machine

/-! ### Reset, CAPS and the word of STATUS -/

/-- Settles O1: the reset state is a literal, and its `Q` and `N` fail the checks of the commands that read them. -/
theorem resetLeavesZerosAndNoMemory : Obligations.ResetLeavesZerosAndNoMemory := by
  unfold Obligations.ResetLeavesZerosAndNoMemory
  have hunwritten : ∀ sp i, memRead (spaceMem sp State.reset) i = none := by
    intro sp i
    cases sp <;> rfl
  refine ⟨?_, rfl, rfl, hunwritten, ?_, ?_⟩
  · intro reg hreg
    cases reg with
    | caps => exact absurd rfl hreg
    | _ => rfl
  · intro sp i hi
    exact readWord_eq_refused.mpr ⟨hi, hunwritten sp i, rfl⟩
  · intro i hnop hrndrange
    cases i with
    | nop => exact absurd rfl hnop
    | rndrange => exact absurd rfl hrndrange
    | _ => rfl

/-- Settles O18: CAPS is not a field of the state, so neither a command nor a host write can reach it. -/
theorem capsIsAConstant : Obligations.CapsIsAConstant := by
  unfold Obligations.CapsIsAConstant
  refine ⟨fun s => ?_, fun s v rest hidle henv => ?_⟩
  · show capsWord.extractLsb' 0 8 = 32#8 ∧ capsWord.extractLsb' 8 8 = 10#8 ∧ capsWord.extractLsb' 16 16 = 0#16
    decide
  · rw [step_idle_cons hidle henv]
    rfl

/-- The four flags side by side, below zeros (10_state.md R22). -/
theorem statusWord_eq_append (st : Status) : statusWord st =
    (BitVec.ofBool st.errs ++ BitVec.ofBool st.err ++ BitVec.ofBool st.done ++ BitVec.ofBool st.busy).setWidth 32 := by
  obtain ⟨busy, done, err, errs⟩ := st
  revert busy done err errs
  decide

/-- Settles O19, from the flags side by side. -/
theorem statusWordHasFourFlags : Obligations.StatusWordHasFourFlags := by
  unfold Obligations.StatusWordHasFourFlags
  intro st b
  rw [statusWord_eq_append, BitVec.getLsbD_setWidth]
  simp only [BitVec.getLsbD_append, BitVec.getLsbD_ofBool]
  match b with
  | 0 | 1 | 2 | 3 | b + 4 => simp

/-! ### The host's writes -/

theorem eq_zero_of_regAtOffset {o : Nat} (h : regAtOffset o = some .cmd) : o = 0 := by
  unfold regAtOffset at h
  split at h <;> simp_all

/-- The only host address of `CMD` (20_memory.md R60, 10_state.md R20). -/
theorem eq_regAddr_cmd {addr : Addr} (hregion : regionSpace (addrRegion addr) = none)
    (hreg : regAtOffset (addrOffset addr) = some .cmd) : addr = regAddr .cmd := by
  have hlow : addr.toNat % 1024 = 0 := eq_zero_of_regAtOffset hreg
  have hhigh : addr.toNat / 1024 = 0 := by
    change regionSpace (addr.toNat / 1024) = none at hregion
    have hlt : addr.toNat / 1024 < 4 := by omega
    interval_cases addr.toNat / 1024 <;> simp_all [regionSpace]
  have hzero : addr.toNat = 0 := by omega
  exact BitVec.eq_of_toNat_eq hzero

/-- What a host write to an idle block can do (20_memory.md R63): start a command, write a word of `A`, acknowledge, or
write registers that only the host writes or that a command reads. -/
theorem hostWrite_cases {addr : Addr} {v : Word} {s t : State} (h : hostWrite addr v s = .next t) :
    (addr = regAddr .cmd ∧ writeCmd v s = .next t) ∨ WritesTo .a (fun _ _ => True) s t ∨ t = acknowledge v s ∨
    ∃ n q r psi psiInv opa opb,
      t = { s with n := n, q := q, r := r, psi := psi, psiInv := psiInv, opa := opa, opb := opb } := by
  unfold hostWrite at h
  split at h
  · exact .inr (.inl ((writesTo_writeWord h).mono fun _ _ _ => trivial))
  · cases h; exact .inr (.inr (.inr ⟨_, _, _, _, _, _, _, rfl⟩))
  · cases h; exact .inr (.inr (.inr ⟨_, _, _, _, _, _, _, rfl⟩))
  · next hregion =>
    split at h
    · next reg hreg =>
      cases reg with
      | cmd => exact .inl ⟨eq_regAddr_cmd hregion hreg, h⟩
      | status => cases h; exact .inr (.inr (.inl rfl))
      | _ => cases h; exact .inr (.inr (.inr ⟨_, _, _, _, _, _, _, rfl⟩))
    · cases h; exact .inr (.inr (.inr ⟨_, _, _, _, _, _, _, rfl⟩))

/-- What a write to `CMD` can do: a legal command, or the completion with ERR_ILLEGAL_CMD (30_encoding.md R84, R86). -/
theorem writeCmd_cases {v : Word} {s t : State} (h : writeCmd v s = .next t) :
    (∃ i, exec i { s with cmd := v } = .next t) ∨ t = completeCommand .illegalCmd { s with cmd := v } := by
  unfold writeCmd at h
  split at h
  · exact .inl ⟨_, h⟩
  · cases h; exact .inr rfl

/-- What a block whose command waits does with an event (70_reset_and_hazards.md R230). -/
theorem takeEventBusy_cases {e : Event} {s t : State} (h : takeEventBusy e s = .next t) :
    (∃ words, t = { s with returned := words }) ∨ (∃ bs, t = deliverEntropy bs s) ∨ (e = .reset ∧ t = resetBlock s) := by
  unfold takeEventBusy at h
  split at h
  · split_ifs at h
    obtain ⟨v, -, rfl⟩ := hostRead_eq_next.mp h
    exact .inl ⟨_, rfl⟩
  · cases h
  · cases h; exact .inr (.inl ⟨_, rfl⟩)
  · cases h; exact .inr (.inr ⟨rfl, rfl⟩)

/-- What an idle block does with an event. -/
theorem takeEvent_cases {e : Event} {s t : State} (h : takeEvent e s = .next t) :
    (∃ words, t = { s with returned := words }) ∨ (∃ bs, t = deliverEntropy bs s) ∨ (e = .reset ∧ t = resetBlock s) ∨
    ∃ addr v, e = .host (.wr addr v) ∧ hostWrite addr v s = .next t := by
  unfold takeEvent at h
  split at h
  · next transaction =>
    cases transaction with
    | rd addr =>
      obtain ⟨v, -, rfl⟩ := hostRead_eq_next.mp h
      exact .inl ⟨_, rfl⟩
    | wr addr v => exact .inr (.inr (.inr ⟨addr, v, rfl, h⟩))
  · cases h; exact .inr (.inl ⟨_, rfl⟩)
  · cases h; exact .inr (.inr (.inl ⟨rfl, rfl⟩))

/-- What a step of an idle block can do. -/
theorem step_idle_cases {s t : State} (hidle : s.seq = .idle) (h : step s = .next t) :
    (s.env = [] ∧ t = s) ∨ ∃ e rest, s.env = e :: rest ∧ takeEvent e { s with env := rest } = .next t := by
  cases henv : s.env with
  | nil =>
    rw [step_idle_nil hidle henv] at h
    cases h
    exact .inl ⟨rfl, rfl⟩
  | cons e rest =>
    rw [step_idle_cons hidle henv] at h
    exact .inr ⟨e, rest, rfl, h⟩

/-- What a step of a block with a command in progress can do. -/
theorem step_busy_cases {s t : State} (hbusy : s.seq ≠ .idle) (h : step s = .next t) :
    (∃ rest, s.env = .reset :: rest ∧ t = resetBlock { s with env := rest }) ∨ microStep s = .next (some t) ∨
    ∃ words env bs, t = { s with returned := words, env := env, entropy := bs } := by
  rw [step_busy hbusy] at h
  by_cases hreset : ∃ rest, s.env = .reset :: rest
  · obtain ⟨rest, henv⟩ := hreset
    rw [busyStep_reset henv] at h
    cases h
    exact .inl ⟨rest, henv, rfl⟩
  · have hnoreset : ∀ rest, s.env ≠ .reset :: rest := fun rest henv => hreset ⟨rest, henv⟩
    rcases busyStep_cases hnoreset with ⟨u, hu, hb⟩ | ⟨-, hb⟩ | ⟨e, -, hb⟩ | ⟨e, -, hb⟩ <;> rw [hb] at h
    · cases h; exact .inr (.inl hu)
    · refine .inr (.inr ?_)
      unfold waitingStep at h
      split at h
      · cases h; exact ⟨_, _, _, rfl⟩
      · next e rest henv =>
        rcases takeEventBusy_cases h with ⟨words, rfl⟩ | ⟨bs, rfl⟩ | ⟨rfl, -⟩
        · exact ⟨_, _, _, rfl⟩
        · exact ⟨_, _, _, rfl⟩
        · exact absurd henv (hnoreset rest)
    · cases h
    · cases h

/-! ### CMD -/

theorem exec_cmd {i : Instr} {s t : State} (h : exec i s = .next t) : t.cmd = s.cmd := by
  obtain ⟨o, hdoes, rfl⟩ := does_of_exec h
  exact hdoes.keepsInputs.cmd

theorem writeCmd_cmd {v : Word} {s t : State} (h : writeCmd v s = .next t) : t.cmd = v := by
  rcases writeCmd_cases h with ⟨i, hi⟩ | rfl
  · exact exec_cmd hi
  · rfl

theorem rootStep_cmd {k : Nat} {phase : RootPhase} {s t : State} (h : rootStep k phase s = some t) : t.cmd = s.cmd := by
  rcases rootStep_cases k phase s t h with ⟨c, rfl, -⟩ | ⟨candidate, rfl⟩ | ⟨ph, bs, rfl⟩ | ⟨-, rfl⟩ <;> rfl

theorem rndrangeStep_cmd {d : Nat} {s t : State} (h : rndrangeStep d s = some t) : t.cmd = s.cmd := by
  unfold rndrangeStep at h
  split at h <;> cases h <;> rfl

theorem cmd_of_pass {r : Result State} {g : State → State} {s t : State} (hr : ∀ u, r = .next u → KeepsInputs s u)
    (hg : ∀ u, (g u).cmd = u.cmd) (h : (andThen r fun u => .next (some (g u))) = .next (some t)) : t.cmd = s.cmd := by
  obtain ⟨u, hu, ht⟩ := andThen_eq_next.mp h
  cases ht
  rw [hg, (hr u hu).cmd]

/-- No micro-step writes `CMD` (10_state.md R21, R34), at any position and from any state. -/
theorem microStep_cmd {s t : State} (h : microStep s = .next (some t)) : t.cmd = s.cmd := by
  cases hpos : s.seq with
  | idle => simp only [microStep, hpos] at h; cases h
  | fntt m i j =>
    simp only [microStep, hpos] at h
    refine cmd_of_pass (fun _ hu => (writesTo_fnttAt hu).keepsInputs) (fun u => ?_) h
    unfold fnttAdvance
    split <;> rfl
  | intt m i j =>
    simp only [microStep, hpos] at h
    refine cmd_of_pass (fun _ hu => (writesTo_inttAt hu).keepsInputs) (fun u => ?_) h
    unfold inttAdvance
    split <;> rfl
  | inttScale j =>
    simp only [microStep, hpos] at h
    refine cmd_of_pass (fun _ hu => (writesTo_scaleAt hu).keepsInputs) (fun u => ?_) h
    split_ifs <;> rfl
  | twgenPow dest i power powers => simp only [microStep, hpos] at h; cases h; rfl
  | twgenPerm dest i left =>
    cases left with
    | nil => simp only [microStep, hpos] at h; cases h; rfl
    | cons p ps =>
      simp only [microStep, hpos] at h
      refine cmd_of_pass (fun _ hu => (writesTo_writeWord hu).keepsInputs) (fun u => ?_) h
      split_ifs <;> rfl
  | bitrev i left =>
    cases left with
    | nil => simp only [microStep, hpos] at h; cases h; rfl
    | cons w ws =>
      simp only [microStep, hpos] at h
      refine cmd_of_pass (fun _ hu => (writesTo_writeWord hu).keepsInputs) (fun u => ?_) h
      split_ifs <;> rfl
  | root k phase => simp only [microStep, hpos] at h; exact rootStep_cmd (Host.Outcome.next.inj h)
  | draw d => simp only [microStep, hpos] at h; exact rndrangeStep_cmd (Host.Outcome.next.inj h)

/-- A host write that is not to `CMD` keeps it. -/
theorem hostWrite_cmd {addr : Addr} {v : Word} {s t : State} (hne : addr ≠ regAddr .cmd)
    (h : hostWrite addr v s = .next t) : t.cmd = s.cmd := by
  rcases hostWrite_cases h with ⟨hcmd, -⟩ | hword | rfl | ⟨_, _, _, _, _, _, _, rfl⟩
  · exact absurd hcmd hne
  · exact hword.keepsInputs.cmd
  · rfl
  · rfl

/-- An event that is neither a reset nor a write to `CMD` keeps it. -/
theorem takeEvent_cmd {e : Event} {s t : State} (hreset : e ≠ .reset) (hwrite : ∀ v, e ≠ .host (.wr (regAddr .cmd) v))
    (h : takeEvent e s = .next t) : t.cmd = s.cmd := by
  rcases takeEvent_cases h with ⟨words, rfl⟩ | ⟨bs, rfl⟩ | ⟨he, -⟩ | ⟨addr, v, rfl, hw⟩
  · rfl
  · rfl
  · exact absurd he hreset
  · exact hostWrite_cmd (by rintro rfl; exact hwrite v rfl) hw

theorem step_cmd {s t : State} (hreset : noResetDue s)
    (hwrite : s.seq = .idle → ∀ v rest, s.env ≠ .host (.wr (regAddr .cmd) v) :: rest) (h : step s = .next t) :
    t.cmd = s.cmd := by
  by_cases hidle : s.seq = .idle
  · rcases step_idle_cases hidle h with ⟨-, rfl⟩ | ⟨e, rest, henv, he⟩
    · rfl
    · refine takeEvent_cmd (s := { s with env := rest }) ?_ ?_ he
      · rintro rfl; exact hreset rest henv
      · rintro v rfl; exact hwrite hidle v rest henv
  · rcases step_busy_cases hidle h with ⟨rest, henv, -⟩ | hmicro | ⟨_, _, _, rfl⟩
    · exact absurd henv (hreset rest)
    · exact microStep_cmd hmicro
    · rfl

/-- Settles O20: the write that is taken, every other step, and the read. -/
theorem cmdHoldsTheLastWordWritten : Obligations.CmdHoldsTheLastWordWritten := by
  unfold Obligations.CmdHoldsTheLastWordWritten
  intro s t h
  refine ⟨fun v rest hidle henv => ?_, fun hreset hwrite => step_cmd hreset hwrite h, fun rest hidle henv => ?_⟩
  · rw [step_idle_cons hidle henv] at h
    exact writeCmd_cmd (s := { s with env := rest }) h
  · rw [step_idle_cons hidle henv] at h
    exact (Host.Outcome.next.inj h).symm

/-! ### The invariant: states between commands -/

theorem Does.wf {i : Instr} {b : State} {o : Finish} (h : Does i b o) (hb : ∀ sp, Memory.wf (spaceMem sp b) = true)
    (sp : Space) : Memory.wf (spaceMem sp (closed o)) = true := by
  cases h with
  | rootFound hp | rootFailed hp | rootWaits hp => cases hp <;> exact hb sp
  | twgenF hw | twgenI hw | fntt hw | bitrev hw | intt ninv hw => exact hw.wf_all hb sp
  | _ => exact hb sp

theorem toWord_attempt {k : Nat} (h : k ≤ Config.attemptsMax) : (toWord k).toNat ≤ 50 := by
  rw [toWord, BitVec.toNat_ofNat]
  exact (Nat.mod_le _ _).trans h

theorem Does.attempt_le {i : Instr} {b : State} {o : Finish} (h : Does i b o) (hb : b.attempt.toNat ≤ 50) :
    (closed o).attempt.toNat ≤ 50 := by
  cases h with
  | rootFound hp c rest hattempt | rootFailed hp c rest hattempt | rootWaits hp rest hconf hfirst hattempt hd =>
    exact toWord_attempt hattempt
  | twgenF hw | twgenI hw | fntt hw | bitrev hw | intt ninv hw =>
    obtain ⟨m, rfl⟩ := hw.frame
    simpa [closed] using hb
  | _ => exact hb

/-- A command that waits does so in the ranges of 10_state.md R40. -/
theorem Does.seqInv {i : Instr} {b w : State} (h : Does i b (.waiting w)) : seqInv w := by
  cases h with
  | drawWaits rest hd hrange => exact ⟨hd, hrange⟩
  | rootWaits hp rest hconf hfirst hattempt hd => cases hp <;> exact ⟨hfirst, hattempt, rfl, hconf, hd⟩

theorem errCodeWord_le (c : ErrCode) : (errCodeWord c).toNat ≤ 5 := by
  cases c <;> decide

/-- Every completion leaves a state with the invariant (10_state.md R35). -/
theorem blockInv_completeCommand {s : State} (c : ErrCode) (hwf : ∀ sp, Memory.wf (spaceMem sp s) = true)
    (hattempt : s.attempt.toNat ≤ 50) : blockInv (completeCommand c s) := by
  refine ⟨hwf, errCodeWord_le c, hattempt, ?_, fun _ => (errCodeWord_ne_zero c).symm, ?_, ?_, trivial⟩
  · simp [statusAtCompletion]
  · intro _ hdone; cases hdone
  · intro hbusy; exact absurd rfl hbusy

/-- The invariant of a state whose command is in progress (70_reset_and_hazards.md R230). -/
theorem blockInv_busy {s : State} {st : Status} (hwf : ∀ sp, Memory.wf (spaceMem sp s) = true)
    (herrcode : s.errcode.toNat ≤ 5) (hattempt : s.attempt.toNat ≤ 50) (hstatus : s.status = busyStatus st)
    (hbusy : s.seq ≠ .idle) (hseq : seqInv s) : blockInv s := by
  refine ⟨hwf, herrcode, hattempt, ?_, fun hidle => absurd hidle hbusy, fun hidle => absurd hidle hbusy, ?_, hseq⟩
  · simp [hstatus, busyStatus, hbusy]
  · intro _; rw [hstatus]; exact ⟨rfl, rfl⟩

theorem exec_blockInv {i : Instr} {s t : State} (hs : blockInv s) (h : exec i s = .next t) : blockInv t := by
  obtain ⟨hwf, herrcode, hattempt, -⟩ := hs
  obtain ⟨o, hdoes, rfl⟩ := does_of_exec h
  have hwf' := hdoes.wf hwf
  have hattempt' := hdoes.attempt_le hattempt
  cases o with
  | ended c u => exact blockInv_completeCommand c hwf' hattempt'
  | waiting w =>
    obtain ⟨hstatus, hcode, hbusy⟩ := hdoes.waiting
    have herrcode' : w.errcode.toNat ≤ 5 := by rw [hcode]; exact herrcode
    exact blockInv_busy hwf' herrcode' hattempt' hstatus hbusy hdoes.seqInv

theorem resetBlock_blockInv (s : State) : blockInv (resetBlock s) := by
  refine ⟨fun sp => by cases sp <;> rfl, Nat.zero_le 5, Nat.zero_le 50, ?_, ?_, ?_, ?_, trivial⟩
  · simp [resetBlock, State.reset]
  · simp [resetBlock, State.reset]
  · simp [resetBlock, State.reset]
  · intro hbusy; exact absurd rfl hbusy

/-- Settles O58: the reset state is what a reset makes of itself. -/
theorem resetHasTheBlockInvariant : Obligations.ResetHasTheBlockInvariant :=
  resetBlock_blockInv State.reset

/-! ### The invariant: the micro-steps of a wait -/

/-- Square-and-multiply gives the power (40_modular_arithmetic.md R104). -/
theorem modExpBits_eq {q fuel b e : Nat} (he : e < 2 ^ fuel) : modExpBits q fuel b e = b ^ e % q := by
  induction fuel generalizing b e with
  | zero => simp [modExpBits, show e = 0 by omega]
  | succ fuel ih =>
    have hhalf : modExpBits q fuel (mulMod b b q) (e / 2) = b ^ (2 * (e / 2)) % q := by
      rw [ih (by omega), mulMod, ← Nat.pow_mod, ← sq, ← pow_mul]
    simp only [modExpBits, hhalf]
    split_ifs with hzero hodd
    · rw [hzero, pow_zero]
    · rw [mulMod, Nat.mul_mod_mod, ← pow_succ', show 2 * (e / 2) + 1 = e by omega]
    · rw [show 2 * (e / 2) = e by omega]

theorem modExp_eq (b e q : Nat) : modExp b e q = b ^ e % q := modExpBits_eq Nat.lt_log2_self

theorem modExp_lt (b e : Nat) {q : Nat} (hq : q ≠ 0) : modExp b e q < q := by
  rw [modExp_eq]
  exact Nat.mod_lt _ (Nat.pos_of_ne_zero hq)

theorem drawOnce_accepted_le {min span x : Nat} {bs rest : List Byte} (h : drawOnce min span bs = .accepted x rest) :
    min ≤ x ∧ x ≤ min + span := by
  rcases drawOnce_cases min span bs with ⟨-, hd⟩ | ⟨-, hle, hd⟩ | ⟨-, -, hd⟩ <;> rw [hd] at h <;> cases h
  exact ⟨Nat.le_add_right .., Nat.add_le_add_left hle min⟩

theorem status_of_busy {s : State} (hs : blockInv s) (hbusy : s.seq ≠ .idle) : s.status = busyStatus s.status := by
  obtain ⟨-, -, -, hbit, -, -, hflags, -⟩ := hs
  obtain ⟨hdone, herr⟩ := hflags hbusy
  have hset := hbit.mpr hbusy
  generalize s.status = st at hset hdone herr ⊢
  obtain ⟨busy, done, err, errs⟩ := st
  cases hset; cases hdone; cases herr
  rfl

/-- The invariant of a state that goes on waiting, or goes on searching, after a micro-step that took bytes only. -/
theorem blockInv_setSeq {s : State} (hs : blockInv s) (hbusy : s.seq ≠ .idle) {p : Seq} (hp : p ≠ .idle) (bs : List Byte)
    (hseq : seqInv (setSeq p (setEntropy bs s))) : blockInv (setSeq p (setEntropy bs s)) := by
  obtain ⟨hwf, herrcode, hattempt, -⟩ := id hs
  have hstatus := status_of_busy hs hbusy
  exact blockInv_busy hwf herrcode hattempt hstatus hp hseq

theorem rndrangeStep_blockInv {d : Nat} {s t : State} (hs : blockInv s) (hd : s.seq = .draw d)
    (h : rndrangeStep d s = some t) : blockInv t := by
  obtain ⟨hwf, -, hattempt, -, -, -, -, hseq⟩ := id hs
  simp only [seqInv, hd] at hseq
  obtain ⟨hfirst, hrange⟩ := hseq
  unfold rndrangeStep at h
  split at h
  · cases h; exact blockInv_completeCommand .ok hwf hattempt
  · cases h; exact blockInv_setSeq hs (by simp [hd]) (by simp) _ ⟨hfirst.trans (Nat.le_succ d), hrange⟩
  · cases h

/-- The phases of an attempt keep the ranges of their scratch values (10_state.md R40, R41, 42_primitive_root_search.md
R139). -/
theorem rootStep_blockInv {k : Nat} {phase : RootPhase} {s t : State} (hs : blockInv s) (hroot : s.seq = .root k phase)
    (h : rootStep k phase s = some t) : blockInv t := by
  obtain ⟨hwf, herrcode, hattempt, -, -, -, -, hseq⟩ := id hs
  have hbusy : s.seq ≠ .idle := by simp [hroot]
  simp only [seqInv, hroot] at hseq
  obtain ⟨hfirst, hlast, hreg, hconf, hphase⟩ := hseq
  have hq : s.q.toNat ≠ 0 := hconf.1
  cases phase with
  | draw d =>
    simp only [rootStep] at h
    split_ifs at h with hempty hsingle
    · cases h; exact blockInv_completeCommand .invalidRange hwf hattempt
    · cases h
      have htwo : 2 < s.q.toNat := by omega
      exact blockInv_setSeq hs hbusy (by simp) s.entropy ⟨hfirst, hlast, hreg, hconf, le_rfl, htwo⟩
    · split at h
      · next x rest haccepted =>
        cases h
        obtain ⟨hlow, hhigh⟩ := drawOnce_accepted_le haccepted
        have hx : x < s.q.toNat := by omega
        exact blockInv_setSeq hs hbusy (by simp) rest ⟨hfirst, hlast, hreg, hconf, hlow, hx⟩
      · cases h
        exact blockInv_setSeq hs hbusy (by simp) _ ⟨hfirst, hlast, hreg, hconf, Nat.le_add_left 1 d⟩
      · cases h
  | expR x =>
    cases h
    exact blockInv_setSeq hs hbusy (by simp) s.entropy ⟨hfirst, hlast, hreg, hconf, modExp_lt _ _ hq⟩
  | expN candidate =>
    cases h
    exact blockInv_setSeq hs hbusy (by simp) s.entropy ⟨hfirst, hlast, hreg, hconf, hphase, modExp_eq _ _ _⟩
  | test candidate chk =>
    simp only [rootStep] at h
    split_ifs at h with haccepted hmore
    · cases h; exact blockInv_completeCommand .ok hwf hattempt
    · cases h
      have hnext : k + 1 ≤ Config.attemptsMax := hmore
      have hseq : seqInv (enterAttempt (k + 1) s) := ⟨Nat.le_add_left 1 k, hnext, rfl, hconf, le_rfl⟩
      have hstatus := status_of_busy hs hbusy
      exact blockInv_busy hwf herrcode (toWord_attempt hnext) hstatus (by simp [enterAttempt]) hseq
    · cases h; exact blockInv_completeCommand .rootNotFound hwf hattempt

/-- Between two steps only a draw or a root search is in progress, so only their micro-steps are seen. -/
theorem microStep_blockInv {s t : State} (hs : blockInv s) (h : microStep s = .next (some t)) : blockInv t := by
  obtain ⟨-, -, -, -, -, -, -, hseq⟩ := id hs
  cases hpos : s.seq with
  | idle => simp only [microStep, hpos] at h; cases h
  | draw d =>
    simp only [microStep, hpos] at h
    exact rndrangeStep_blockInv hs hpos (Host.Outcome.next.inj h)
  | root k phase =>
    simp only [microStep, hpos] at h
    exact rootStep_blockInv hs hpos (Host.Outcome.next.inj h)
  | _ => simp only [seqInv, hpos] at hseq

/-! ### The invariant: events -/

/-- An idle block keeps the invariant when its flags change at most by the sticky flag cleared, and its results not at
all. -/
theorem blockInv_of_idle {s t : State} (hs : blockInv s) (hidle : s.seq = .idle)
    (hwf : ∀ sp, Memory.wf (spaceMem sp t) = true) (herrcode : t.errcode = s.errcode) (hattempt : t.attempt = s.attempt)
    (hseq : t.seq = s.seq) (hstatus : t.status = s.status ∨ t.status = { s.status with errs := false }) :
    blockInv t := by
  obtain ⟨-, hcode, hcount, hbit, herr, hnever, -, -⟩ := hs
  have hidle' : t.seq = .idle := hseq.trans hidle
  have hpos : seqInv t := by simp [seqInv, hidle']
  rw [← hseq, ← herrcode] at herr hnever
  rw [← hseq] at hbit
  rw [← herrcode] at hcode
  rw [← hattempt] at hcount
  rcases hstatus with hkept | hcleared
  · rw [← hkept] at hbit herr hnever
    exact ⟨hwf, hcode, hcount, hbit, herr, hnever, fun hbusy => absurd hidle' hbusy, hpos⟩
  · refine ⟨hwf, hcode, hcount, ?_, ?_, ?_, fun hbusy => absurd hidle' hbusy, hpos⟩ <;> rw [hcleared]
    · exact hbit
    · exact herr
    · exact fun _ hdone => ⟨(hnever hidle' hdone).1, rfl⟩

theorem statusAtWrite_cases (v : Word) (st : Status) :
    statusAtWrite v st = st ∨ statusAtWrite v st = { st with errs := false } := by
  unfold statusAtWrite
  split_ifs
  · exact .inr rfl
  · exact .inl rfl

theorem writeCmd_blockInv {v : Word} {s t : State} (hs : blockInv s) (h : writeCmd v s = .next t) : blockInv t := by
  rcases writeCmd_cases h with ⟨i, hexec⟩ | rfl
  · exact exec_blockInv (s := { s with cmd := v }) hs hexec
  · obtain ⟨hwf, -, hattempt, -⟩ := hs
    exact blockInv_completeCommand (s := { s with cmd := v }) .illegalCmd hwf hattempt

theorem hostWrite_blockInv {addr : Addr} {v : Word} {s t : State} (hs : blockInv s) (hidle : s.seq = .idle)
    (h : hostWrite addr v s = .next t) : blockInv t := by
  obtain ⟨hwf, -⟩ := id hs
  rcases hostWrite_cases h with ⟨-, hcmd⟩ | hword | rfl | ⟨n, q, r, psi, psiInv, opa, opb, rfl⟩
  · exact writeCmd_blockInv hs hcmd
  · have hwf' := hword.wf_all hwf
    obtain ⟨m, rfl⟩ := hword.frame
    exact blockInv_of_idle hs hidle hwf' rfl rfl rfl (.inl rfl)
  · exact blockInv_of_idle hs hidle hwf rfl rfl rfl (statusAtWrite_cases v s.status)
  · exact blockInv_of_idle hs hidle hwf rfl rfl rfl (.inl rfl)

theorem takeEvent_blockInv {e : Event} {s t : State} (hs : blockInv s) (hidle : s.seq = .idle)
    (h : takeEvent e s = .next t) : blockInv t := by
  rcases takeEvent_cases h with ⟨words, rfl⟩ | ⟨bs, rfl⟩ | ⟨-, rfl⟩ | ⟨addr, v, -, hw⟩
  · exact hs
  · exact hs
  · exact resetBlock_blockInv s
  · exact hostWrite_blockInv hs hidle hw

/-- Settles O59: an idle block takes an event or does nothing; a block whose command waits is reset, makes a micro-step of
its draw or of its search, or goes on waiting. -/
theorem everyStepKeepsTheBlockInvariant : Obligations.EveryStepKeepsTheBlockInvariant := by
  unfold Obligations.EveryStepKeepsTheBlockInvariant
  intro s t hs h
  by_cases hidle : s.seq = .idle
  · rcases step_idle_cases hidle h with ⟨-, rfl⟩ | ⟨e, rest, -, he⟩
    · exact hs
    · exact takeEvent_blockInv (s := { s with env := rest }) hs hidle he
  · rcases step_busy_cases hidle h with ⟨rest, -, rfl⟩ | hmicro | ⟨words, env, bs, rfl⟩
    · exact resetBlock_blockInv _
    · exact microStep_blockInv hs hmicro
    · exact hs

end Sys2Proof.Machine
end

section
/-! No command makes an access outside a memory (20_memory.md R66), in layers: when an operation never faults; the
indices of the passes, below a valid degree and so below `NMAX`; the pseudocode of each command. -/

namespace Sys2Proof.Machine

/-! ### Operations that never fault -/

/-- The operation makes no access outside a memory: it may answer or be refused, but not fault (20_memory.md R66). -/
def NeverFaults {α : Type} (o : Result α) : Prop := ∀ e, o ≠ .fault e

theorem neverFaults_next {α : Type} (x : α) : NeverFaults (.next x : Result α) := nofun

theorem neverFaults_andThen {α β : Type} {o : Result α} {f : α → Result β} (ho : NeverFaults o)
    (hf : ∀ x, NeverFaults (f x)) : NeverFaults (andThen o f) := by
  intro e h
  rcases andThen_eq_fault.mp h with hfirst | ⟨x, -, hrest⟩
  · exact ho e hfirst
  · exact hf x e hrest

theorem neverFaults_forEach {α : Type} {f : α → State → Result State} {xs : List α}
    (hf : ∀ x ∈ xs, ∀ s, NeverFaults (f x s)) (s : State) : NeverFaults (forEach f xs s) := by
  induction xs generalizing s with
  | nil => exact neverFaults_next s
  | cons x xs ih =>
    exact neverFaults_andThen (hf x List.mem_cons_self s) (ih fun y hy => hf y (List.mem_cons_of_mem x hy))

theorem neverFaults_readWord {sp : Space} {i : Nat} {s : State} (hi : i < Config.nMax) :
    NeverFaults (readWord sp i s) := fun _ h => (readWord_eq_fault.mp h).1 hi

theorem neverFaults_writeWord {sp : Space} {i : Nat} {v : Word} {s : State} (hi : i < Config.nMax) :
    NeverFaults (writeWord sp i v s) := fun _ h => (writeWord_eq_fault.mp h).1 hi

theorem neverFaults_readWords {count i : Nat} (hi : i + count ≤ Config.nMax) (sp : Space) (s : State) :
    NeverFaults (readWords sp s count i) := by
  induction count generalizing i with
  | zero => exact neverFaults_next []
  | succ count ih =>
    exact neverFaults_andThen (neverFaults_readWord (by omega)) fun _ =>
      neverFaults_andThen (ih (by omega)) fun _ => neverFaults_next _

theorem neverFaults_runCommand {body : State → Result Finish} (h : ∀ b, NeverFaults (body b)) (s : State) :
    NeverFaults (runCommand body s) := fun e he => h (beginCommand s) e (runCommand_eq_fault.mp he)

/-! ### Checks of the parameters -/

theorem neverFaults_withQ {s : State} {k : Nat → Result Finish} (hk : ∀ q, NeverFaults (k q)) :
    NeverFaults (withQ s k) := by
  rcases withQ_cases s k with ⟨-, hcheck⟩ | ⟨-, hcheck⟩ <;> rw [hcheck]
  · exact neverFaults_next _
  · exact hk _

theorem neverFaults_withN {s : State} {k : Nat → Result Finish} (hk : ∀ n, nValid n = true → NeverFaults (k n)) :
    NeverFaults (withN s k) := by
  rcases withN_cases s k with ⟨-, hcheck⟩ | ⟨hn, hcheck⟩ <;> rw [hcheck]
  · exact neverFaults_next _
  · exact hk _ hn

theorem neverFaults_withNQ {s : State} {k : Nat → Nat → Result Finish}
    (hk : ∀ n q, nValid n = true → NeverFaults (k n q)) : NeverFaults (withNQ s k) := by
  rcases withNQ_cases s k with ⟨-, hcheck⟩ | ⟨⟨-, hn⟩, hcheck⟩ <;> rw [hcheck]
  · exact neverFaults_next _
  · exact hk _ _ hn

/-! ### The indices of the passes -/

theorem le_nMax_of_nValid {n : Nat} (h : nValid n = true) : n ≤ Config.nMax := by
  obtain ⟨k, hk, rfl⟩ := (nValid_iff n).mp h
  exact Nat.pow_le_pow_right (by decide) hk

/-- A butterfly stands in one of the groups of its stage, and only a stage with a span has any. -/
theorem stagePositions_group {m groups t : Nat} {p : LoopPos} (h : p ∈ stagePositions m groups t) :
    p.m = m ∧ p.i < groups ∧ 0 < t := by
  simp only [stagePositions, List.mem_flatMap, List.mem_map, List.mem_range] at h
  obtain ⟨i, hi, o, ho, rfl⟩ := h
  exact ⟨rfl, hi, Nat.zero_lt_of_lt ho⟩

/-- FNTT reads its twiddles among the words `0..n-1` of `TF` (44_forward_ntt.md R150). -/
theorem fnttPositions_twiddle_lt {n : Nat} {p : LoopPos} (h : p ∈ fnttPositions n) : p.m + p.i < n := by
  obtain ⟨m, -, hp⟩ := List.mem_flatMap.mp h
  obtain ⟨rfl, hgroup, hspan⟩ := stagePositions_group hp
  have hstage : 2 * p.m ≤ n := (Nat.div_pos_iff.mp hspan).2
  omega

/-- INTT reads its twiddles among the words `0..n-1` of `TI` (45_inverse_ntt.md R160). -/
theorem inttPositions_twiddle_lt {n : Nat} {p : LoopPos} (h : p ∈ inttPositions n) : p.m / 2 + p.i < n := by
  obtain ⟨m, -, hp⟩ := List.mem_flatMap.mp h
  obtain ⟨rfl, hgroup, hspan⟩ := stagePositions_group hp
  have hstage : p.m ≤ n := (Nat.div_pos_iff.mp hspan).2
  omega

/-! ### The passes of the vector commands -/

/-- A butterfly of either kind: two reads at `j` and `j + t`, then two writes there (44_forward_ntt.md R151,
45_inverse_ntt.md R161). -/
theorem neverFaults_butterfly {j t : Nat} (h : j + t < Config.nMax) (low high : Word → Word → Word) (s : State) :
    NeverFaults (andThen (readWord .a j s) fun u => andThen (readWord .a (j + t) s) fun w =>
      andThen (writeWord .a j (low u w) s) fun s' => writeWord .a (j + t) (high u w) s') :=
  have hj : j < Config.nMax := by omega
  neverFaults_andThen (neverFaults_readWord hj) fun _ => neverFaults_andThen (neverFaults_readWord h) fun _ =>
    neverFaults_andThen (neverFaults_writeWord hj) fun _ => neverFaults_writeWord h

theorem neverFaults_fnttAt {n : Nat} {p : LoopPos} (hp : p ∈ fnttPositions n) (hn : n ≤ Config.nMax) (q : Nat)
    (s : State) : NeverFaults (fnttAt n q p s) :=
  neverFaults_andThen (neverFaults_readWord ((fnttPositions_twiddle_lt hp).trans_le hn)) fun _ =>
    neverFaults_butterfly ((fnttPositions_lt hp).trans_le hn) _ _ s

theorem neverFaults_inttAt {n : Nat} {p : LoopPos} (hp : p ∈ inttPositions n) (hn : n ≤ Config.nMax) (q : Nat)
    (s : State) : NeverFaults (inttAt n q p s) :=
  neverFaults_andThen (neverFaults_readWord ((inttPositions_twiddle_lt hp).trans_le hn)) fun _ =>
    neverFaults_butterfly ((inttPositions_lt hp).trans_le hn) _ _ s

theorem neverFaults_scaleAt {j : Nat} (hj : j < Config.nMax) (q ninv : Nat) (s : State) :
    NeverFaults (scaleAt q ninv j s) :=
  neverFaults_andThen (neverFaults_readWord hj) fun _ => neverFaults_writeWord hj

/-- The bit reversal of any index is a word of the memory (46_bit_reverse.md R170). -/
theorem brv_lt_nMax {n : Nat} (hn : nValid n = true) (i : Nat) : brv (log2 n) i < Config.nMax :=
  calc brv (log2 n) i < 2 ^ log2 n := brv_lt _ _
    _ = n := two_pow_log2 hn
    _ ≤ Config.nMax := le_nMax_of_nValid hn

/-! ### The pseudocode of each command -/

theorem neverFaults_rndrangeBody (b : State) : NeverFaults (rndrangeBody b) := by
  unfold rndrangeBody
  split <;> exact neverFaults_next _

theorem neverFaults_findrootBody (auto : Bool) (b : State) : NeverFaults (findrootBody auto b) := by
  refine neverFaults_withNQ fun n q _ => ?_
  dsimp only
  split <;> exact neverFaults_next _

theorem neverFaults_twgenBody (dest : Space) (b : State) : NeverFaults (twgenBody dest b) :=
  neverFaults_withNQ fun _ _ hn => neverFaults_andThen
    (neverFaults_forEach (fun _ _ _ => neverFaults_writeWord (brv_lt_nMax hn _)) b) fun _ => neverFaults_next _

theorem neverFaults_fnttBody (b : State) : NeverFaults (fnttBody b) :=
  neverFaults_withNQ fun _ q hn => neverFaults_andThen
    (neverFaults_forEach (fun _ hp => neverFaults_fnttAt hp (le_nMax_of_nValid hn) q) b) fun _ => neverFaults_next _

theorem neverFaults_inttBody (b : State) : NeverFaults (inttBody b) := by
  refine neverFaults_withNQ fun n q hn => ?_
  have hle := le_nMax_of_nValid hn
  split
  · exact neverFaults_next _
  · refine neverFaults_andThen (neverFaults_forEach (fun _ hp => neverFaults_inttAt hp hle q) _) fun u => ?_
    refine neverFaults_andThen (neverFaults_forEach (fun j hj => ?_) u) fun _ => neverFaults_next _
    exact neverFaults_scaleAt ((List.mem_range.mp hj).trans_le hle) q _

theorem neverFaults_bitrevBody (b : State) : NeverFaults (bitrevBody b) := by
  refine neverFaults_withN fun n hn => ?_
  have hsnapshot : 0 + n ≤ Config.nMax := (Nat.zero_add n).trans_le (le_nMax_of_nValid hn)
  refine neverFaults_andThen (neverFaults_readWords hsnapshot .a b) fun old => ?_
  exact neverFaults_andThen
    (neverFaults_forEach (fun _ _ _ => neverFaults_writeWord (brv_lt_nMax hn _)) b) fun _ => neverFaults_next _

theorem neverFaults_modinvBody (b : State) : NeverFaults (modinvBody b) := by
  refine neverFaults_withQ fun q => ?_
  split <;> exact neverFaults_next _

theorem neverFaults_commandBody (i : Instr) (b : State) : NeverFaults (commandBody i b) := by
  cases i with
  | nop => exact neverFaults_next _
  | rndrange => exact neverFaults_rndrangeBody b
  | findroot => exact neverFaults_findrootBody false b
  | findrootA => exact neverFaults_findrootBody true b
  | twgenF => exact neverFaults_twgenBody .tf b
  | twgenI => exact neverFaults_twgenBody .ti b
  | fntt => exact neverFaults_fnttBody b
  | intt => exact neverFaults_inttBody b
  | bitrev => exact neverFaults_bitrevBody b
  | mulmod => exact neverFaults_withQ fun _ => neverFaults_next _
  | modinv => exact neverFaults_modinvBody b

/-- Settles O14: `N` is checked before any access, and every index is then below `N` (20_memory.md R66). -/
theorem commandsNeverFault : Obligations.CommandsNeverFault := by
  unfold Obligations.CommandsNeverFault
  intro i s
  rw [exec_eq_runCommand]
  exact neverFaults_runCommand (neverFaults_commandBody i) s

end Sys2Proof.Machine
end

section
/-! The host port (20_memory.md R60 to R63) and the lines of the assembler (30_encoding.md R90, R91), in layers: what an
address names; what a read and a write do at each kind of address; the lines that read. -/

namespace Sys2Proof.Machine

/-! ### What an address names -/

@[simp] theorem regionSpace_spaceRegion (sp : Space) : regionSpace (spaceRegion sp) = some sp := by
  cases sp <;> rfl

theorem addrRegion_regAddr (reg : Reg) : addrRegion (regAddr reg) = 0 := by
  cases reg <;> rfl

theorem regAtOffset_regAddr (reg : Reg) : regAtOffset (addrOffset (regAddr reg)) = some reg := by
  cases reg <;> rfl

theorem regAtOffset_reserved {o : Nat} (h : 0xE ≤ o) : regAtOffset o = none := by
  obtain ⟨k, rfl⟩ := Nat.exists_eq_add_of_le' h
  rfl

/-- Region and offset of an address from the bounds of its region (20_memory.md R60). -/
theorem addr_fields_of_bounds {addr : Addr} {r : Nat} (hlow : r * 1024 ≤ addr.toNat)
    (hhigh : addr.toNat < (r + 1) * 1024) : addrRegion addr = r ∧ addrOffset addr = addr.toNat - r * 1024 := by
  show addr.toNat / 1024 = r ∧ addr.toNat % 1024 = addr.toNat - r * 1024
  omega

/-- Region and offset are bit fields of the address (20_memory.md R60). -/
theorem addr_fields_eq_extract (addr : Addr) :
    addrRegion addr = (addr.extractLsb' 10 2).toNat ∧ addrOffset addr = (addr.extractLsb' 0 10).toNat := by
  have hregion : addr.toNat / 1024 < 4 := by omega
  rw [BitVec.extractLsb'_toNat, BitVec.extractLsb'_toNat, Nat.shiftRight_eq_div_pow, Nat.shiftRight_zero]
  exact ⟨(Nat.mod_eq_of_lt hregion).symm, rfl⟩

/-- The address of a memory word names it (30_encoding.md R90). -/
theorem addr_fields_wordAddr (sp : Space) {i : Nat} (hi : i < 1024) :
    addrRegion (wordAddr sp i) = spaceRegion sp ∧ addrOffset (wordAddr sp i) = i := by
  have hregion : spaceRegion sp ≤ 3 := by cases sp <;> decide
  have haddr : (wordAddr sp i).toNat = spaceRegion sp * 1024 + i := by
    rw [wordAddr, BitVec.toNat_ofNat]
    exact Nat.mod_eq_of_lt (show spaceRegion sp * 1024 + i < 4096 by omega)
  obtain ⟨hr, ho⟩ := addr_fields_of_bounds (addr := wordAddr sp i) (r := spaceRegion sp) (by omega) (by omega)
  exact ⟨hr, by omega⟩

/-! ### Host reads -/

/-- An idle block takes the host's transaction when it comes next. -/
theorem step_host_next {s : State} {t : Transaction} {rest : List Event} (hidle : s.seq = .idle)
    (henv : s.env = .host t :: rest) : step s = hostTransaction t { s with env := rest } :=
  step_idle_cons hidle henv

theorem hostReadValue_regAddr (reg : Reg) (s : State) : hostReadValue (regAddr reg) s = .next (regValue reg s) := by
  cases reg <;> rfl

theorem hostReadValue_reserved {addr : Addr} (hlow : 0xE ≤ addr.toNat) (hhigh : addr.toNat < 0x400) (s : State) :
    hostReadValue addr s = .next 0 := by
  obtain ⟨hr, ho⟩ := addr_fields_of_bounds (r := 0) (Nat.zero_le addr.toNat) hhigh
  have hreserved : regAtOffset (addrOffset addr) = none := regAtOffset_reserved (by omega)
  simp [hostReadValue, hr, regionSpace, hreserved]

theorem hostReadValue_word {addr : Addr} {sp : Space} (hlow : spaceRegion sp * 1024 ≤ addr.toNat)
    (hhigh : addr.toNat < (spaceRegion sp + 1) * 1024) (s : State) :
    hostReadValue addr s = readWord sp (addr.toNat - spaceRegion sp * 1024) s := by
  obtain ⟨hr, ho⟩ := addr_fields_of_bounds hlow hhigh
  simp only [hostReadValue, hr, regionSpace_spaceRegion, ho]

theorem hostRead_of_value {addr : Addr} {s : State} {v : Word} (h : hostReadValue addr s = .next v) :
    hostRead addr s = .next { s with returned := s.returned ++ [(addr, v)] } := by
  rw [hostRead, h, andThen_next]

/-- Settles O15: the address names a register, a reserved offset or a word, and the read returns what stands there. -/
theorem hostReadReturnsTheAddressedWord : Obligations.HostReadReturnsTheAddressedWord := by
  unfold Obligations.HostReadReturnsTheAddressedWord
  intro s addr rest hidle henv got word
  have hread : step s = hostRead addr { s with env := rest } := step_host_next hidle henv
  have hgot : ∀ v, hostReadValue addr { s with env := rest } = .next v → got v := fun v hv =>
    hread.trans (hostRead_of_value hv)
  have hreg : ∀ reg, addr = regAddr reg → got (regValue reg s) := by
    rintro reg rfl
    exact hgot _ (hostReadValue_regAddr reg _)
  have hword : ∀ sp, spaceRegion sp * 1024 ≤ addr.toNat → addr.toNat < (spaceRegion sp + 1) * 1024 →
      word sp (addr.toNat - spaceRegion sp * 1024) := by
    intro sp hlow hhigh
    have hvalue := hostReadValue_word hlow hhigh { s with env := rest }
    have hmem : spaceMem sp { s with env := rest } = spaceMem sp s := by cases sp <;> rfl
    have hindex : addr.toNat - spaceRegion sp * 1024 < Config.nMax :=
      show addr.toNat - spaceRegion sp * 1024 < 1024 by omega
    simp only [word]
    split
    · next v hv => exact hgot v (hvalue.trans (readWord_eq_next.mpr ⟨hindex, by rw [hmem, hv]⟩))
    · next hv =>
      rw [hread, hostRead, hvalue, readWord_eq_refused.mpr ⟨hindex, by rw [hmem, hv], rfl⟩, andThen_refused]
  exact ⟨hreg .cmd, hreg .status, hreg .errcode, hreg .caps, hreg .n, hreg .q, hreg .r, hreg .psi, hreg .psiInv,
    hreg .nInv, hreg .opa, hreg .opb, hreg .res, hreg .attempt,
    fun hlow hhigh => hgot 0 (hostReadValue_reserved hlow hhigh _),
    hword .a, hword .tf, fun hlow => hword .ti hlow addr.isLt⟩

/-! ### Host writes -/

theorem hostWrite_regAddr (reg : Reg) (v : Word) (s : State) : hostWrite (regAddr reg) v s = hostWriteReg reg v s := by
  simp only [hostWrite, addrRegion_regAddr, regionSpace, regAtOffset_regAddr]

theorem hostWrite_reserved {addr : Addr} (hlow : 0xE ≤ addr.toNat) (hhigh : addr.toNat < 0x400) (v : Word)
    (s : State) : hostWrite addr v s = .next s := by
  obtain ⟨hr, ho⟩ := addr_fields_of_bounds (r := 0) (Nat.zero_le addr.toNat) hhigh
  have hreserved : regAtOffset (addrOffset addr) = none := regAtOffset_reserved (by omega)
  simp [hostWrite, hr, regionSpace, hreserved]

theorem hostWrite_a {addr : Addr} (hlow : 0x400 ≤ addr.toNat) (hhigh : addr.toNat < 0x800) (v : Word) (s : State) :
    hostWrite addr v s = .next { s with a := memWrite s.a (addr.toNat - 0x400) v } := by
  obtain ⟨hr, ho⟩ := addr_fields_of_bounds (r := 1) hlow hhigh
  have hindex : addr.toNat - 0x400 < Config.nMax := show addr.toNat - 0x400 < 1024 by omega
  simp only [hostWrite, hr, regionSpace, ho]
  exact writeWord_eq_next.mpr ⟨hindex, rfl⟩

/-- The host does not write the twiddle tables (10_state.md R37, R38). -/
theorem hostWrite_table {addr : Addr} (hlow : 0x800 ≤ addr.toNat) (v : Word) (s : State) :
    hostWrite addr v s = .next s := by
  rcases Nat.lt_or_ge addr.toNat 0xC00 with hhigh | hlow'
  · obtain ⟨hr, -⟩ := addr_fields_of_bounds (r := 2) hlow hhigh
    simp only [hostWrite, hr, regionSpace]
  · obtain ⟨hr, -⟩ := addr_fields_of_bounds (r := 3) hlow' addr.isLt
    simp only [hostWrite, hr, regionSpace]

/-- An error is taken in the completion of the command (60_exceptions.md R196). -/
theorem completeCommand_error {c : ErrCode} (hc : isError c = true) (s : State) :
    completeCommand c s = afterError (errCodeNumber c) s := by
  simp [completeCommand, afterError, statusAtCompletion, errCodeWord, hc]

/-- Settles O16: the address names a register, a reserved offset, a word of `A` or a word of a table. -/
theorem hostWriteDoesExactlyOneThing : Obligations.HostWriteDoesExactlyOneThing := by
  unfold Obligations.HostWriteDoesExactlyOneThing
  intro s addr v rest hidle henv u
  have hwrite : step s = hostWrite addr v u := step_host_next hidle henv
  have hreg : ∀ reg, addr = regAddr reg → step s = hostWriteReg reg v u := by
    rintro reg rfl
    rw [hwrite, hostWrite_regAddr]
  have hcmd : addr = regAddr .cmd → step s = writeCmd v u := hreg .cmd
  have hstatus : addr = regAddr .status → step s = .next (acknowledge v u) := hreg .status
  refine ⟨fun h => ?_, fun h hbit => ?_, fun h hbit => ?_, hreg .n, hreg .q, hreg .r, hreg .psi, hreg .psiInv,
    hreg .opa, hreg .opb, ?_, fun hlow hhigh => hwrite.trans (hostWrite_reserved hlow hhigh v u),
    fun hlow hhigh => hwrite.trans (hostWrite_a hlow hhigh v u), fun hlow => hwrite.trans (hostWrite_table hlow v u)⟩
  · rw [hcmd h, writeCmd]
    cases decode v with
    | legal i => rfl
    | illegal why => exact congrArg _ (completeCommand_error (c := .illegalCmd) rfl (beginCommand { u with cmd := v }))
  · rw [hstatus h, acknowledge, statusAtWrite, if_pos hbit]
  · rw [hstatus h, acknowledge, statusAtWrite, if_neg (ne_true_of_eq_false hbit)]
  · rintro (h | h | h | h | h)
    · exact hreg .errcode h
    · exact hreg .caps h
    · exact hreg .nInv h
    · exact hreg .res h
    · exact hreg .attempt h

/-! ### The assembler's lines -/

theorem andThen_next_right {α : Type} (o : Result α) : andThen o .next = o := by
  cases o <;> rfl

/-- A line of one transaction issues it. -/
theorem forEach_issue_singleton {s : State} (hidle : s.seq = .idle) (t : Transaction) :
    forEach issue [t] s = hostTransaction t s := by
  rw [forEach_cons, issue_idle hidle]
  exact andThen_next_right _

theorem runLine_mov {s : State} {dst src : Loc} {v : Word} (hidle : s.seq = .idle)
    (h : hostReadValue (locAddr src) s = .next v) : runLine (.mov dst src) s =
      hostWrite (locAddr dst) v { s with returned := s.returned ++ [(locAddr src, v)] } := by
  have hread : issue (.rd (locAddr src)) s = .next { s with returned := s.returned ++ [(locAddr src, v)] } :=
    (issue_idle hidle _).trans (hostRead_of_value h)
  rw [runLine, expandLine, expandMov_next h, forEach_cons, hread, andThen_next]
  exact forEach_issue_singleton (by exact hidle) _

theorem runLine_expect {s : State} (hidle : s.seq = .idle) (loc : Loc) (v : Word) :
    runLine (.expect loc v) s = hostRead (locAddr loc) s := forEach_issue_singleton hidle _

/-- The word a host read notes is the word it returns. -/
theorem hostRead_eq_noted {addr : Addr} {s : State} {v : Word} :
    hostRead addr s = .next { s with returned := s.returned ++ [(addr, v)] } ↔ hostReadValue addr s = .next v := by
  refine ⟨fun h => ?_, hostRead_of_value⟩
  obtain ⟨w, hw, hstate⟩ := hostRead_eq_next.mp h
  have hnoted : [(addr, v)] = [(addr, w)] := List.append_cancel_left (congrArg State.returned hstate)
  cases hnoted
  exact hw

/-- Settles O17: the addresses, then the lines in the order of 30_encoding.md R90 and R91. -/
theorem assemblerAddressesNameTheirLocations : Obligations.AssemblerAddressesNameTheirLocations := by
  unfold Obligations.AssemblerAddressesNameTheirLocations
  refine ⟨addr_fields_eq_extract, fun reg => ⟨addrRegion_regAddr reg, regAtOffset_regAddr reg⟩, fun sp i hi => ?_,
    fun _ _ _ => rfl, fun _ _ => rfl, fun _ _ => rfl, fun _ _ _ => rfl, fun _ => rfl, fun s vs i => ?_,
    fun s sp n i => ?_, fun s dst src v h => ⟨expandMov_next h, fun hidle => runLine_mov hidle h⟩,
    fun s loc v => ⟨rfl, lineClaim_expect, fun hidle => ?_⟩⟩
  · obtain ⟨hregion, hoffset⟩ := addr_fields_wordAddr sp (of_decide_eq_true hi)
    exact ⟨(congrArg regionSpace hregion).trans (regionSpace_spaceRegion sp), hoffset⟩
  · simp only [expandLine, locAddr, List.getElem?_map, List.getElem?_zipIdx, Option.map_map, Nat.zero_add]
    rfl
  · simp only [expandLine, locAddr, List.getElem?_map]
    split_ifs with hi
    · rw [List.getElem?_range hi, Option.map_some]
    · rw [List.getElem?_eq_none (by simpa using hi), Option.map_none]
  · rw [lineClaim_expect, runLine_expect hidle, hostRead_eq_noted]

end Sys2Proof.Machine
end

section
/-! The encoding of commands (30_encoding.md R80 to R86), in layers: a word and its fields determine each other; fields that
are legal and select a command are the fields of that command; so `decode`, and the algorithm of R84, answer a command on
its word of the table of R82 and on no other. -/

namespace Sys2Proof.Machine

/-! ### A word and its fields -/

/-- The fields of format C leave no bit of the word out (R80). -/
@[simp] theorem wordOfFields_fieldsOfWord (c : Word) : wordOfFields (fieldsOfWord c) = c := by
  apply BitVec.eq_of_getLsbD_eq
  intro k hk
  simp only [wordOfFields, fieldsOfWord, BitVec.getLsbD_append, BitVec.getLsbD_extractLsb', BitVec.getLsbD_ofBool]
  split_ifs with hop hsel hauto hrsv0
  · simp [hop]
  · obtain rfl : k = 4 := by omega
    simp
  · obtain rfl : k = 5 := by omega
    simp
  · simp [hrsv0, show 6 + (k - 4 - 1 - 1) = k by omega]
  · simp [show k - 4 - 1 - 1 - 10 < 16 by omega, show 16 + (k - 4 - 1 - 1 - 10) = k by omega]

theorem encodedFields_statement (i : Instr) : Laws.EncodedFields.Statement i := by
  cases i with
  | nop => exact Laws.EncodedFields.nop
  | rndrange => exact Laws.EncodedFields.rndrange
  | findroot => exact Laws.EncodedFields.findroot
  | findrootA => exact Laws.EncodedFields.findrootA
  | twgenF => exact Laws.EncodedFields.twgenF
  | twgenI => exact Laws.EncodedFields.twgenI
  | fntt => exact Laws.EncodedFields.fntt
  | intt => exact Laws.EncodedFields.intt
  | bitrev => exact Laws.EncodedFields.bitrev
  | mulmod => exact Laws.EncodedFields.mulmod
  | modinv => exact Laws.EncodedFields.modinv

@[simp] theorem wellFormed_fieldsOf (i : Instr) : (fieldsOf i).wellFormed = true := (encodedFields_statement i).1

@[simp] theorem fieldsOfWord_encode (i : Instr) : fieldsOfWord (encode i) = fieldsOf i := (encodedFields_statement i).2

theorem fieldsOfWord_eq_fieldsOf {c : Word} {i : Instr} : fieldsOfWord c = fieldsOf i ↔ c = encode i := by
  constructor
  · intro h
    rw [encode, ← h, wordOfFields_fieldsOfWord]
  · rintro rfl
    exact fieldsOfWord_encode i

/-! ### Legal fields and the command they select -/

theorem wellFormed_iff {f : CommandFields} : f.wellFormed = true ↔
    (f.rsv0 = 0 ∧ f.rsv1 = 0) ∧ f.op.toNat < 9 ∧ (f.op ≠ 3 → f.sel = false) ∧ (f.op ≠ 2 → f.auto = false) := by
  simp [CommandFields.wellFormed, CommandFields.reservedZero, CommandFields.opDefined, CommandFields.selAllowed,
    CommandFields.autoAllowed, and_assoc, or_iff_not_imp_right]

/-- The operation code selects the command; a flag counts only where R83 gives it a meaning. -/
theorem selectCommand_eq_some {op : BitVec 4} {sel auto : Bool} {i : Instr} :
    selectCommand op sel auto = some i ↔
      op = (fieldsOf i).op ∧ (op = 3 → sel = (fieldsOf i).sel) ∧ (op = 2 → auto = (fieldsOf i).auto) := by
  revert op sel auto
  cases i <;> decide

theorem fields_ext {f g : CommandFields} (hop : f.op = g.op) (hsel : f.sel = g.sel) (hauto : f.auto = g.auto)
    (hrsv0 : f.rsv0 = g.rsv0) (hrsv1 : f.rsv1 = g.rsv1) : f = g := by
  cases f
  cases g
  simp_all

/-- A flag without a meaning is zero in legal fields, so the operation code and the flags with a meaning fix them. -/
theorem wellFormed_selectCommand_iff {f : CommandFields} {i : Instr} :
    f.wellFormed = true ∧ selectCommand f.op f.sel f.auto = some i ↔ f = fieldsOf i := by
  have hi := wellFormed_fieldsOf i
  constructor
  · rintro ⟨hf, hcommand⟩
    obtain ⟨hop, hsel, hauto⟩ := selectCommand_eq_some.mp hcommand
    obtain ⟨⟨hrsv0, hrsv1⟩, -, hsel0, hauto0⟩ := wellFormed_iff.mp hf
    obtain ⟨⟨hirsv0, hirsv1⟩, -, hisel0, hiauto0⟩ := wellFormed_iff.mp hi
    rw [← hop] at hisel0 hiauto0
    have hsels : f.sel = (fieldsOf i).sel :=
      (em (f.op = 3)).elim hsel fun h => (hsel0 h).trans (hisel0 h).symm
    have hautos : f.auto = (fieldsOf i).auto :=
      (em (f.op = 2)).elim hauto fun h => (hauto0 h).trans (hiauto0 h).symm
    exact fields_ext hop hsels hautos (hrsv0.trans hirsv0.symm) (hrsv1.trans hirsv1.symm)
  · rintro rfl
    exact ⟨hi, selectCommand_eq_some.mpr ⟨rfl, fun _ => rfl, fun _ => rfl⟩⟩

theorem opDefined_of_selectCommand {f : CommandFields} {i : Instr}
    (h : selectCommand f.op f.sel f.auto = some i) : f.opDefined = true := by
  obtain ⟨hop, -, -⟩ := selectCommand_eq_some.mp h
  obtain ⟨-, hdefined, -, -⟩ := wellFormed_iff.mp (wellFormed_fieldsOf i)
  exact decide_eq_true (hop ▸ hdefined)

/-! ### The decoder and the encoder -/

theorem decode_eq_legal {c : Word} {i : Instr} : decode c = .legal i ↔
    (fieldsOfWord c).wellFormed = true ∧
      selectCommand (fieldsOfWord c).op (fieldsOfWord c).sel (fieldsOfWord c).auto = some i := by
  generalize hf : fieldsOfWord c = f
  cases hcommand : selectCommand f.op f.sel f.auto with
  | none => cases hzero : f.reservedZero <;> simp [decode, hf, hcommand, hzero]
  | some j =>
    have hop := opDefined_of_selectCommand hcommand
    simp only [decode, hf, hcommand, CommandFields.wellFormed, hop]
    split_ifs <;> simp_all

theorem decode_eq_legal_iff_encode {c : Word} {i : Instr} : decode c = .legal i ↔ c = encode i :=
  calc decode c = .legal i
    _ ↔ _ := decode_eq_legal
    _ ↔ fieldsOfWord c = fieldsOf i := wellFormed_selectCommand_iff
    _ ↔ c = encode i := fieldsOfWord_eq_fieldsOf

@[simp] theorem decode_encode (i : Instr) : decode (encode i) = .legal i := decode_eq_legal_iff_encode.mpr rfl

/-- Settles O4: a word decodes to a command exactly when its fields are those of the command, and so when it is the
command's word. -/
theorem legalWordsAreTheElevenEncodings : Obligations.LegalWordsAreTheElevenEncodings := by
  unfold Obligations.LegalWordsAreTheElevenEncodings
  refine ⟨fun _ _ => decode_eq_legal_iff_encode, ?_⟩
  decide

/-! ### The algorithm of R84 -/

theorem decodeRef_of_reservedBits {n : Nat} (h : 64 ≤ n) : decodeRef n = none :=
  if_pos (Nat.div_pos h (by decide)).ne'

/-- The 64 values of the bits that carry fields. -/
theorem decodeRef_of_lt : ∀ n < 64, ∀ i ∈ decodeRef n, n = (encode i).toNat := by
  decide

theorem decodeRef_eq_some {n : Nat} {i : Instr} : decodeRef n = some i ↔ n = (encode i).toNat := by
  constructor
  · intro h
    rcases Nat.lt_or_ge n 64 with hlow | hhigh
    · exact decodeRef_of_lt n hlow i h
    · exact absurd h (by simp [decodeRef_of_reservedBits hhigh])
  · rintro rfl
    cases i <;> rfl

/-- Settles O3: both decoders answer a command on the same word, its word of the table of R82. -/
theorem decodeFollowsTheAlgorithm : Obligations.DecodeFollowsTheAlgorithm := by
  unfold Obligations.DecodeFollowsTheAlgorithm
  intro c
  have hagree : ∀ i, decodeRef c.toNat = some i ↔ decode c = .legal i := fun i =>
    decodeRef_eq_some.trans (BitVec.toNat_inj.trans decode_eq_legal_iff_encode.symm)
  split
  · next i href => exact (hagree i).mp href
  · next href =>
    cases hdecode : decode c with
    | illegal why => exact ⟨why, rfl⟩
    | legal i => exact absurd ((hagree i).mpr hdecode) (by simp [href])

/-- Settles O5: the legal words are encodings, and each of the others fails one test of R84. -/
theorem sampleWordsDecode : Obligations.SampleWordsDecode :=
  ⟨decode_encode .findrootA, decode_encode .twgenI, decode_encode .fntt, decode_encode .modinv, rfl, rfl, rfl, rfl⟩

end Sys2Proof.Machine
end

section
/-! Modular arithmetic (40_modular_arithmetic.md R102 to R109), in layers: `SubMod` as the remainder of a difference of
integers; Euclid's algorithm keeps a congruence for each remainder, so that `ModInv` is an inverse and the only one; how
the frame closes on a pseudocode that ended; then the two scalar commands. -/

namespace Sys2Proof.Machine

/-! ### SubMod -/

/-- The unsigned form of R102 has the remainder of the difference as its value. -/
theorem subMod_eq_emod (a b : Nat) {q : Nat} (hq : 0 < q) : (subMod a b q : ℤ) = ((a : ℤ) - b) % q := by
  have hb : b % q ≤ a % q + q := (Nat.mod_lt b hq).le.trans (Nat.le_add_left ..)
  rw [subMod, Int.natCast_mod, Nat.cast_sub hb]
  push_cast
  rw [add_sub_right_comm, Int.add_emod_right, ← Int.sub_emod]

theorem subMod_lt (a b : Nat) {q : Nat} (hq : 0 < q) : subMod a b q < q := Nat.mod_lt _ hq

theorem subMod_modEq (a b : Nat) {q : Nat} (hq : 0 < q) : (subMod a b q : ℤ) ≡ a - b [ZMOD q] := by
  rw [subMod_eq_emod a b hq]
  exact Int.mod_modEq _ _

theorem subMod_unique {a b q r : Nat} (hr : r < q) (h : (r : ℤ) ≡ a - b [ZMOD q]) : r = subMod a b q := by
  have hq : 0 < q := Nat.zero_lt_of_lt hr
  have hmod : r ≡ subMod a b q [MOD q] := Int.natCast_modEq_iff.mp (h.trans (subMod_modEq a b hq).symm)
  exact hmod.eq_of_lt_of_lt hr (subMod_lt a b hq)

/-- Below zero the difference wraps around once. -/
theorem subMod_wrap {a b q : Nat} (hab : a % q < b % q) (hq : 0 < q) :
    (subMod a b q : ℤ) = q - ((b : ℤ) - a) % q := by
  have hb := Nat.mod_lt b hq
  have hsub : subMod a b q = a % q + q - b % q := Nat.mod_eq_of_lt (by omega)
  have hdiff : ((b : ℤ) - a) % q = (b % q : ℕ) - (a % q : ℕ) := by
    rw [Int.sub_emod, ← Int.natCast_mod, ← Int.natCast_mod]
    exact Int.emod_eq_of_lt (by omega) (by omega)
  omega

/-- Settles O21: `SubMod` is the remainder of the difference, and remainders are unique. -/
theorem subModIsTheLeastResidue : Obligations.SubModIsTheLeastResidue := by
  unfold Obligations.SubModIsTheLeastResidue
  exact ⟨fun a b q hq => ⟨subMod_lt a b hq, subMod_modEq a b hq, fun _ => subMod_unique, rfl,
    fun hab => subMod_wrap hab hq⟩, rfl⟩

/-! ### ModExp -/

/-- Settles O22: square-and-multiply gives the power, and the power with exponent 0 is 1. -/
theorem modExpIsThePowerResidue : Obligations.ModExpIsThePowerResidue := by
  unfold Obligations.ModExpIsThePowerResidue
  exact fun b e q _ => ⟨modExp_eq b e q, by rw [modExp_eq, pow_zero]⟩

/-! ### ModInv -/

theorem natCast_subMod (a b : Nat) {q : Nat} (hq : 0 < q) : (subMod a b q : ZMod q) = a - b := by
  have h := (ZMod.intCast_eq_intCast_iff _ _ q).mpr (subMod_modEq a b hq)
  push_cast at h
  exact h

theorem natCast_mulMod (a b q : Nat) : (mulMod a b q : ZMod q) = a * b := by
  rw [mulMod, ZMod.natCast_mod, Nat.cast_mul]

/-- Euclid's algorithm keeps, for each remainder `r` and its coefficient `t`, that `t * x` is `r` modulo `q`; the last
remainder that is not zero is the greatest common divisor. -/
theorem euclidCoeff_mul {q x fuel r0 r1 t0 t1 : Nat} (hq : 0 < q) (hfuel : r1 < fuel)
    (h0 : (t0 * x : ZMod q) = r0) (h1 : (t1 * x : ZMod q) = r1) :
    (euclidCoeff q fuel r0 r1 t0 t1 * x : ZMod q) = Nat.gcd r0 r1 := by
  induction fuel generalizing r0 r1 t0 t1 with
  | zero => exact absurd hfuel (Nat.not_lt_zero r1)
  | succ fuel ih =>
    rw [euclidCoeff]
    split_ifs with hr1
    · rw [hr1, Nat.gcd_zero_right, h0]
    · have hdec : r0 % r1 < r1 := Nat.mod_lt r0 (Nat.pos_of_ne_zero hr1)
      have hdiv : (r0 : ZMod q) = r1 * (r0 / r1 : ℕ) + (r0 % r1 : ℕ) := by
        rw [← Nat.cast_mul, ← Nat.cast_add, Nat.div_add_mod]
      have hnext : (subMod t0 (mulMod (r0 / r1) t1 q) q * x : ZMod q) = (r0 % r1 : ℕ) := by
        rw [natCast_subMod _ _ hq, natCast_mulMod]
        linear_combination h0 - (r0 / r1 : ℕ) * h1 + hdiv
      rw [ih (by omega) h1 hnext, Nat.gcd_comm r1, ← Nat.gcd_rec, Nat.gcd_comm]

theorem modInv_eq_none_iff {x q : Nat} : modInv x q = none ↔ Nat.gcd (x % q) q ≠ 1 := by
  simp [modInv]

/-- What `ModInv` answers is an inverse (R105). -/
theorem mul_modInv {x q y : Nat} (hq : 0 < q) (h : modInv x q = some y) : x % q * y % q = 1 % q := by
  simp only [modInv] at h
  split_ifs at h with hgcd
  obtain rfl := Option.some.inj h
  have hbezout := euclidCoeff_mul (q := q) (x := x % q) (r0 := q) (t0 := 0) (t1 := 1 % q) hq (Nat.lt_succ_self (x % q))
    (by simp) (by simp)
  rw [Nat.gcd_comm, hgcd] at hbezout
  rw [← ZMod.natCast_eq_natCast_iff', mul_comm, Nat.cast_mul, ZMod.natCast_mod (euclidCoeff ..) q]
  exact hbezout

/-- A unit has one inverse below the modulus. -/
theorem inverse_unique {x q y z : Nat} (hx : Nat.gcd x q = 1) (hy : y < q) (hz : z < q) (hxy : x * y % q = 1 % q)
    (hxz : x * z % q = 1 % q) : z = y :=
  have hmul : x * z ≡ x * y [MOD q] := hxz.trans hxy.symm
  (hmul.cancel_left_of_coprime (Nat.gcd_comm q x ▸ hx)).eq_of_lt_of_lt hz hy

/-- `ModInv` answers the inverse of a unit. -/
theorem exists_modInv {x q : Nat} (hq : 0 < q) (hx : Nat.gcd (x % q) q = 1) :
    ∃ y, modInv x q = some y ∧ y < q ∧ x % q * y % q = 1 % q := by
  obtain ⟨y, hy⟩ := Option.ne_none_iff_exists'.mp fun hnone => modInv_eq_none_iff.mp hnone hx
  exact ⟨y, hy, modInv_lt hq.ne' hy, mul_modInv hq hy⟩

/-- Settles O23: Euclid's algorithm finds an inverse of a unit, and a unit has only one. -/
theorem modInvIsTheUniqueInverse : Obligations.ModInvIsTheUniqueInverse := by
  unfold Obligations.ModInvIsTheUniqueInverse
  refine fun x q hq => ⟨fun hx => ?_, modInv_eq_none_iff.mpr⟩
  obtain ⟨y, hy, hlt, hxy⟩ := exists_modInv hq hx
  exact ⟨y, hy, hlt, hxy, fun z hz hxz => inverse_unique hx hlt hz hxy hxz⟩

/-! ### The frame of a command that ends in its own step -/

theorem completeCommand_ok (s : State) : completeCommand .ok s = afterOk s := by
  simp [completeCommand, afterOk, statusAtCompletion, errCodeWord, errCodeNumber, isError, toWord]

/-- A pseudocode that ran to its end leaves the state of a command that ended with OK (10_state.md R35). -/
theorem exec_of_finish {i : Instr} {s t : State} (h : commandBody i (beginCommand s) = finish t) :
    exec i s = .next (afterOk t) :=
  exec_eq_next.mpr ⟨_, h, (completeCommand_ok t).symm⟩

/-- A pseudocode that raised an error leaves the state of that error (60_exceptions.md R196). -/
theorem exec_of_raise {i : Instr} {c : ErrCode} {s t : State} (hc : isError c = true)
    (h : commandBody i (beginCommand s) = raise c t) : exec i s = .next (afterError (errCodeNumber c) t) :=
  exec_eq_next.mpr ⟨_, h, (completeCommand_error hc t).symm⟩

/-- The start of the frame changes `STATUS` only, which a completion sets but for the sticky flag. -/
@[simp] theorem afterOk_setRes_beginCommand (v : Nat) (s : State) :
    afterOk (setRes v (beginCommand s)) = afterOk { s with res := toWord v } := rfl

@[simp] theorem afterError_beginCommand (code : Nat) (s : State) :
    afterError code (beginCommand s) = afterError code s := rfl

theorem withQ_of_zero {s : State} (hq : s.q.toNat = 0) (k : Nat → Result Finish) : withQ s k = raise .config s :=
  if_pos hq

theorem withQ_of_ne_zero {s : State} (hq : s.q.toNat ≠ 0) (k : Nat → Result Finish) : withQ s k = k s.q.toNat :=
  if_neg hq

/-! ### MULMOD and MODINV -/

theorem mulmodBody_of_zero {s : State} (hq : s.q.toNat = 0) : mulmodBody s = raise .config s := withQ_of_zero hq _

theorem mulmodBody_of_ne_zero {s : State} (hq : s.q.toNat ≠ 0) :
    mulmodBody s = finish (setRes (s.opa.toNat * s.opb.toNat % s.q.toNat) s) := withQ_of_ne_zero hq _

theorem modinvBody_of_zero {s : State} (hq : s.q.toNat = 0) : modinvBody s = raise .config s := withQ_of_zero hq _

theorem modinvBody_of_none {s : State} (hq : s.q.toNat ≠ 0) (h : modInv s.opa.toNat s.q.toNat = none) :
    modinvBody s = raise .notInvertible s := by
  rw [modinvBody, withQ_of_ne_zero hq, h]

theorem modinvBody_of_some {s : State} {y : Nat} (hq : s.q.toNat ≠ 0) (h : modInv s.opa.toNat s.q.toNat = some y) :
    modinvBody s = finish (setRes y s) := by
  rw [modinvBody, withQ_of_ne_zero hq, h]

/-- Settles O24: the check of `Q`, then the exact product, reduced once (R103). -/
theorem mulmodWritesTheProductResidue : Obligations.MulmodWritesTheProductResidue := by
  unfold Obligations.MulmodWritesTheProductResidue
  refine ⟨decode_encode .mulmod, fun s => ⟨fun hq => ?_, fun hq => ?_⟩⟩
  · have hbody := mulmodBody_of_zero (s := beginCommand s) hq
    simpa [errCodeNumber] using exec_of_raise (i := .mulmod) rfl hbody
  · have hbody := mulmodBody_of_ne_zero (s := beginCommand s) hq
    simpa using exec_of_finish (i := .mulmod) hbody

/-- Settles O25: the check of `Q`, then the two answers of `ModInv`. -/
theorem modinvWritesTheInverse : Obligations.ModinvWritesTheInverse := by
  unfold Obligations.ModinvWritesTheInverse
  refine ⟨decode_encode .modinv, fun s => ⟨fun hq => ?_, fun hq hgcd => ?_, fun hq hgcd => ?_⟩⟩
  · have hbody := modinvBody_of_zero (s := beginCommand s) hq
    simpa [errCodeNumber] using exec_of_raise (i := .modinv) rfl hbody
  · have hbody := modinvBody_of_none (s := beginCommand s) hq (modInv_eq_none_iff.mpr hgcd)
    simpa [errCodeNumber] using exec_of_raise (i := .modinv) rfl hbody
  · obtain ⟨y, hy, hlt, hinverse⟩ := exists_modInv (Nat.pos_of_ne_zero hq) hgcd
    have hbody := modinvBody_of_some (s := beginCommand s) hq hy
    refine ⟨y, hlt, ?_, by simpa using exec_of_finish (i := .modinv) hbody⟩
    rw [← Nat.mod_mul_mod, hinverse]

end Sys2Proof.Machine
end

section
/-! The uniform draw (41_secure_random_range.md R121 to R125), in layers: the mask as the low bits of a number; one pass of
the rejection loop on the bytes of one draw; the loop on rejected draws; `RandRange`; then RNDRANGE. -/

namespace Sys2Proof.Machine

/-! ### The mask -/

theorem bitlen_eq_size (x : Nat) : bitlen x = Nat.size x := by
  unfold bitlen
  split_ifs with hx
  · rw [hx, Nat.size_zero]
  · exact le_antisymm (Nat.lt_size.mpr (Nat.log2_self_le hx)) (Nat.size_le.mpr Nat.lt_log2_self)

theorem drawBytes_eq_drawLength (span : Nat) : drawBytes span = drawLength span := by
  rw [drawBytes, drawLength, bitlen_eq_size]

theorem drawMask_eq_size (span : Nat) : drawMask span = 2 ^ Nat.size span - 1 := by
  rw [drawMask, bitlen_eq_size]

/-- A number has no bit at or above its bit length, and below that length there is always a set bit above. -/
theorem lt_size_iff_exists_testBit (b x : Nat) : b < Nat.size x ↔ ∃ c, b ≤ c ∧ x.testBit c = true := by
  rw [Nat.lt_size]
  constructor
  · intro hle
    obtain ⟨c, hbc, hset⟩ := Nat.exists_ge_and_testBit_of_ge_two_pow hle
    exact ⟨c, hbc, hset⟩
  · rintro ⟨c, hbc, hset⟩
    exact (Nat.pow_le_pow_right two_pos hbc).trans (Nat.ge_two_pow_of_testBit hset)

theorem testBit_drawMask (span b : Nat) :
    (drawMask span).testBit b = true ↔ ∃ c, b ≤ c ∧ span.testBit c = true := by
  rw [drawMask_eq_size, Nat.testBit_two_pow_sub_one, decide_eq_true_iff, lt_size_iff_exists_testBit]

/-- After the shifts `1, 2, ..., 2^(K-1)` a bit is set when one of the `2^K` bits from it upwards was. -/
theorem testBit_doublingShift (m K b : Nat) :
    (doublingShift m K).testBit b = true ↔ ∃ j < 2 ^ K, m.testBit (b + j) = true := by
  induction K generalizing b with
  | zero => simp [doublingShift]
  | succ K ih =>
    rw [doublingShift, Nat.testBit_or, Nat.testBit_shiftRight, Bool.or_eq_true, ih, ih, pow_succ]
    constructor
    · rintro (⟨j, hj, hset⟩ | ⟨j, hj, hset⟩)
      · exact ⟨j, by omega, hset⟩
      · exact ⟨2 ^ K + j, by omega, by rwa [← add_assoc, add_comm b]⟩
    · rintro ⟨j, hj, hset⟩
      rcases Nat.lt_or_ge j (2 ^ K) with hlow | hhigh
      · exact .inl ⟨j, hlow, hset⟩
      · have hj' : 2 ^ K + b + (j - 2 ^ K) = b + j := by omega
        exact .inr ⟨j - 2 ^ K, by omega, hj' ▸ hset⟩

/-- Enough shifts to cover the bytes of a draw cover every bit of the span (R122). -/
theorem doublingShift_eq_drawMask {span K : Nat} (hK : 8 * drawBytes span ≤ 2 ^ K) :
    doublingShift span K = drawMask span := by
  have hsize : Nat.size span ≤ 2 ^ K := by
    rw [drawBytes_eq_drawLength, drawLength] at hK
    omega
  refine Nat.eq_of_testBit_eq fun b => Bool.eq_iff_iff.mpr ?_
  rw [testBit_doublingShift, testBit_drawMask]
  constructor
  · rintro ⟨j, -, hset⟩
    exact ⟨b + j, Nat.le_add_right b j, hset⟩
  · rintro ⟨c, hbc, hset⟩
    have hc : c < Nat.size span := (lt_size_iff_exists_testBit c span).mpr ⟨c, le_rfl, hset⟩
    exact ⟨c - b, by omega, by rwa [Nat.add_sub_cancel' hbc]⟩

theorem drawMask_succ_le {span : Nat} (hspan : 0 < span) : drawMask span + 1 ≤ 2 * span := by
  obtain ⟨b, hb⟩ : ∃ b, Nat.size span = b + 1 :=
    Nat.exists_eq_succ_of_ne_zero (Nat.size_eq_zero.not.mpr hspan.ne')
  have htop : 2 ^ b ≤ span := Nat.lt_size.mp (by omega)
  rw [drawMask_eq_size, hb, Nat.sub_add_cancel Nat.one_le_two_pow, pow_succ']
  omega

/-- Settles O27: bits of the mask, of the shifts, the top bit of the span; then the values of R122. -/
theorem maskCoversTheSpan : Obligations.MaskCoversTheSpan := by
  unfold Obligations.MaskCoversTheSpan
  refine ⟨fun span hspan => ⟨rfl, testBit_drawMask span, fun _ => doublingShift_eq_drawMask,
    drawMask_succ_le hspan, ?_⟩, by decide⟩
  have hle := drawMask_succ_le hspan
  omega

/-! ### One draw -/

theorem leValue_eq_ofDigits (bs : List Byte) : leValue bs = Nat.ofDigits 256 (bs.map BitVec.toNat) := by
  induction bs with
  | nil => rfl
  | cons b bs ih => rw [leValue, ih, List.map_cons, Nat.ofDigits_cons]

/-- To mask a number is to keep its low `bitlen(span)` bits (R122). -/
theorem leValue_and_drawMask (span : Nat) (bs : List Byte) : leValue bs &&& drawMask span = drawNumber span bs := by
  rw [drawMask_eq_size, Nat.and_two_pow_sub_one_eq_mod, leValue_eq_ofDigits, drawNumber]

theorem drawLength_pos {span : Nat} (hspan : 0 < span) : 0 < drawLength span := by
  have hsize : 0 < Nat.size span := Nat.size_pos.mpr hspan
  rw [drawLength]
  omega

section draw
variable {min span : Nat}

theorem drawOnce_append (draw rest : List Byte) (hlen : draw.length = drawLength span) :
    drawOnce min span (draw ++ rest) =
      if drawNumber span draw ≤ span then .accepted (min + drawNumber span draw) rest else .rejected rest := by
  have hready : ¬ (draw ++ rest).length < drawLength span := by rw [List.length_append]; omega
  rw [drawOnce, drawBytes_eq_drawLength, if_neg hready, List.take_left' hlen, List.drop_left' hlen]
  simp only [leValue_and_drawMask]

theorem drawOnce_starved {bs : List Byte} (h : bs.length < drawLength span) : drawOnce min span bs = .starved := by
  rw [drawOnce, drawBytes_eq_drawLength, if_pos h]

/-! ### The rejection loop -/

/-- Every draw of a proper range takes at least one byte, so the fuel of the loop outlasts the draws (R124). -/
theorem length_le_of_rejectedDraws (hspan : 0 < span) {rejected : List (List Byte)}
    (h : rejectedDraws span rejected) : rejected.length ≤ (List.flatten rejected).length := by
  have hone : ∀ n ∈ rejected.map List.length, 1 ≤ n := by
    rintro _ hn
    obtain ⟨draw, hdraw, rfl⟩ := List.mem_map.mp hn
    rw [(h draw hdraw).1]
    exact drawLength_pos hspan
  rw [List.length_flatten]
  simpa using List.card_nsmul_le_sum _ 1 hone

theorem drawLoop_rejectedDraws {rejected : List (List Byte)} (h : rejectedDraws span rejected) (fuel d : Nat)
    (bs : List Byte) :
    drawLoop min span (fuel + rejected.length) d (List.flatten rejected ++ bs) =
      drawLoop min span fuel (d + rejected.length) bs := by
  induction rejected generalizing d with
  | nil => rfl
  | cons draw rejected ih =>
    obtain ⟨⟨hlen, habove⟩, hrest⟩ := List.forall_mem_cons.mp h
    have hfirst := drawOnce_append (min := min) draw (List.flatten rejected ++ bs) hlen
    rw [if_neg habove.not_ge] at hfirst
    rw [List.flatten_cons, List.append_assoc, List.length_cons, ← add_assoc, drawLoop, hfirst]
    dsimp only
    rw [ih hrest, add_assoc d, add_comm 1]

/-- What the loop returns is in the range, after whole draws that were ready, at least one (R121, R125). -/
theorem drawLoop_value {fuel d v : Nat} {bs rest : List Byte} (h : drawLoop min span fuel d bs = .value v rest) :
    min ≤ v ∧ v ≤ min + span ∧ ∃ D, 1 ≤ D ∧ D * drawLength span ≤ bs.length ∧ rest = bs.drop (D * drawLength span) := by
  induction fuel generalizing d bs with
  | zero => cases h
  | succ fuel ih =>
    have hpass := drawOnce_cases min span bs
    rw [drawBytes_eq_drawLength] at hpass
    rw [drawLoop] at h
    rcases hpass with ⟨-, hd⟩ | ⟨hready, hle, hd⟩ | ⟨hready, -, hd⟩ <;> rw [hd] at h
    · cases h
    · cases h
      exact ⟨Nat.le_add_right .., Nat.add_le_add_left hle min, 1, le_rfl, by rwa [one_mul], by rw [one_mul]⟩
    · obtain ⟨hlow, hhigh, D, -, hlen, hrest⟩ := ih h
      rw [List.length_drop] at hlen
      rw [List.drop_drop] at hrest
      refine ⟨hlow, hhigh, D + 1, Nat.le_add_left 1 D, ?_, ?_⟩ <;> rw [add_one_mul]
      · omega
      · rw [hrest, add_comm]

theorem drawLoop_ne_invalidRange (fuel d : Nat) (bs : List Byte) : drawLoop min span fuel d bs ≠ .invalidRange := by
  induction fuel generalizing d bs with
  | zero => simp [drawLoop]
  | succ fuel ih =>
    unfold drawLoop
    split
    · simp
    · exact ih _ _
    · simp

end draw

/-! ### RandRange -/

section randRange
variable {min max : Nat}

/-- `RandRange` on its bytes and any bytes after them (R121). -/
theorem randRange_of_oneDraw {bytes : List Byte} {x : Nat} (h : oneDraw min max bytes x) (rest : List Byte) :
    randRange min max (bytes ++ rest) = .value x rest := by
  rcases h with ⟨rfl, rfl, rfl⟩ | ⟨hlt, rejected, last, rfl, hrejected, hlen, hle, rfl⟩
  · rw [randRange, if_neg (lt_irrefl x), if_pos rfl, List.nil_append]
  · have hcount := length_le_of_rejectedDraws (Nat.sub_pos_of_lt hlt) hrejected
    obtain ⟨fuel, hfuel⟩ : ∃ fuel, (List.flatten rejected ++ last ++ rest).length + 1 = fuel + 1 + rejected.length :=
      ⟨(List.flatten rejected ++ last ++ rest).length - rejected.length, by simp only [List.length_append]; omega⟩
    rw [randRange_of_lt hlt, hfuel, List.append_assoc, drawLoop_rejectedDraws hrejected, drawLoop,
      drawOnce_append last rest hlen, if_pos hle]

/-- `RandRange` waits at the draw after the rejected ones when too few bytes are ready for it (R124). -/
theorem randRange_of_starved (hlt : min < max) {rejected : List (List Byte)} {tail : List Byte}
    (hrejected : rejectedDraws (max - min) rejected) (htail : tail.length < drawLength (max - min)) :
    randRange min max (List.flatten rejected ++ tail) = .starved (rejected.length + 1) tail := by
  have hcount := length_le_of_rejectedDraws (Nat.sub_pos_of_lt hlt) hrejected
  obtain ⟨fuel, hfuel⟩ : ∃ fuel, (List.flatten rejected ++ tail).length + 1 = fuel + 1 + rejected.length :=
    ⟨(List.flatten rejected ++ tail).length - rejected.length, by simp only [List.length_append]; omega⟩
  rw [randRange_of_lt hlt, hfuel, drawLoop_rejectedDraws hrejected, drawLoop, drawOnce_starved htail, Nat.add_comm 1]

/-- What `RandRange` returns is in the range, after whole draws that were ready: none for the degenerate range, and
otherwise at least one (R121, R125). -/
theorem randRange_value {v : Nat} {bs rest : List Byte} (h : randRange min max bs = .value v rest) :
    min ≤ v ∧ v ≤ max ∧ ∃ D, D * drawLength (max - min) ≤ bs.length ∧ rest = bs.drop (D * drawLength (max - min)) ∧
      (min < max → 1 ≤ D) ∧ (min = max → D = 0) := by
  unfold randRange at h
  split_ifs at h with hgt heq
  · cases h
    exact ⟨le_rfl, heq.le, 0, by simp, by simp, fun hlt => absurd heq hlt.ne, fun _ => rfl⟩
  · obtain ⟨hlow, hhigh, D, hD, hlen, hrest⟩ := drawLoop_value h
    exact ⟨hlow, by omega, D, hlen, hrest, fun _ => hD, fun he => absurd he heq⟩

theorem randRange_invalidRange {bs : List Byte} (h : randRange min max bs = .invalidRange) : max < min := by
  unfold randRange at h
  split_ifs at h with hgt
  · exact hgt
  · exact absurd h (drawLoop_ne_invalidRange _ _ _)

end randRange

/-! ### RNDRANGE -/

theorem rndrangeBody_of_value {s : State} {v : Nat} {rest : List Byte}
    (h : randRange s.opa.toNat s.opb.toNat s.entropy = .value v rest) :
    rndrangeBody s = finish (setRes v (setEntropy rest s)) := by
  rw [rndrangeBody, h]

theorem rndrangeBody_of_starved {s : State} {d : Nat} {rest : List Byte}
    (h : randRange s.opa.toNat s.opb.toNat s.entropy = .starved d rest) :
    rndrangeBody s = .next (.waiting (setSeq (.draw d) (setEntropy rest s))) := by
  rw [rndrangeBody, h]

/-- Settles O28: the bytes are those of one call of `RandRange`. -/
theorem rndrangeWritesTheDraw : Obligations.RndrangeWritesTheDraw := by
  unfold Obligations.RndrangeWritesTheDraw
  intro s bytes rest x hdraw hsource
  have hrange : randRange s.opa.toNat s.opb.toNat s.entropy = .value x rest :=
    hsource ▸ randRange_of_oneDraw hdraw rest
  have hexec := exec_of_finish (i := .rndrange) (rndrangeBody_of_value (s := beginCommand s) hrange)
  exact hexec

/-- A RNDRANGE that completed on a range that is not empty did so with a value of `RandRange`. -/
theorem exec_rndrange_completed {s t : State} (h : exec .rndrange s = .next t) (hidle : t.seq = .idle)
    (hle : s.opa.toNat ≤ s.opb.toNat) :
    ∃ v rest, randRange s.opa.toNat s.opb.toNat s.entropy = .value v rest ∧
      t = afterOk { s with res := toWord v, entropy := rest } := by
  obtain ⟨o, ho, rfl⟩ := exec_eq_next.mp h
  cases hrange : randRange s.opa.toNat s.opb.toNat s.entropy with
  | invalidRange =>
    exact absurd hle (randRange_invalidRange hrange).not_ge
  | value v rest =>
    obtain rfl := Host.Outcome.next.inj ((rndrangeBody_of_value (s := beginCommand s) hrange).symm.trans ho)
    exact ⟨v, rest, rfl, completeCommand_ok _⟩
  | starved d rest =>
    obtain rfl := Host.Outcome.next.inj ((rndrangeBody_of_starved (s := beginCommand s) hrange).symm.trans ho)
    cases hidle

/-- Settles O29: a completed RNDRANGE holds what `RandRange` returned. -/
theorem rndrangeStaysInRange : Obligations.RndrangeStaysInRange := by
  unfold Obligations.RndrangeStaysInRange
  intro s t h hidle hle
  obtain ⟨v, rest, hrange, rfl⟩ := exec_rndrange_completed h hidle hle
  obtain ⟨hlow, hhigh, D, hready, hrest, hproper, hsingle⟩ := randRange_value hrange
  have hres : (toWord v).toNat = v := Nat.mod_eq_of_lt (hhigh.trans_lt s.opb.isLt)
  exact ⟨rfl, hlow.trans_eq hres.symm, hres.trans_le hhigh, D, hready, hrest, hproper,
    fun heq => hsingle (congrArg BitVec.toNat heq)⟩

end Sys2Proof.Machine
end

section
/-! A draw that waits for the entropy source (41_secure_random_range.md R124, 42_primitive_root_search.md R137,
60_exceptions.md R202), in layers: when a block that waits stands still; the attempts of a root search on the bytes of its
draws; FINDROOT as the end of its search; then the commands on a starved source. -/

namespace Sys2Proof.Machine

/-! ### A block that waits -/

/-- A draw that finds too few bytes stops the engine (R124). -/
theorem microStep_of_starvedDraw {s : State} (h : starvedDraw s) : microStep s = .next none := by
  unfold starvedDraw at h
  split at h
  · next d hseq =>
    simp only [microStep, hseq, rndrangeStep, drawOnce_starved h.2]
  · next k d hseq =>
    obtain ⟨hq, htail⟩ := h
    have hlt : ¬ s.q.toNat - 1 < 2 := by omega
    have hne : s.q.toNat - 1 ≠ 2 := by omega
    have hdraw : drawOnce 2 (s.q.toNat - 1 - 2) s.entropy = .starved := drawOnce_starved htail
    simp only [microStep, hseq, rootStep, if_neg hlt, if_neg hne, hdraw]
  · contradiction

theorem seq_ne_idle_of_starvedDraw {s : State} (h : starvedDraw s) : s.seq ≠ .idle := by
  intro hidle
  simp [starvedDraw, hidle] at h

/-- While the engine cannot move, the next event is taken, unless it is a reset. -/
theorem step_of_starvedDraw {s : State} (h : starvedDraw s) (hreset : noResetDue s) : step s = waitingStep s := by
  rw [step_busy (seq_ne_idle_of_starvedDraw h)]
  have hstuck := microStep_of_starvedDraw h
  rcases busyStep_cases hreset with ⟨t, hmove, -⟩ | ⟨-, hwait⟩ | ⟨e, hfault, -⟩ | ⟨e, hrefused, -⟩
  · cases hstuck.symm.trans hmove
  · exact hwait
  · cases hstuck.symm.trans hfault
  · cases hstuck.symm.trans hrefused

/-- A wait with nothing to come from outside never ends (60_exceptions.md R202). -/
theorem step_of_starvedDraw_nil {s : State} (h : starvedDraw s) (henv : s.env = []) : step s = .next s := by
  have hreset : noResetDue s := fun later => by simp [henv]
  rw [step_of_starvedDraw h hreset, waitingStep, henv]

/-- A delivery joins the bytes ready, and nothing else changes. -/
theorem step_of_starvedDraw_entropy {s : State} {bytes : List Byte} {rest : List Event} (h : starvedDraw s)
    (henv : s.env = .entropy bytes :: rest) :
    step s = .next { s with env := rest, entropy := s.entropy ++ bytes } := by
  have hreset : noResetDue s := fun later => by simp [henv]
  rw [step_of_starvedDraw h hreset, waitingStep, henv]
  rfl

/-! ### The attempts of a root search -/

/-- The test of the engine is the test of the spec (42_primitive_root_search.md R132). -/
theorem rootAccepted_iff (n q r x : Nat) : rootAccepted n q (modExp x r q) = true ↔ acceptsDraw n q r x := by
  rw [rootAccepted, beq_iff_eq, modExp_eq, modExp_eq, acceptsDraw]

section rootSearch
variable {n q r : Nat}

/-- Failed attempts take their bytes and count up (R130, R132). -/
theorem rootSearch_failedAttempts {failed : List (List Byte × Nat)} (h : failedAttempts n q r failed)
    (left attempt : Nat) (bs : List Byte) :
    rootSearch n q r (left + failed.length) attempt ((failed.map Prod.fst).flatten ++ bs) =
      rootSearch n q r left (attempt + failed.length) bs := by
  induction failed generalizing attempt with
  | nil => rfl
  | cons p failed ih =>
    obtain ⟨⟨hdraw, hfails⟩, hrest⟩ := List.forall_mem_cons.mp h
    rw [List.map_cons, List.flatten_cons, List.append_assoc, List.length_cons, ← add_assoc, rootSearch,
      randRange_of_oneDraw hdraw]
    dsimp only
    rw [if_neg ((rootAccepted_iff ..).not.mpr hfails), ih hrest, add_assoc attempt, add_comm 1]

/-- A search with an attempt left waits in it when its draw does (R137). -/
theorem rootSearch_starved {failed : List (List Byte × Nat)} {rejected : List (List Byte)} {tail : List Byte} {left : Nat}
    (hq : 3 < q) (hleft : failed.length < left) (hfailed : failedAttempts n q r failed)
    (hrejected : rejectedDraws (q - 3) rejected) (htail : tail.length < drawLength (q - 3)) :
    rootSearch n q r left 1 ((failed.map Prod.fst).flatten ++ List.flatten rejected ++ tail) =
      .starved (failed.length + 1) (rejected.length + 1) tail := by
  have hrange : randRange 2 (q - 1) (List.flatten rejected ++ tail) = .starved (rejected.length + 1) tail :=
    randRange_of_starved (by omega) hrejected htail
  obtain ⟨more, rfl⟩ : ∃ more, left = more + 1 + failed.length := ⟨left - failed.length - 1, by omega⟩
  rw [List.append_assoc, rootSearch_failedAttempts hfailed, rootSearch, hrange, Nat.add_comm 1]

end rootSearch

/-! ### FINDROOT and FINDROOT.A -/

theorem withNQ_of_configured {s : State} (hconf : configured s) (k : Nat → Nat → Result Finish) :
    withNQ s k = k s.n.toNat s.q.toNat := if_pos hconf

/-- Past its checks a root search ends as its attempts do (R130). -/
theorem runCommand_findrootBody (auto : Bool) {s : State} (hconf : configured s) {b : State}
    (hb : b = prepareR auto s.n.toNat s.q.toNat (beginCommand s)) :
    runCommand (findrootBody auto) s =
      .next (searchEnd b (rootSearch s.n.toNat s.q.toNat b.r.toNat Config.attemptsMax 1 b.entropy)) := by
  rw [runCommand_eq_settle, findrootBody, withNQ_of_configured (s := beginCommand s) hconf, beginCommand_n,
    beginCommand_q, ← hb]
  dsimp only
  cases rootSearch s.n.toNat s.q.toNat b.r.toNat Config.attemptsMax 1 b.entropy <;> rfl

theorem exec_findroot {s : State} (hconf : configured s) :
    exec .findroot s = .next (searchEnd (beginCommand s)
      (rootSearch s.n.toNat s.q.toNat s.r.toNat Config.attemptsMax 1 s.entropy)) :=
  runCommand_findrootBody false hconf rfl

/-- FINDROOT.A searches with the exponent it has written (R131). -/
theorem exec_findrootA {s : State} {r : Nat} (hconf : configured s) (hr : r = (s.q.toNat - 1) / (2 * s.n.toNat)) :
    exec .findrootA s = .next (searchEnd (setR r (beginCommand s))
      (rootSearch s.n.toNat s.q.toNat r Config.attemptsMax 1 s.entropy)) := by
  have hfits : (toWord r).toNat = r := by
    have hle : r ≤ s.q.toNat := hr ▸ (Nat.div_le_self ..).trans (Nat.sub_le ..)
    exact Nat.mod_eq_of_lt (hle.trans_lt s.q.isLt)
  have hexec := runCommand_findrootBody true hconf (b := setR r (beginCommand s)) (by rw [hr]; rfl)
  rwa [setR_r, hfits] at hexec

/-! ### Starved commands -/

theorem rndrange_waits {s : State} {rejected : List (List Byte)} {tail : List Byte} (hlt : s.opa.toNat < s.opb.toNat)
    (hrejected : rejectedDraws (s.opb.toNat - s.opa.toNat) rejected)
    (htail : tail.length < drawLength (s.opb.toNat - s.opa.toNat)) (hsource : s.entropy = List.flatten rejected ++ tail) :
    exec .rndrange s =
      .next { s with entropy := tail, seq := .draw (rejected.length + 1), status := busyStatus s.status } := by
  have hrange : randRange s.opa.toNat s.opb.toNat s.entropy = .starved (rejected.length + 1) tail :=
    hsource ▸ randRange_of_starved hlt hrejected htail
  exact exec_eq_next.mpr ⟨_, rndrangeBody_of_starved (s := beginCommand s) hrange, rfl⟩

/-- Settles O30: `RandRange` and the search answer that they wait, and a starved draw stands still. -/
theorem commandsHangWithoutAnAcceptedDraw : Obligations.CommandsHangWithoutAnAcceptedDraw := by
  unfold Obligations.CommandsHangWithoutAnAcceptedDraw
  constructor
  · intro s rejected tail hlt hrejected htail hsource t
    exact ⟨rndrange_waits hlt hrejected htail hsource, step_of_starvedDraw_nil (s := t) ⟨hlt, htail⟩⟩
  · intro s failed rejected tail r hconf hq hcount hfailed hrejected htail hsource t u
    have hsearch : rootSearch s.n.toNat s.q.toNat r Config.attemptsMax 1 s.entropy =
        .starved (failed.length + 1) (rejected.length + 1) tail :=
      hsource ▸ rootSearch_starved hq hcount hfailed hrejected htail
    constructor
    · rintro rfl
      exact ⟨by rw [exec_findroot hconf, hsearch]; rfl, step_of_starvedDraw_nil (s := t) ⟨hq, htail⟩⟩
    · intro hr
      exact ⟨by rw [exec_findrootA hconf hr, hsearch]; rfl, step_of_starvedDraw_nil (s := u) ⟨hq, htail⟩⟩

end Sys2Proof.Machine
end

section
/-! A command that waited goes on (41_secure_random_range.md R121, 42_primitive_root_search.md R132, R139), in layers: a
micro-step is a step of the block; the phases of an attempt, one step each; runs of steps over the draws and the attempts
of a search; then a delivery. -/

namespace Sys2Proof.Machine

/-! ### A micro-step is a step of the block -/

/-- The engine moves before the environment, unless a reset is due (log entry 13). -/
theorem step_of_microStep {s t : State} (hreset : noResetDue s) (h : microStep s = .next (some t)) :
    step s = .next t := by
  have hbusy : s.seq ≠ .idle := by
    intro hidle
    simp [microStep, hidle] at h
  rw [step_busy hbusy]
  rcases busyStep_cases hreset with ⟨u, hmove, hstep⟩ | ⟨hstuck, -⟩ | ⟨e, hfault, -⟩ | ⟨e, hrefused, -⟩
  · cases h.symm.trans hmove
    exact hstep
  · cases h.symm.trans hstuck
  · cases h.symm.trans hfault
  · cases h.symm.trans hrefused

theorem step_of_rndrangeStep {d : Nat} {s t : State} (hseq : s.seq = .draw d) (hreset : noResetDue s)
    (h : rndrangeStep d s = some t) : step s = .next t :=
  step_of_microStep hreset (by simp only [microStep, hseq, h])

theorem step_of_rootStep {k : Nat} {phase : RootPhase} {s t : State} (hseq : s.seq = .root k phase)
    (hreset : noResetDue s) (h : rootStep k phase s = some t) : step s = .next t :=
  step_of_microStep hreset (by simp only [microStep, hseq, h])

/-! ### The phases of an attempt -/

section draw
variable {s : State} {last left : List Byte}

theorem rootStep_draw_append_accepted (hq : 3 < s.q.toNat) (k d : Nat) (hsource : s.entropy = last ++ left)
    (hlen : last.length = drawLength (s.q.toNat - 3)) (hle : drawNumber (s.q.toNat - 3) last ≤ s.q.toNat - 3) :
    rootStep k (.draw d) s =
      some (setSeq (.root k (.expR (2 + drawNumber (s.q.toNat - 3) last))) (setEntropy left s)) := by
  have hdraw : drawOnce 2 (s.q.toNat - 3) s.entropy = .accepted (2 + drawNumber (s.q.toNat - 3) last) left := by
    rw [hsource, drawOnce_append last left hlen, if_pos hle]
  exact rootStep_draw_accepted (by omega) k d hdraw

theorem rootStep_draw_append_rejected (hq : 3 < s.q.toNat) (k d : Nat) (hsource : s.entropy = last ++ left)
    (hlen : last.length = drawLength (s.q.toNat - 3)) (habove : s.q.toNat - 3 < drawNumber (s.q.toNat - 3) last) :
    rootStep k (.draw d) s = some (setSeq (.root k (.draw (d + 1))) (setEntropy left s)) := by
  have hdraw : drawOnce 2 (s.q.toNat - 3) s.entropy = .rejected left := by
    rw [hsource, drawOnce_append last left hlen, if_neg habove.not_ge]
  exact rootStep_draw_rejected (by omega) k d hdraw

/-- What the draw phase makes of the bytes of one draw (R139). -/
theorem rootStep_draw_append (hq : 3 < s.q.toNat) (k d : Nat) (hsource : s.entropy = last ++ left)
    (hlen : last.length = drawLength (s.q.toNat - 3)) :
    rootStep k (.draw d) s = some { s with
      entropy := left
      seq := .root k (if drawNumber (s.q.toNat - 3) last ≤ s.q.toNat - 3
        then .expR (2 + drawNumber (s.q.toNat - 3) last) else .draw (d + 1)) } := by
  split_ifs with hle
  · exact rootStep_draw_append_accepted hq k d hsource hlen hle
  · exact rootStep_draw_append_rejected hq k d hsource hlen (Nat.lt_of_not_le hle)

end draw

/-- A failed test of an attempt before the last leads to the next attempt (R132). -/
theorem afterFailure_of_lt {k : Nat} (hk : k < 50) (s : State) : afterFailure k s = enterAttempt (k + 1) s := if_pos hk

/-- Where a failed attempt leads does not depend on the phase it fails in. -/
theorem afterFailure_setSeq (k : Nat) (p : Seq) (s : State) : afterFailure k (setSeq p s) = afterFailure k s := by
  unfold afterFailure
  split_ifs <;> rfl

/-- A failed test of attempt 50 ends the search (60_exceptions.md R194). -/
theorem afterFailure_last (s : State) : afterFailure 50 s = afterError 2 s := completeCommand_error rfl s

theorem rootStep_test_of_eq {s : State} {k c chk : Nat} (h : chk = s.q.toNat - 1) :
    rootStep k (.test c chk) s = some (afterOk (setPsi c s)) := by
  rw [← completeCommand_ok]
  exact if_pos h

theorem rootStep_test_of_ne {s : State} {k c chk : Nat} (h : chk ≠ s.q.toNat - 1) :
    rootStep k (.test c chk) s = some (afterFailure k s) := by
  simp only [rootStep, if_neg h, afterFailure]
  split_ifs <;> rfl

/-! ### Runs of steps -/

/-- Some number of steps of the block, with its environment, leads from `s` to `t`. -/
def BlockReaches (s t : State) : Prop := ∃ count, runSteps count s = .next t

theorem BlockReaches.refl (s : State) : BlockReaches s s := ⟨0, rfl⟩

theorem BlockReaches.head {s t u : State} (h : step s = .next t) (hrun : BlockReaches t u) : BlockReaches s u := by
  obtain ⟨count, hcount⟩ := hrun
  exact ⟨count + 1, by rw [runSteps, h, andThen_next, hcount]⟩

theorem BlockReaches.trans {s t u : State} (h : BlockReaches s t) (hrun : BlockReaches t u) : BlockReaches s u := by
  obtain ⟨count, hcount⟩ := h
  induction count generalizing s with
  | zero => cases hcount; exact hrun
  | succ count ih =>
    obtain ⟨v, hfirst, hrest⟩ := andThen_eq_next.mp hcount
    exact .head hfirst (ih hrest)

/-- The state `s` at draw `d` of attempt `k`, with the bytes `bs` ready. -/
def atDraw (k d : Nat) (bs : List Byte) (s : State) : State :=
  setSeq (.root k (.draw d)) (setAttempt k (setEntropy bs s))

theorem atDraw_self {s : State} {k d : Nat} (hseq : s.seq = .root k (.draw d)) (hattempt : s.attempt = toWord k) :
    atDraw k d s.entropy s = s := by
  rw [atDraw, setAttempt, ← hattempt, setSeq, ← hseq]
  rfl

section search
variable {s : State}

theorem blockReaches_rejectedDraws (hreset : noResetDue s) (hq : 3 < s.q.toNat) (k d : Nat)
    {rejected : List (List Byte)} (h : rejectedDraws (s.q.toNat - 3) rejected) (bs : List Byte) :
    BlockReaches (atDraw k d (List.flatten rejected ++ bs) s) (atDraw k (d + rejected.length) bs s) := by
  induction rejected generalizing d with
  | nil => exact .refl _
  | cons draw rejected ih =>
    obtain ⟨⟨hlen, habove⟩, hrest⟩ := List.forall_mem_cons.mp h
    have hmove := rootStep_draw_append_rejected (s := atDraw k d (draw ++ (List.flatten rejected ++ bs)) s) hq k d rfl
      hlen habove
    rw [List.flatten_cons, List.append_assoc, List.length_cons, Nat.add_comm rejected.length, ← add_assoc]
    exact .head (step_of_rootStep rfl hreset hmove) (ih (d + 1) hrest)

/-- The draws of an attempt, rejected ones and then an accepted one, give its `x` (R139). -/
theorem blockReaches_expR (hreset : noResetDue s) (hq : 3 < s.q.toNat) (k d : Nat) {bytes : List Byte} {x : Nat}
    (h : oneDraw 2 (s.q.toNat - 1) bytes x) (bs : List Byte) :
    BlockReaches (atDraw k d (bytes ++ bs) s) (setSeq (.root k (.expR x)) (setAttempt k (setEntropy bs s))) := by
  rcases h with ⟨hsingle, -, -⟩ | ⟨-, rejected, last, rfl, hrejected, hlen, hle, rfl⟩
  · omega
  · have hmove := rootStep_draw_append_accepted (s := atDraw k (d + rejected.length) (last ++ bs) s) hq k
      (d + rejected.length) rfl hlen hle
    rw [List.append_assoc]
    exact (blockReaches_rejectedDraws hreset hq k d hrejected (last ++ bs)).trans
      (.head (step_of_rootStep rfl hreset hmove) (.refl _))

/-- From its `x` an attempt computes the candidate and its check, and is tested (R132, R139). -/
theorem blockReaches_of_test (hreset : noResetDue s) (k : Nat) {x c chk : Nat} {t : State}
    (hc : c = x ^ s.r.toNat % s.q.toNat) (hchk : chk = c ^ s.n.toNat % s.q.toNat)
    (htest : rootStep k (.test c chk) (setSeq (.root k (.test c chk)) s) = some t) :
    BlockReaches (setSeq (.root k (.expR x)) s) t := by
  rw [← modExp_eq] at hc hchk
  subst hc hchk
  have hexpR := step_of_rootStep (s := setSeq (.root k (.expR x)) s) rfl hreset rfl
  exact .head hexpR (.head (step_of_rootStep rfl hreset rfl) (.head (step_of_rootStep rfl hreset htest) (.refl _)))

/-- An attempt whose candidate is accepted ends the search (R130, R132). -/
theorem blockReaches_found (hreset : noResetDue s) (hq : 3 < s.q.toNat) (k d : Nat) {bytes : List Byte} {x : Nat}
    (h : oneDraw 2 (s.q.toNat - 1) bytes x) (haccepted : acceptsDraw s.n.toNat s.q.toNat s.r.toNat x)
    (bs : List Byte) :
    BlockReaches (atDraw k d (bytes ++ bs) s)
      (afterOk (setPsi (x ^ s.r.toNat % s.q.toNat) (setAttempt k (setEntropy bs s)))) :=
  (blockReaches_expR hreset hq k d h bs).trans
    (blockReaches_of_test (s := setAttempt k (setEntropy bs s)) hreset k rfl rfl (rootStep_test_of_eq haccepted))

/-- An attempt whose candidate is not accepted leads where failed attempts lead (R132). -/
theorem blockReaches_afterFailure (hreset : noResetDue s) (hq : 3 < s.q.toNat) (k d : Nat) {bytes : List Byte} {x : Nat}
    (h : oneDraw 2 (s.q.toNat - 1) bytes x) (hfails : ¬ acceptsDraw s.n.toNat s.q.toNat s.r.toNat x)
    (bs : List Byte) :
    BlockReaches (atDraw k d (bytes ++ bs) s) (afterFailure k (setAttempt k (setEntropy bs s))) := by
  have hrun := blockReaches_of_test (s := setAttempt k (setEntropy bs s)) hreset k rfl rfl (rootStep_test_of_ne hfails)
  rw [afterFailure_setSeq] at hrun
  exact (blockReaches_expR hreset hq k d h bs).trans hrun

/-- Failed attempts before the last take their bytes and count up (R132). -/
theorem blockReaches_failedAttempts (hreset : noResetDue s) (hq : 3 < s.q.toNat) {failed : List (List Byte × Nat)}
    (h : failedAttempts s.n.toNat s.q.toNat s.r.toNat failed) (k d : Nat) (hk : k + failed.length ≤ 50) (bs : List Byte) :
    ∃ d', BlockReaches (atDraw k d ((failed.map Prod.fst).flatten ++ bs) s) (atDraw (k + failed.length) d' bs s) := by
  induction failed generalizing k d with
  | nil => exact ⟨d, .refl _⟩
  | cons p failed ih =>
    obtain ⟨⟨hdraw, hfails⟩, hrest⟩ := List.forall_mem_cons.mp h
    rw [List.length_cons] at hk ⊢
    have hfirst := blockReaches_afterFailure hreset hq k d hdraw hfails ((failed.map Prod.fst).flatten ++ bs)
    rw [afterFailure_of_lt (by omega)] at hfirst
    obtain ⟨d', hlater⟩ := ih hrest (k + 1) 1 (by omega)
    rw [List.map_cons, List.flatten_cons, List.append_assoc, Nat.add_comm failed.length, ← add_assoc]
    exact ⟨d', hfirst.trans hlater⟩

/-- Failed attempts and then an accepted one end the search with its candidate (R130, R132). -/
theorem blockReaches_foundAfterFailures (hreset : noResetDue s) (hq : 3 < s.q.toNat) {failed : List (List Byte × Nat)}
    (h : failedAttempts s.n.toNat s.q.toNat s.r.toNat failed) {k : Nat} (d : Nat) (hk : k + failed.length ≤ 50)
    {last : List Byte} {x : Nat} (hdraw : oneDraw 2 (s.q.toNat - 1) last x)
    (haccepted : acceptsDraw s.n.toNat s.q.toNat s.r.toNat x) (bs : List Byte) :
    BlockReaches (atDraw k d ((failed.map Prod.fst).flatten ++ last ++ bs) s)
      (afterOk (setPsi (x ^ s.r.toNat % s.q.toNat) (setAttempt (k + failed.length) (setEntropy bs s)))) := by
  obtain ⟨d', hfirst⟩ := blockReaches_failedAttempts hreset hq h k d hk (last ++ bs)
  rw [List.append_assoc]
  exact hfirst.trans (blockReaches_found hreset hq (k + failed.length) d' hdraw haccepted bs)

/-- Attempts that fail up to the fiftieth end the search (60_exceptions.md R194). -/
theorem blockReaches_notFound (hreset : noResetDue s) (hq : 3 < s.q.toNat) {failed : List (List Byte × Nat)}
    (h : failedAttempts s.n.toNat s.q.toNat s.r.toNat failed) {k : Nat} (d : Nat) (hlast : k ≤ 50)
    (hk : k + failed.length = 51) (bs : List Byte) :
    BlockReaches (atDraw k d ((failed.map Prod.fst).flatten ++ bs) s)
      (afterError 2 (setAttempt 50 (setEntropy bs s))) := by
  rcases List.eq_nil_or_concat' failed with rfl | ⟨before, p, rfl⟩
  · simp only [List.length_nil] at hk
    omega
  · rw [List.length_append, List.length_singleton] at hk
    have hbefore : failedAttempts s.n.toNat s.q.toNat s.r.toNat before := fun _ hp => h _ (by simp [hp])
    obtain ⟨hdraw, hfails⟩ := h p (by simp)
    have hcount : k + before.length = 50 := by omega
    obtain ⟨d', hfirst⟩ := blockReaches_failedAttempts hreset hq hbefore k d hcount.le (p.1 ++ bs)
    have hend := blockReaches_afterFailure hreset hq 50 d' hdraw hfails bs
    rw [afterFailure_last] at hend
    rw [hcount] at hfirst
    simpa using hfirst.trans hend

end search

/-! ### A delivery -/

/-- The current draw of a RNDRANGE finds an accepted draw: the command completes with its value (R121, R123). -/
theorem step_draw_accepted {s : State} {d : Nat} {last left : List Byte} (hseq : s.seq = .draw d)
    (hreset : noResetDue s) (hsource : s.entropy = last ++ left)
    (hlen : last.length = drawLength (s.opb.toNat - s.opa.toNat))
    (hle : drawNumber (s.opb.toNat - s.opa.toNat) last ≤ s.opb.toNat - s.opa.toNat) :
    step s = .next (afterOk { s with
      entropy := left, res := toWord (s.opa.toNat + drawNumber (s.opb.toNat - s.opa.toNat) last) }) := by
  have hdraw : drawOnce s.opa.toNat (s.opb.toNat - s.opa.toNat) s.entropy =
      .accepted (s.opa.toNat + drawNumber (s.opb.toNat - s.opa.toNat) last) left := by
    rw [hsource, drawOnce_append last left hlen, if_pos hle]
  rw [step_of_rndrangeStep hseq hreset (rndrangeStep_accepted d hdraw), completeCommand_ok]
  rfl

/-- Settles O56: the delivery is the first step; then the draw, the runs of the search, or the phase. -/
theorem waitingCommandsGoOnAfterADelivery : Obligations.WaitingCommandsGoOnAfterADelivery := by
  unfold Obligations.WaitingCommandsGoOnAfterADelivery
  refine ⟨?_, ?_, ?_⟩
  · intro s d bytes last left rest hseq henv hreset hrange hshort hsource hlen hle
    have hstarved : starvedDraw s := by
      rw [starvedDraw, hseq]
      exact ⟨hrange, hshort⟩
    exact ⟨_, step_of_starvedDraw_entropy hstarved henv, rfl, step_draw_accepted hseq hreset hsource hlen hle⟩
  · intro s k d bytes left failed rest hseq hinv hstarved henv hreset hfailed t
    have hq : 3 < s.q.toNat := by
      rw [starvedDraw, hseq] at hstarved
      exact hstarved.1
    simp only [seqInv, hseq] at hinv
    obtain ⟨-, hlast, hattempt, -, -⟩ := hinv
    have hself : atDraw k d (s.entropy ++ bytes) t = t := atDraw_self (s := t) hseq hattempt
    refine ⟨step_of_starvedDraw_entropy hstarved henv, fun last x hk hdraw haccepted hsource => ?_,
      fun hk hsource => ?_⟩ <;> rw [← hself, hsource]
    · exact blockReaches_foundAfterFailures (s := t) hreset hq hfailed d hk hdraw haccepted left
    · exact blockReaches_notFound (s := t) hreset hq hfailed d hlast hk left
  · intro s k phase hseq hinv hreset
    cases phase with
    | draw d =>
      refine ⟨fun last left hq hsource hlen => ?_, fun hq => ?_, fun hq => ?_⟩
      · exact step_of_rootStep hseq hreset (rootStep_draw_append hq k d hsource hlen)
      · exact step_of_rootStep hseq hreset (rootStep_draw_single (by omega) k d)
      · rw [step_of_rootStep hseq hreset (rootStep_draw_invalidRange (by omega) k d)]
        exact congrArg _ (completeCommand_error rfl s)
    | expR x =>
      rw [step_of_rootStep hseq hreset rfl, modExp_eq]
      rfl
    | expN c =>
      rw [step_of_rootStep hseq hreset rfl, modExp_eq]
      rfl
    | test c chk =>
      refine ⟨fun h => ?_, fun h hk => ?_, fun h hk => ?_⟩
      · exact step_of_rootStep hseq hreset (rootStep_test_of_eq h)
      · rw [step_of_rootStep hseq hreset (rootStep_test_of_ne h), afterFailure_of_lt hk]
        rfl
      · rw [step_of_rootStep hseq hreset (rootStep_test_of_ne h), hk, afterFailure_last]

end Sys2Proof.Machine
end

section
/-! The results of the root search (42_primitive_root_search.md R130 to R138), in layers: how the attempts of a search end;
the search as a command; when a search that has ended found a root, in its own step or in a later one; the root law. -/

namespace Sys2Proof.Machine

/-! ### How the attempts of a search end -/

section rootSearch
variable {n q r : Nat}

/-- Failed attempts and then an accepted one give its candidate and leave the bytes after it (R132, R133). -/
theorem rootSearch_found {failed : List (List Byte × Nat)} {bytes : List Byte} {x left : Nat}
    (hleft : failed.length < left) (hfailed : failedAttempts n q r failed) (hdraw : oneDraw 2 (q - 1) bytes x)
    (haccepted : acceptsDraw n q r x) (rest : List Byte) :
    rootSearch n q r left 1 ((failed.map Prod.fst).flatten ++ bytes ++ rest) =
      .found (x ^ r % q) (failed.length + 1) rest := by
  obtain ⟨more, rfl⟩ : ∃ more, left = more + 1 + failed.length := ⟨left - failed.length - 1, by omega⟩
  rw [List.append_assoc, rootSearch_failedAttempts hfailed, rootSearch, randRange_of_oneDraw hdraw]
  dsimp only
  rw [if_pos ((rootAccepted_iff ..).mpr haccepted), modExp_eq, Nat.add_comm 1]

/-- A search whose attempts all fail takes the bytes of all of them (60_exceptions.md R194). -/
theorem rootSearch_notFound {failed : List (List Byte × Nat)} (hfailed : failedAttempts n q r failed)
    (rest : List Byte) :
    rootSearch n q r failed.length 1 ((failed.map Prod.fst).flatten ++ rest) = .notFound failed.length rest := by
  have hattempts := rootSearch_failedAttempts hfailed 0 1 rest
  rwa [Nat.zero_add, rootSearch, Nat.add_sub_cancel_left] at hattempts

/-- An empty range `[2, Q - 1]` ends the first attempt, before any byte is taken (R134). -/
theorem rootSearch_invalidRange (hq : q - 1 < 2) {left : Nat} (hleft : 0 < left) (attempt : Nat) (bs : List Byte) :
    rootSearch n q r left attempt bs = .invalidRange attempt := by
  obtain ⟨more, rfl⟩ := Nat.exists_eq_succ_of_ne_zero hleft.ne'
  rw [rootSearch, randRange, if_pos hq]

/-- What a search finds is a candidate that passed the test (R132). -/
theorem acceptsDraw_of_rootSearch {left attempt c k : Nat} {bs rest : List Byte}
    (h : rootSearch n q r left attempt bs = .found c k rest) : ∃ x, c = x ^ r % q ∧ acceptsDraw n q r x := by
  induction left generalizing attempt bs with
  | zero => cases h
  | succ left ih =>
    rw [rootSearch] at h
    cases hdraw : randRange 2 (q - 1) bs with
    | invalidRange => rw [hdraw] at h; cases h
    | starved d after => rw [hdraw] at h; cases h
    | value x after =>
      rw [hdraw] at h
      dsimp only at h
      split_ifs at h with haccepted
      · cases h
        exact ⟨x, modExp_eq .., (rootAccepted_iff ..).mp haccepted⟩
      · exact ih h

end rootSearch

/-! ### The search as a command -/

/-- Settles O32: the search of either form finds the candidate, and its end is that of a command without an error. -/
theorem findrootReturnsTheFirstAcceptedCandidate : Obligations.FindrootReturnsTheFirstAcceptedCandidate := by
  unfold Obligations.FindrootReturnsTheFirstAcceptedCandidate
  intro s failed bytes rest x r hconf hcount hfailed hdraw haccepted hsource t
  have hsearch : rootSearch s.n.toNat s.q.toNat r Config.attemptsMax 1 s.entropy =
      .found (x ^ r % s.q.toNat) (failed.length + 1) rest :=
    hsource ▸ rootSearch_found hcount hfailed hdraw haccepted rest
  constructor
  · rintro rfl
    rw [exec_findroot hconf, hsearch]
    exact congrArg _ (completeCommand_ok _)
  · intro hr
    rw [exec_findrootA hconf hr, hsearch]
    exact congrArg _ (completeCommand_ok _)

/-- FINDROOT after fifty failed attempts (60_exceptions.md R194). -/
theorem exec_findroot_notFound {s : State} {failed : List (List Byte × Nat)} {rest : List Byte} (hconf : configured s)
    (hcount : failed.length = 50) (hfailed : failedAttempts s.n.toNat s.q.toNat s.r.toNat failed)
    (hsource : s.entropy = (failed.map Prod.fst).flatten ++ rest) :
    exec .findroot s = .next (afterError 2 { s with attempt := 50, entropy := rest }) := by
  have hsearch : rootSearch s.n.toNat s.q.toNat s.r.toNat Config.attemptsMax 1 s.entropy = .notFound 50 rest := by
    have hattempts := rootSearch_notFound hfailed rest
    rwa [hcount, ← hsource] at hattempts
  rw [exec_findroot hconf, hsearch]
  exact congrArg _ (completeCommand_error rfl _)

/-- FINDROOT on an empty range (R134, 60_exceptions.md R192). -/
theorem exec_findroot_invalidRange {s : State} (hconf : configured s) (hq : s.q.toNat - 1 < 2) :
    exec .findroot s = .next (afterError 1 { s with attempt := 1 }) := by
  rw [exec_findroot hconf, rootSearch_invalidRange hq (by decide)]
  exact congrArg _ (completeCommand_error rfl _)

/-- A root search whose parameters fail the check is ERR_CONFIG, and nothing is drawn (60_exceptions.md R193). -/
theorem findrootBody_of_not_configured (auto : Bool) {b : State} (h : ¬ configured b) :
    findrootBody auto b = raise .config b := if_neg h

/-- Settles O35: for `Q = 3` every attempt draws 2 from no bytes, so the first one or all fifty tell; below that the range
is empty, or `Q` fails its check. -/
theorem smallModuliOfTheRootSearch : Obligations.SmallModuliOfTheRootSearch := by
  unfold Obligations.SmallModuliOfTheRootSearch
  have hdraw : oneDraw 2 (3 - 1) [] 2 := .inl ⟨rfl, rfl, rfl⟩
  have hfirst : ∀ s : State, nValid s.n.toNat = true → s.q.toNat = 3 → acceptsDraw s.n.toNat 3 s.r.toNat 2 →
      exec .findroot s = .next (afterOk { s with psi := toWord (2 ^ s.r.toNat % 3), attempt := 1 }) := by
    intro s hn hq haccepted
    have hfound := findrootReturnsTheFirstAcceptedCandidate s [] [] s.entropy 2 s.r.toNat ⟨by omega, hn⟩ (by decide)
      (by simp [failedAttempts])
    rw [hq] at hfound
    exact (hfound hdraw haccepted rfl).1 rfl
  refine ⟨fun s hn => ⟨hfirst s hn, fun hq hfails => ?_, fun hq => ?_, fun hq => ?_⟩, fun s hq hn hr => ?_⟩
  · have hfailed : failedAttempts s.n.toNat s.q.toNat s.r.toNat (List.replicate 50 ([], 2)) := by
      intro p hp
      rw [List.eq_of_mem_replicate hp, hq]
      exact ⟨hdraw, hfails⟩
    exact exec_findroot_notFound ⟨by omega, hn⟩ List.length_replicate hfailed rfl
  · exact exec_findroot_invalidRange ⟨by omega, hn⟩ (by omega)
  · have hbody := findrootBody_of_not_configured false (b := beginCommand s) fun hconf => hconf.1 hq
    exact exec_of_raise (i := .findroot) rfl hbody
  · have hfound := hfirst s (by rw [hn]; decide) hq (by rw [hn, hr]; rfl)
    rwa [hr] at hfound

/-! ### A search that has ended without an error -/

theorem errCodeWord_eq_zero {c : ErrCode} : errCodeWord c = 0 ↔ c = .ok := by
  cases c <;> decide

/-- The state holds in `PSI` a residue that passed the acceptance test (R132, R133). -/
def HoldsRoot (t : State) : Prop :=
  ∃ c, t.psi = toWord c ∧ c < t.q.toNat ∧ c ^ t.n.toNat % t.q.toNat = t.q.toNat - 1

/-- A search that has ended without an error ended with a candidate (R133). -/
theorem holdsRoot_searchEnd {b : State} {n q r left attempt : Nat} {bs : List Byte} {outcome : Search}
    (hn : n = b.n.toNat) (hq : q = b.q.toNat) (hq0 : q ≠ 0) (hsearch : rootSearch n q r left attempt bs = outcome)
    (hidle : (searchEnd b outcome).seq = .idle) (hok : (searchEnd b outcome).errcode = 0) :
    HoldsRoot (searchEnd b outcome) := by
  subst hn hq
  cases outcome with
  | found c k rest =>
    obtain ⟨x, rfl, haccepted⟩ := acceptsDraw_of_rootSearch hsearch
    exact ⟨_, rfl, Nat.mod_lt _ (Nat.pos_of_ne_zero hq0), haccepted⟩
  | invalidRange k => cases errCodeWord_eq_zero.mp hok
  | notFound k rest => cases errCodeWord_eq_zero.mp hok
  | starved k d rest => cases hidle

/-- FINDROOT and FINDROOT.A that end with 0 in their own step (R133). -/
theorem holdsRoot_of_runCommand {auto : Bool} {s t : State} (h : runCommand (findrootBody auto) s = .next t)
    (hidle : t.seq = .idle) (hok : t.errcode = 0) : HoldsRoot t := by
  by_cases hconf : configured s
  · rw [runCommand_findrootBody auto hconf rfl] at h
    cases h
    exact holdsRoot_searchEnd (by rw [prepareR_n]; rfl) (by rw [prepareR_q]; rfl) hconf.1 rfl hidle hok
  · rw [runCommand_eq_settle, findrootBody_of_not_configured auto (b := beginCommand s) hconf] at h
    cases h
    cases errCodeWord_eq_zero.mp hok

/-- The only micro-step of a search that ends it without an error is a passed test (R139). -/
theorem rootStep_ended_ok {k : Nat} {phase : RootPhase} {s t : State} (h : rootStep k phase s = some t)
    (hidle : t.seq = .idle) (hok : t.errcode = 0) :
    ∃ c, phase = .test c (s.q.toNat - 1) ∧ t = afterOk (setPsi c s) := by
  cases phase with
  | draw d =>
    simp only [rootStep] at h
    split_ifs at h
    · cases h
      cases errCodeWord_eq_zero.mp hok
    · cases h
      cases hidle
    · split at h <;> cases h <;> cases hidle
  | expR x =>
    cases h
    cases hidle
  | expN c =>
    cases h
    cases hidle
  | test c chk =>
    by_cases hchk : chk = s.q.toNat - 1
    · rw [rootStep_test_of_eq hchk] at h
      cases h
      exact ⟨c, by rw [hchk], rfl⟩
    · rw [rootStep_test_of_ne hchk, afterFailure] at h
      split_ifs at h <;> cases h
      · cases hidle
      · cases errCodeWord_eq_zero.mp hok

/-- A search that had to wait and ends with 0 in a later step of the block (R133, R139). A reset clears `Q`. -/
theorem holdsRoot_of_step {k : Nat} {phase : RootPhase} {s t : State} (hseq : s.seq = .root k phase) (hs : seqInv s)
    (h : step s = .next t) (hidle : t.seq = .idle) (hok : t.errcode = 0) (hq : t.q.toNat ≠ 0) : HoldsRoot t := by
  have hbusy : s.seq ≠ .idle := by simp [hseq]
  rcases step_busy_cases hbusy h with ⟨rest, -, rfl⟩ | hmicro | ⟨words, env, bs, rfl⟩
  · exact absurd rfl hq
  · have hroot : rootStep k phase s = some t := by
      simp only [microStep, hseq] at hmicro
      exact Host.Outcome.next.inj hmicro
    obtain ⟨c, rfl, rfl⟩ := rootStep_ended_ok hroot hidle hok
    simp only [seqInv, hseq] at hs
    obtain ⟨-, -, -, -, hlt, htest⟩ := hs
    exact ⟨c, rfl, hlt, htest.symm⟩
  · exact absurd hidle hbusy

/-! ### The root law -/

/-- `(q - 1)^2 = q (q - 2) + 1` (R138). -/
theorem pred_sq_mod {q : Nat} (hq : 2 ≤ q) : (q - 1) ^ 2 % q = 1 := by
  obtain ⟨p, rfl⟩ := Nat.exists_eq_add_of_le' hq
  have hsquare : (p + 2 - 1) ^ 2 = 1 + p * (p + 2) := by
    rw [Nat.add_sub_assoc one_le_two]
    ring
  rw [hsquare, Nat.add_mul_mod_self_right, Nat.mod_eq_of_lt (by omega)]

/-- The acceptance test and its square (R138). -/
theorem HoldsRoot.law {t : State} (h : HoldsRoot t) (hq : 2 ≤ t.q.toNat) :
    modExp t.psi.toNat t.n.toNat t.q.toNat = t.q.toNat - 1 ∧ modExp t.psi.toNat (2 * t.n.toNat) t.q.toNat = 1 ∧
      t.psi.toNat < t.q.toNat := by
  obtain ⟨c, hpsi, hlt, htest⟩ := h
  have hc : t.psi.toNat = c := by
    rw [hpsi]
    exact Nat.mod_eq_of_lt (hlt.trans t.q.isLt)
  have hsquare : c ^ (2 * t.n.toNat) % t.q.toNat = 1 := by
    rw [pow_mul', Nat.pow_mod, htest, pred_sq_mod hq]
  rw [hc, modExp_eq, modExp_eq]
  exact ⟨htest, hsquare, hlt⟩

/-- Settles O34: a root search that ends with 0 holds a candidate that passed the test, whether it ended in its own step
or in a later one. -/
theorem foundRootsSatisfyTheRootLaw : Obligations.FoundRootsSatisfyTheRootLaw := by
  unfold Obligations.FoundRootsSatisfyTheRootLaw
  refine ⟨fun i s t hi h hidle hok hq => ?_, fun s t k phase hseq hs h hidle hok hq => ?_⟩
  · have hroot : HoldsRoot t := by
      rcases hi with rfl | rfl
      · exact holdsRoot_of_runCommand (auto := false) h hidle hok
      · exact holdsRoot_of_runCommand (auto := true) h hidle hok
    exact hroot.law (by omega)
  · obtain ⟨-, -, -, -, -, -, -, hpos⟩ := hs
    exact (holdsRoot_of_step hseq hpos h hidle hok (by omega)).law (by omega)

end Sys2Proof.Machine
end

section
/-! The twiddle tables (43_twiddle_table.md R140 to R147), in layers: bit reversal; a loop that places a list of `2^k` words
at the reversed indices; the powers of a root and the table TWGEN leaves; then what the words of one table, and of the tables
of a root and its inverse, are. -/

namespace Sys2Proof.Machine

/-! ### Bit reversal -/

theorem brv_zero (k : Nat) : brv k 0 = 0 := by
  induction k with
  | zero => rfl
  | succ k ih => simp [brv, ih]

theorem testBit_brv (k i b : Nat) : (brv k i).testBit b = (decide (b < k) && i.testBit (k - 1 - b)) := by
  induction k generalizing i with
  | zero => simp [brv]
  | succ k ih =>
    rw [brv, mul_comm, Nat.testBit_two_pow_mul_add _ (brv_lt k (i / 2))]
    rcases lt_trichotomy b k with hlow | rfl | hhigh
    · have hbit : (i / 2).testBit (k - 1 - b) = i.testBit (k - b) := by
        rw [← Nat.testBit_succ, show (k - 1 - b).succ = k - b by omega]
      simp [hlow, Nat.lt_succ_of_lt hlow, ih, hbit]
    · simp
    · have hpos : b - k ≠ 0 := by omega
      have hbit : (i % 2).testBit (b - k) = false :=
        Nat.testBit_lt_two_pow ((Nat.mod_lt i two_pos).trans_le (Nat.le_self_pow hpos 2))
      simp [hhigh.not_gt, show ¬ b < k + 1 by omega, hbit]

theorem brv_brv {k i : Nat} (hi : i < 2 ^ k) : brv k (brv k i) = i := by
  refine Nat.eq_of_testBit_eq fun b => ?_
  rw [testBit_brv, testBit_brv]
  by_cases hb : b < k
  · rw [show k - 1 - (k - 1 - b) = b by omega]
    simp [hb, show k - 1 - b < k by omega]
  · have hzero : i.testBit b = false :=
      Nat.testBit_lt_two_pow (hi.trans_le (Nat.pow_le_pow_right two_pos (not_lt.mp hb)))
    simp [hb, hzero]

theorem brv_injOn (k : Nat) : Set.InjOn (brv k) {i | i < 2 ^ k} := fun i hi j hj h => by
  rw [← brv_brv hi, h, brv_brv hj]

/-- Reversal of a group's index: the leading one becomes the lowest of the upper `e + 1` bits, the bits of `i` stand
reversed above it. -/
theorem brv_two_pow_add (d e : Nat) {i : Nat} (hi : i < 2 ^ e) :
    brv (e + 1 + d) (2 ^ e + i) = 2 ^ d * (2 * brv e i + 1) := by
  induction e generalizing i with
  | zero =>
    obtain rfl : i = 0 := by simpa using hi
    rw [zero_add, add_comm 1 d]
    simp [brv, brv_zero]
  | succ e ih =>
    have hhalf : (2 ^ (e + 1) + i) / 2 = 2 ^ e + i / 2 := by rw [pow_succ]; omega
    have hparity : (2 ^ (e + 1) + i) % 2 = i % 2 := by rw [pow_succ]; omega
    rw [show e + 1 + 1 + d = e + 1 + d + 1 by omega, brv, hhalf, hparity, ih (by rw [pow_succ] at hi; omega), brv]
    ring

/-! ### Words placed at reversed indices -/

/-- A loop of writes at distinct indices leaves each value at its index and every other word as it was. -/
theorem forEach_writeWord {α : Type} (sp : Space) (index : α → Nat) (value : α → Word) {xs : List α}
    (hindex : ∀ x ∈ xs, index x < Config.nMax) (hdistinct : (xs.map index).Nodup) (s : State) :
    ∃ m, forEach (fun x => writeWord sp (index x) (value x)) xs s = .next (setSpaceMem sp m s) ∧
      (∀ x ∈ xs, memRead m (index x) = some (value x)) ∧
      (∀ j, j ∉ xs.map index → memRead m j = memRead (spaceMem sp s) j) := by
  induction xs generalizing s with
  | nil => exact ⟨spaceMem sp s, by rw [setSpaceMem_spaceMem]; rfl, by simp, fun _ _ => rfl⟩
  | cons x xs ih =>
    obtain ⟨hx, hxs⟩ := List.forall_mem_cons.mp hindex
    obtain ⟨hfresh, hrest⟩ := List.nodup_cons.mp hdistinct
    have hwrite := writeWord_eq_next (sp := sp) (v := value x) (s := s).mpr ⟨hx, rfl⟩
    obtain ⟨m, hloop, hplaced, hkept⟩ := ih hxs hrest (setSpaceMem sp (memWrite (spaceMem sp s) (index x) (value x)) s)
    rw [spaceMem_setSpaceMem_same] at hkept
    refine ⟨m, ?_, List.forall_mem_cons.mpr ⟨?_, hplaced⟩, fun j hj => ?_⟩
    · rw [forEach_cons, hwrite, andThen_next, hloop, setSpaceMem_setSpaceMem]
    · rw [hkept _ hfresh, memRead_memWrite_same]
    · obtain ⟨hne, hother⟩ := not_or.mp (hj ∘ List.mem_cons.mpr)
      rw [hkept j hother, memRead_memWrite_other _ _ hne]

/-- The loop of TWGEN and of BITREV: element `i` of a list of `2^k` goes to index `brv_k(i)` (46_bit_reverse.md R171). -/
theorem forEach_writeWord_brv {α : Type} (sp : Space) (value : α → Word) {k : Nat} (hk : k ≤ 10) {xs : List α}
    (hlength : xs.length = 2 ^ k) (s : State) :
    ∃ m, forEach (fun p => writeWord sp (brv k p.2) (value p.1)) xs.zipIdx s = .next (setSpaceMem sp m s) ∧
      (∀ i (hi : i < xs.length), memRead m (brv k i) = some (value xs[i])) ∧
      (∀ j, 2 ^ k ≤ j → memRead m j = memRead (spaceMem sp s) j) := by
  have hindices : xs.zipIdx.map (fun p => brv k p.2) = (List.range (2 ^ k)).map (brv k) := by
    rw [← hlength, List.range_eq_range', ← List.zipIdx_map_snd 0 xs, List.map_map]
    rfl
  have hbelow (p : α × Nat) : brv k p.2 < Config.nMax :=
    (brv_lt k p.2).trans_le (Nat.pow_le_pow_right two_pos hk)
  have hdistinct : (xs.zipIdx.map fun p => brv k p.2).Nodup := by
    rw [hindices]
    exact List.nodup_range.map_on fun i hi j hj h => brv_injOn k (List.mem_range.mp hi) (List.mem_range.mp hj) h
  obtain ⟨m, hloop, hplaced, hkept⟩ :=
    forEach_writeWord sp (fun p : α × Nat => brv k p.2) (fun p => value p.1) (fun p _ => hbelow p) hdistinct s
  refine ⟨m, hloop, fun i hi => hplaced (xs[i], i) ?_, fun j hj => hkept j ?_⟩
  · exact List.mk_mem_zipIdx_iff_getElem?.mpr (List.getElem?_eq_getElem hi)
  · rw [hindices]
    intro hmem
    obtain ⟨i, -, rfl⟩ := List.mem_map.mp hmem
    exact absurd (brv_lt k i) (not_lt.mpr hj)

/-! ### The table TWGEN leaves -/

theorem powersFrom_eq_map (root q count j : Nat) :
    powersFrom root q count (root ^ j % q) = (List.range' j count).map fun i => root ^ i % q := by
  induction count generalizing j with
  | zero => rfl
  | succ count ih =>
    have hnext : mulMod (root ^ j % q) root q = root ^ (j + 1) % q := by rw [mulMod, Nat.mod_mul_mod, pow_succ]
    rw [powersFrom, hnext, ih, List.range'_succ, List.map_cons]

theorem powers_eq_map (root q n : Nat) : powers root q n = (List.range n).map fun i => root ^ i % q := by
  rw [powers, ← pow_zero root, powersFrom_eq_map, List.range_eq_range']

/-- `m` is `old` with word `p < 2^k` the power `root^(brv_k(p)) mod q` (R141). -/
structure HoldsPowers (old m : Memory) (k root q : Nat) : Prop where
  power : ∀ p, p < 2 ^ k → memRead m p = some (toWord (root ^ brv k p % q))
  kept : ∀ p, 2 ^ k ≤ p → memRead m p = memRead old p

theorem twgenBody_eq_finish (dest : Space) {b : State} {k : Nat} (hk : k ≤ 10) (hn : b.n.toNat = 2 ^ k)
    (hq : b.q.toNat ≠ 0) :
    ∃ m, twgenBody dest b = finish (setSpaceMem dest m b) ∧
      HoldsPowers (spaceMem dest b) m k (twiddleRoot dest b) b.q.toNat := by
  have hconf : configured b := ⟨hq, (nValid_iff _).mpr ⟨k, hk, hn⟩⟩
  have hlength : (powers (twiddleRoot dest b) b.q.toNat (2 ^ k)).length = 2 ^ k := length_powersFrom ..
  obtain ⟨m, hloop, hplaced, hkept⟩ := forEach_writeWord_brv dest toWord hk hlength b
  refine ⟨m, ?_, fun p hp => ?_, hkept⟩
  · rw [twgenBody, withNQ_of_configured hconf, hn, log2_two_pow]
    exact congrArg (andThen · finish) hloop
  · have hword := hplaced (brv k p) (hlength.symm ▸ brv_lt k p)
    simpa only [brv_brv hp, powers_eq_map, List.getElem_map, List.getElem_range] using hword

section tables
variable {s : State} {k : Nat}

theorem exec_twgenF (hk : k ≤ 10) (hn : s.n.toNat = 2 ^ k) (hq : s.q.toNat ≠ 0) :
    ∃ m, exec .twgenF s = .next (afterOk { s with tf := m }) ∧ HoldsPowers s.tf m k s.psi.toNat s.q.toNat := by
  obtain ⟨m, hbody, hm⟩ := twgenBody_eq_finish .tf (b := beginCommand s) hk hn hq
  have hexec := exec_of_finish (i := .twgenF) hbody
  exact ⟨m, hexec, hm⟩

theorem exec_twgenI (hk : k ≤ 10) (hn : s.n.toNat = 2 ^ k) (hq : s.q.toNat ≠ 0) :
    ∃ m, exec .twgenI s = .next (afterOk { s with ti := m }) ∧ HoldsPowers s.ti m k s.psiInv.toNat s.q.toNat := by
  obtain ⟨m, hbody, hm⟩ := twgenBody_eq_finish .ti (b := beginCommand s) hk hn hq
  have hexec := exec_of_finish (i := .twgenI) hbody
  exact ⟨m, hexec, hm⟩

end tables

/-- Settles O36: the powers in natural order, placed at reversed indices, are in bit-reversed order, because the reversal
is its own inverse. -/
theorem twgenBuildsTheBitReversedPowers : Obligations.TwgenBuildsTheBitReversedPowers := by
  unfold Obligations.TwgenBuildsTheBitReversedPowers
  intro s k hk hn hq
  obtain ⟨mF, hexecF, hF⟩ := exec_twgenF hk hn hq
  obtain ⟨mI, hexecI, hI⟩ := exec_twgenI hk hn hq
  exact ⟨⟨mF, hexecF, hF.power, hF.kept⟩, mI, hexecI, hI.power, hI.kept⟩

/-! ### The words of one table -/

section words
variable {old m : Memory} {k root q : Nat}

/-- The twiddle of group `i` in the stage of `2^e` groups (R142). -/
theorem HoldsPowers.stage_power (h : HoldsPowers old m k root q) {e i : Nat} (he : e < k) (hi : i < 2 ^ e) :
    memRead m (2 ^ e + i) = some (toWord (root ^ (2 ^ k / (2 * 2 ^ e) * (2 * brv e i + 1)) % q)) := by
  obtain ⟨d, rfl⟩ := Nat.exists_eq_add_of_le (Nat.succ_le_of_lt he)
  have hindex : 2 ^ e + i < 2 ^ (e + 1 + d) :=
    calc 2 ^ e + i < 2 ^ (e + 1) := by rw [pow_succ]; omega
      _ ≤ 2 ^ (e + 1 + d) := Nat.pow_le_pow_right two_pos (Nat.le_add_right ..)
  have hspan : 2 ^ (e + 1 + d) / (2 * 2 ^ e) = 2 ^ d := by
    rw [← pow_succ', pow_add, Nat.mul_div_cancel_left _ (Nat.two_pow_pos _)]
  rw [hspan, ← brv_two_pow_add d e hi]
  exact h.power _ hindex

theorem HoldsPowers.wordAt_eq (h : HoldsPowers old m k root q) (hpos : 0 < q) (hq : q < 2 ^ 32) {p : Nat}
    (hp : p < 2 ^ k) : wordAt m p = root ^ brv k p % q := by
  rw [wordAt, h.power p hp]
  exact Nat.mod_eq_of_lt ((Nat.mod_lt _ hpos).trans hq)

end words

/-- Settles O37: the entry's exponent is the reversed index, which is the odd multiple of R142. -/
theorem stageTwiddlesAreOddPowers : Obligations.StageTwiddlesAreOddPowers := by
  unfold Obligations.StageTwiddlesAreOddPowers
  refine fun s t k e i hk hn hq he hi => ⟨fun h => ?_, fun h => ?_⟩
  · obtain ⟨m, hexec, hm⟩ := exec_twgenF hk hn hq
    obtain rfl := Host.Outcome.next.inj (hexec.symm.trans h)
    exact hm.stage_power he hi
  · obtain ⟨m, hexec, hm⟩ := exec_twgenI hk hn hq
    obtain rfl := Host.Outcome.next.inj (hexec.symm.trans h)
    exact hm.stage_power he hi

/-! ### The tables of a root and its inverse -/

section inverse
variable {x y q : Nat}

theorem pow_mul_pow_modEq_one (h : x * y ≡ 1 [MOD q]) (b : Nat) : x ^ b * y ^ b ≡ 1 [MOD q] := by
  simpa only [mul_pow, one_pow] using h.pow b

/-- A power of the inverse of a root of order dividing `c` is a power of the root. -/
theorem inverse_pow_modEq (h : x * y ≡ 1 [MOD q]) {b c : Nat} (hc : x ^ c ≡ 1 [MOD q]) (hb : b ≤ c) :
    y ^ b ≡ x ^ (c - b) [MOD q] :=
  calc y ^ b = 1 * y ^ b := (one_mul _).symm
    _ ≡ x ^ c * y ^ b [MOD q] := hc.symm.mul_right _
    _ = x ^ (c - b) * (x ^ b * y ^ b) := by rw [← mul_assoc, ← pow_add, Nat.sub_add_cancel hb]
    _ ≡ x ^ (c - b) * 1 [MOD q] := (pow_mul_pow_modEq_one h b).mul_left _
    _ = x ^ (c - b) := mul_one _

theorem mul_modInv_modEq (hq : 0 < q) (h : modInv x q = some y) : x * y ≡ 1 [MOD q] :=
  (Nat.mod_mul_mod x y q).symm.trans (mul_modInv hq h)

end inverse

theorem Matched.exponent_le {k q psi : Nat} (h : Matched (2 ^ k) q psi) : k ≤ 10 := by
  obtain ⟨hvalid, -⟩ := h
  obtain ⟨k', hk', heq⟩ := (nValid_iff _).mp hvalid
  exact Nat.pow_right_injective le_rfl heq ▸ hk'

/-- Settles O38: the words at `p` are the powers of `ψ` and of its inverse with one exponent, and `ψ` has order dividing
`2n`. -/
theorem tablesOfInverseRootsAreInverse : Obligations.TablesOfInverseRootsAreInverse := by
  unfold Obligations.TablesOfInverseRootsAreInverse
  intro s t u k hn hmatched hinv hF hI p hp
  have hk := hmatched.exponent_le
  obtain ⟨-, hprime, -, -, horder⟩ := hmatched
  have hone : 1 % s.q.toNat = 1 := Nat.mod_eq_of_lt hprime.one_lt
  obtain ⟨mF, hexecF, hmF⟩ := exec_twgenF hk hn hprime.ne_zero
  obtain rfl := Host.Outcome.next.inj (hexecF.symm.trans hF)
  obtain ⟨mI, hexecI, hmI⟩ := exec_twgenI (s := afterOk { s with tf := mF }) hk hn hprime.ne_zero
  obtain rfl := Host.Outcome.next.inj (hexecI.symm.trans hI)
  have hroots := mul_modInv_modEq hprime.pos hinv
  have hforward : wordAt mF p = s.psi.toNat ^ brv k p % s.q.toNat := hmF.wordAt_eq hprime.pos s.q.isLt hp
  have hinverse : wordAt mI p = s.psiInv.toNat ^ brv k p % s.q.toNat := hmI.wordAt_eq hprime.pos s.q.isLt hp
  refine ⟨?_, fun _ => hinverse.trans ?_⟩
  · change mulMod (wordAt mF p) (wordAt mI p) s.q.toNat = 1
    rw [hforward, hinverse, mulMod, ← Nat.mul_mod]
    exact Eq.trans (pow_mul_pow_modEq_one hroots _) hone
  · exact inverse_pow_modEq hroots (horder.trans hone.symm) (by have := brv_lt k p; omega)

end Sys2Proof.Machine
end

section
/-! The positions of a stage and the order of the butterflies (44_forward_ntt.md R152, R156, 45_inverse_ntt.md R166), in
layers: the word a group and an offset name; the positions of a stage and of FNTT; memories with equal words; passes
that work on some words of `A` alone, which commute when these are disjoint; loops of passes that commute. -/

namespace Sys2Proof.Machine

/-! ### Words of a group -/

section groups
variable {i i' t w w' : Nat}

theorem groupWord_div (hw : w < 2 * t) : (2 * i * t + w) / (2 * t) = i := by
  rw [mul_right_comm, Nat.mul_add_div (by omega), Nat.div_eq_of_lt hw, add_zero]

theorem groupWord_mod (hw : w < 2 * t) : (2 * i * t + w) % (2 * t) = w := by
  rw [mul_right_comm, Nat.mul_add_mod, Nat.mod_eq_of_lt hw]

/-- The groups of a stage share no word. -/
theorem groupWord_inj (hw : w < 2 * t) (hw' : w' < 2 * t) (h : 2 * i * t + w = 2 * i' * t + w') : i = i' ∧ w = w' := by
  have hdiv := congrArg (· / (2 * t)) h
  have hmod := congrArg (· % (2 * t)) h
  simp only [groupWord_div, groupWord_mod, hw, hw'] at hdiv hmod
  exact ⟨hdiv, hmod⟩

end groups

/-! ### Positions -/

theorem mem_stagePositions {m groups t : Nat} {p : LoopPos} :
    p ∈ stagePositions m groups t ↔ ∃ i < groups, ∃ o < t, p = ⟨m, i, 2 * i * t + o⟩ := by
  simp only [stagePositions, List.mem_flatMap, List.mem_map, List.mem_range, eq_comm]

theorem length_stagePositions (m groups t : Nat) : (stagePositions m groups t).length = groups * t := by
  simp [stagePositions, List.length_flatMap]

/-- The groups of a stage of FNTT cover its words (44_forward_ntt.md R152). -/
theorem two_mul_groups_mul_fnttSpan {k e : Nat} (he : e < k) : 2 * 2 ^ e * fnttSpan (2 ^ k) (2 ^ e) = 2 ^ k :=
  Nat.mul_div_cancel' (by rw [← pow_succ']; exact Nat.pow_dvd_pow 2 he)

theorem length_fnttPositions (k : Nat) : (fnttPositions (2 ^ k)).length = 2 ^ k / 2 * k := by
  have hstage : ∀ e ∈ List.range k,
      (stagePositions (2 ^ e) (2 ^ e) (fnttSpan (2 ^ k) (2 ^ e))).length = 2 ^ k / 2 := by
    intro e he
    have hcover := two_mul_groups_mul_fnttSpan (List.mem_range.mp he)
    rw [length_stagePositions]
    rw [mul_assoc] at hcover
    omega
  rw [fnttPositions_two_pow, List.length_flatMap, List.map_congr_left hstage]
  simp [mul_comm]

theorem mem_fnttPositions {k : Nat} {p : LoopPos} :
    p ∈ fnttPositions (2 ^ k) ↔ ∃ e < k, p ∈ stagePositions (2 ^ e) (2 ^ e) (fnttSpan (2 ^ k) (2 ^ e)) := by
  simp only [fnttPositions_two_pow, List.mem_flatMap, List.mem_range]

theorem Follows.getElem?_succ {α : Type} {next : α → Option α} {xs : List α} (h : Follows next xs none) {x : Nat}
    {p : α} (hp : xs[x]? = some p) : next p = xs[x + 1]? := by
  induction xs generalizing x with
  | nil => simp at hp
  | cons y ys ih =>
    obtain ⟨hnext, hys⟩ := h
    cases x with
    | zero =>
      obtain rfl : y = p := by simpa using hp
      rw [hnext, Option.or_none, List.head?_eq_getElem?, List.getElem?_cons_succ]
    | succ x => exact ih hys hp

/-- Settles O52: the sequencer follows the loop nest, whose positions are those of the stages. -/
theorem fnttSequencerFollowsTheLoopNest : Obligations.FnttSequencerFollowsTheLoopNest := by
  unfold Obligations.FnttSequencerFollowsTheLoopNest
  refine fun k => ⟨length_fnttPositions k, fun hk => ?_, fun x p hp => ?_⟩
  · rw [← List.head?_eq_getElem?, head?_fnttPositions hk]
  · have hmem := List.mem_of_getElem? hp
    have htwiddle := fnttPositions_twiddle_lt hmem
    have hupper := fnttPositions_lt hmem
    obtain ⟨e, he, hstage⟩ := mem_fnttPositions.mp hmem
    have hspan := fnttSpan_pos he
    have hm : 0 < 2 ^ e := Nat.two_pow_pos e
    obtain ⟨i, hi, o, ho, rfl⟩ := mem_stagePositions.mp hstage
    refine ⟨(follows_fnttPositions k).getElem?_succ hp, ⟨e, he, rfl⟩, hi, ?_⟩
    dsimp only at *
    omega

/-! ### Memories with equal words -/

theorem memRead_eq_none_of_le_head {m : Memory} {j i : Nat} {w : Word} (h : Memory.wf ((j, w) :: m) = true) (hi : i ≤ j) :
    memRead m i = none := by
  induction m generalizing j w with
  | nil => rfl
  | cons e m ih =>
    obtain ⟨l, v⟩ := e
    obtain ⟨-, hlt, hm⟩ := (Memory_wf_cons j w _).mp h
    have hl := hlt l v m rfl
    rw [memRead, if_neg (by omega), ih hm (by omega)]

/-- A canonical memory is determined by its words. -/
theorem Memory_ext {m m' : Memory} (hm : Memory.wf m = true) (hm' : Memory.wf m' = true)
    (h : ∀ i, memRead m i = memRead m' i) : m = m' := by
  induction m generalizing m' with
  | nil =>
    cases m' with
    | nil => rfl
    | cons e m' => simpa [memRead] using h e.1
  | cons e m ih =>
    obtain ⟨j, w⟩ := e
    cases m' with
    | nil => simpa [memRead] using h j
    | cons e' m' =>
      obtain ⟨j', w'⟩ := e'
      have hbelow := fun i => memRead_eq_none_of_le_head (i := i) hm
      have hbelow' := fun i => memRead_eq_none_of_le_head (i := i) hm'
      obtain rfl : j = j' := by
        have hj := h j
        have hj' := h j'
        rcases lt_trichotomy j j' with hlt | heq | hgt
        · simp [memRead, hlt.ne, hbelow' j hlt.le] at hj
        · exact heq
        · simp [memRead, hgt.ne, hbelow j' hgt.le] at hj'
      obtain rfl : w = w' := by simpa [memRead] using h j
      rw [ih (Memory_wf_tail hm) (Memory_wf_tail hm') fun i => ?_]
      rcases eq_or_ne i j with rfl | hne
      · rw [hbelow i le_rfl, hbelow' i le_rfl]
      · simpa [memRead, hne] using h i

/-! ### Passes on some words of `A` -/

/-- `s'` is `s` but for words of `A` outside `F`. -/
structure AgreeOn (F : Set Nat) (s s' : State) : Prop where
  frame : ∃ m, s' = setSpaceMem .a m s
  word : ∀ i ∈ F, memRead s'.a i = memRead s.a i

/-- The pass `f` works on the words `F` of `A` alone: it writes no other, and what it writes depends on no other; of the
rest of the state it may read. -/
structure LocalPass (F : Set Nat) (f : State → Result State) : Prop where
  writes : ∀ {s t}, f s = .next t → WritesTo .a (fun i _ => i ∈ F) s t
  agree : ∀ {s s' t}, AgreeOn F s s' → f s = .next t → ∃ t', f s' = .next t' ∧ AgreeOn F t t'

section passes
variable {F G : Set Nat} {s s' t : State}

theorem AgreeOn.refl (F : Set Nat) (s : State) : AgreeOn F s s :=
  ⟨⟨s.a, (setSpaceMem_spaceMem .a s).symm⟩, fun _ _ => rfl⟩

theorem AgreeOn.symm (h : AgreeOn F s s') : AgreeOn F s' s := by
  obtain ⟨m, rfl⟩ := h.frame
  refine ⟨⟨s.a, ?_⟩, fun i hi => (h.word i hi).symm⟩
  rw [setSpaceMem_setSpaceMem]
  exact (setSpaceMem_spaceMem .a s).symm

theorem AgreeOn.trans {u : State} (h₁ : AgreeOn F s t) (h₂ : AgreeOn F t u) : AgreeOn F s u := by
  obtain ⟨m, rfl⟩ := h₁.frame
  obtain ⟨m', rfl⟩ := h₂.frame
  exact ⟨⟨m', setSpaceMem_setSpaceMem .a m m' s⟩, fun i hi => (h₂.word i hi).trans (h₁.word i hi)⟩

theorem AgreeOn.readWord_a {i : Nat} (h : AgreeOn F s s') (hi : i ∈ F) : readWord .a i s' = readWord .a i s := by
  have hword : memRead (spaceMem .a s') i = memRead (spaceMem .a s) i := h.word i hi
  rw [readWord, readWord, hword]

theorem AgreeOn.readWord_table {sp : Space} (hsp : sp ≠ .a) (h : AgreeOn F s s') (i : Nat) :
    readWord sp i s' = readWord sp i s := by
  obtain ⟨m, rfl⟩ := h.frame
  rw [readWord, readWord, spaceMem_setSpaceMem, if_neg hsp]

theorem localPass_writeWord {i : Nat} (v : Word) (hi : i ∈ F) : LocalPass F (writeWord .a i v) where
  writes h := (writesTo_writeWord h).mono fun _ _ hj => hj.1 ▸ hi
  agree {s s' t} hs h := by
    obtain ⟨hlt, rfl⟩ := writeWord_eq_next.mp h
    obtain ⟨m, rfl⟩ := hs.frame
    refine ⟨_, writeWord_eq_next.mpr ⟨hlt, rfl⟩, ⟨_, rfl⟩, fun j hj => ?_⟩
    have hword := hs.word j hj
    simp only [spaceMem, setSpaceMem_a_a] at hword ⊢
    rw [memRead_memWrite, memRead_memWrite, hword]

theorem LocalPass.read {i : Nat} {g : Word → State → Result State} (hi : i ∈ F) (hg : ∀ v, LocalPass F (g v)) :
    LocalPass F fun s => andThen (readWord .a i s) fun v => g v s where
  writes h := writesTo_afterRead (fun v => (hg v).writes) h
  agree hs h := by
    obtain ⟨v, hv, ht⟩ := andThen_eq_next.mp h
    rw [hs.readWord_a hi, hv]
    exact (hg v).agree hs ht

theorem LocalPass.readTable {sp : Space} {i : Nat} {g : Word → State → Result State} (hsp : sp ≠ .a)
    (hg : ∀ v, LocalPass F (g v)) : LocalPass F fun s => andThen (readWord sp i s) fun v => g v s where
  writes h := writesTo_afterRead (fun v => (hg v).writes) h
  agree hs h := by
    obtain ⟨v, hv, ht⟩ := andThen_eq_next.mp h
    rw [hs.readWord_table hsp, hv]
    exact (hg v).agree hs ht

theorem LocalPass.seq {f g : State → Result State} (hf : LocalPass F f) (hg : LocalPass F g) :
    LocalPass F fun s => andThen (f s) g where
  writes h := by
    obtain ⟨u, hu, ht⟩ := andThen_eq_next.mp h
    exact (hf.writes hu).trans (hg.writes ht)
  agree hs h := by
    obtain ⟨u, hu, ht⟩ := andThen_eq_next.mp h
    obtain ⟨u', hu', hagree⟩ := hf.agree hs hu
    rw [hu']
    exact hg.agree hagree ht

/-- A pass on other words than `F` leaves a state that agrees on `F`. -/
theorem LocalPass.agreeOn {g : State → Result State} (hg : LocalPass G g) (hFG : Disjoint F G) (h : g s = .next t) :
    AgreeOn F s t := by
  refine ⟨(hg.writes h).frame, fun i hi => ((hg.writes h).word i).resolve_right ?_⟩
  rintro ⟨-, -, hG⟩
  exact hFG.notMem_of_mem_left hi hG

/-- States that two ways of writing to `A` reach are equal if their words are. -/
theorem WritesTo.ext {P : Nat → Word → Prop} {t' : State} (h : WritesTo .a P s t) (h' : WritesTo .a P s t')
    (hs : Memory.wf s.a = true) (hword : ∀ i, memRead t.a i = memRead t'.a i) : t = t' := by
  have hmem : t.a = t'.a := Memory_ext (h.wf hs) (h'.wf hs) hword
  obtain ⟨m, rfl⟩ := h.frame
  obtain ⟨m', rfl⟩ := h'.frame
  exact congrArg (setSpaceMem .a · s) hmem

/-- Two passes on disjoint words may change places. -/
theorem LocalPass.comm {f g : State → Result State} (hf : LocalPass F f) (hg : LocalPass G g) (hFG : Disjoint F G)
    (hs : Memory.wf s.a = true) (h : andThen (f s) g = .next t) : andThen (g s) f = .next t := by
  obtain ⟨u, hfs, hgu⟩ := andThen_eq_next.mp h
  obtain ⟨v, hgs, hvG⟩ := hg.agree (hf.agreeOn hFG.symm hfs).symm hgu
  obtain ⟨t', hfv, htF⟩ := hf.agree (hg.agreeOn hFG hgs) hfs
  have hF : ∀ i ∈ F, memRead t.a i = memRead t'.a i := fun i hi =>
    ((hg.agreeOn hFG hgu).word i hi).trans (htF.word i hi).symm
  have hG : ∀ i ∈ G, memRead t.a i = memRead t'.a i := fun i hi =>
    (hvG.word i hi).symm.trans ((hf.agreeOn hFG.symm hfv).word i hi).symm
  have hleft : ∀ i (_ : Word), i ∈ F → i ∈ F ∪ G := fun i _ => Set.mem_union_left G
  have hright : ∀ i (_ : Word), i ∈ G → i ∈ F ∪ G := fun i _ => Set.mem_union_right F
  have ht := ((hf.writes hfs).mono hleft).trans ((hg.writes hgu).mono hright)
  have ht' := ((hg.writes hgs).mono hright).trans ((hf.writes hfv).mono hleft)
  have htt' : t = t' := ht.ext ht' hs fun i => by
    by_cases hi : i ∈ F ∪ G
    · exact hi.elim (hF i) (hG i)
    · have hkept := (ht.word i).resolve_right fun ⟨_, _, hmem⟩ => hi hmem
      exact hkept.trans ((ht'.word i).resolve_right fun ⟨_, _, hmem⟩ => hi hmem).symm
  rw [hgs, htt']
  exact hfv

end passes

/-! ### Loops in any order -/

/-- A loop whose steps may change places may run in any order. -/
theorem forEach_perm {α : Type} {f : α → State → Result State} {P : State → Prop} {xs l : List α} {s t : State}
    (hperm : List.Perm xs l) (hkeep : ∀ x u v, f x u = .next v → P u → P v)
    (hcomm : ∀ x ∈ xs, ∀ y ∈ xs, ∀ u v, P u → andThen (f x u) (f y) = .next v → andThen (f y u) (f x) = .next v)
    (hs : P s) (h : forEach f xs s = .next t) : forEach f l s = .next t := by
  induction hperm generalizing s with
  | nil => exact h
  | cons x _ ih =>
    obtain ⟨u, hu, hrest⟩ := andThen_eq_next.mp h
    have hcomm' := fun y hy z hz => hcomm y (List.mem_cons_of_mem x hy) z (List.mem_cons_of_mem x hz)
    exact andThen_eq_next.mpr ⟨u, hu, ih hcomm' (hkeep x s u hu hs) hrest⟩
  | swap x y xs =>
    obtain ⟨u, hu, hrest⟩ := andThen_eq_next.mp ((andThen_assoc (f y s) (f x) (forEach f xs)).trans h)
    have hswapped := hcomm y List.mem_cons_self x (List.mem_cons_of_mem y List.mem_cons_self) s u hs hu
    exact (andThen_assoc ..).symm.trans (andThen_eq_next.mpr ⟨u, hswapped, hrest⟩)
  | trans hfirst _ ih₁ ih₂ =>
    exact ih₂ (fun x hx y hy => hcomm x (hfirst.mem_iff.mpr hx) y (hfirst.mem_iff.mpr hy)) hs (ih₁ hcomm hs h)

/-- A loop of passes on disjoint words may run in any order (44_forward_ntt.md R156, 45_inverse_ntt.md R166). -/
theorem forEach_perm_of_localPass {α : Type} {f : α → State → Result State} {F : α → Set Nat} {xs l : List α}
    {s t : State} (hf : ∀ x, LocalPass (F x) (f x)) (hF : ∀ x ∈ xs, ∀ y ∈ xs, x ≠ y → Disjoint (F x) (F y))
    (hperm : List.Perm l xs) (hs : Memory.wf s.a = true) (h : forEach f xs s = .next t) : forEach f l s = .next t := by
  refine forEach_perm (P := fun u => Memory.wf u.a = true) hperm.symm (fun x u v hv => ((hf x).writes hv).wf)
    (fun x hx y hy u v hu hv => ?_) hs h
  by_cases hxy : x = y
  · rwa [hxy] at hv ⊢
  · exact (hf x).comm (hf y) (hF x hx y hy hxy) hu hv

/-- The two words of a butterfly of span `t` at `j` (44_forward_ntt.md R151, 45_inverse_ntt.md R161). -/
def butterflyPair (j t : Nat) : Set Nat := {j, j + t}

theorem localPass_fnttAt (n q : Nat) (p : LoopPos) : LocalPass (butterflyPair p.j (fnttSpan n p.m)) (fnttAt n q p) :=
  .readTable (by decide) fun _ => .read (.inl rfl) fun _ => .read (.inr rfl) fun _ =>
    .seq (localPass_writeWord _ (.inl rfl)) (localPass_writeWord _ (.inr rfl))

theorem localPass_inttAt (n q : Nat) (p : LoopPos) : LocalPass (butterflyPair p.j (inttSpan n p.m)) (inttAt n q p) :=
  .readTable (by decide) fun _ => .read (.inl rfl) fun _ => .read (.inr rfl) fun _ =>
    .seq (localPass_writeWord _ (.inl rfl)) (localPass_writeWord _ (.inr rfl))

theorem localPass_scaleAt (q ninv j : Nat) : LocalPass {j} (scaleAt q ninv j) :=
  .read rfl fun _ => localPass_writeWord _ rfl

/-- The butterflies of a stage share no word. -/
theorem disjoint_butterflyPair {span : Nat → Nat} {m groups : Nat} {p p' : LoopPos}
    (hp : p ∈ stagePositions m groups (span m)) (hp' : p' ∈ stagePositions m groups (span m)) (hne : p ≠ p') :
    Disjoint (butterflyPair p.j (span p.m)) (butterflyPair p'.j (span p'.m)) := by
  obtain ⟨i, -, o, ho, rfl⟩ := mem_stagePositions.mp hp
  obtain ⟨i', -, o', ho', rfl⟩ := mem_stagePositions.mp hp'
  dsimp only
  generalize span m = t at *
  have hword {i o x : Nat} (ho : o < t) (hx : x ∈ butterflyPair (2 * i * t + o) t) :
      ∃ w, w < 2 * t ∧ w % t = o ∧ x = 2 * i * t + w := by
    rcases hx with rfl | rfl
    · exact ⟨o, by omega, Nat.mod_eq_of_lt ho, rfl⟩
    · exact ⟨o + t, by omega, by rw [Nat.add_mod_right, Nat.mod_eq_of_lt ho], (Nat.add_assoc ..)⟩
  refine Set.disjoint_left.mpr fun x hx hx' => hne ?_
  obtain ⟨w, hw, rfl, rfl⟩ := hword ho hx
  obtain ⟨w', hw', rfl, heq⟩ := hword ho' hx'
  obtain ⟨rfl, rfl⟩ := groupWord_inj hw hw' heq
  rfl

/-- Settles O54: butterflies of one stage, and scalings, work on disjoint words. -/
theorem orderInsideAStageIsUnobservable : Obligations.OrderInsideAStageIsUnobservable := by
  unfold Obligations.OrderInsideAStageIsUnobservable
  refine fun s t k e q _ hs _ => ⟨fun l hl h => ?_, fun l hl h => ?_, fun y l hl h => ?_⟩
  · exact forEach_perm_of_localPass (localPass_fnttAt (2 ^ k) q) (fun _ hp _ => disjoint_butterflyPair hp) hl hs h
  · exact forEach_perm_of_localPass (localPass_inttAt (2 ^ k) q) (fun _ hp _ => disjoint_butterflyPair hp) hl hs h
  · exact forEach_perm_of_localPass (localPass_scaleAt q y) (fun _ _ _ _ => Set.disjoint_singleton.mpr) hl hs h

end Sys2Proof.Machine
end

section
/-! FNTT as its stages (44_forward_ntt.md R150 to R152), in layers: a loop of passes on disjoint words; one butterfly;
one stage, as one parallel step; the stages in a row. -/

namespace Sys2Proof.Machine

/-! ### Loops of passes on disjoint words -/

/-- A loop of passes on disjoint words answers if each pass answers from the start, and leaves on the words of each pass
what this pass alone leaves. -/
theorem forEach_of_localPass {α : Type} {f : α → State → Result State} {F : α → Set Nat} {xs : List α} {s : State}
    (hf : ∀ x, LocalPass (F x) (f x)) (hF : xs.Pairwise fun x y => Disjoint (F x) (F y))
    (hanswer : ∀ x ∈ xs, ∃ u, f x s = .next u) :
    ∃ t, forEach f xs s = .next t ∧ ∀ x ∈ xs, ∀ u, f x s = .next u → AgreeOn (F x) u t := by
  induction xs generalizing s with
  | nil => exact ⟨s, rfl, by simp⟩
  | cons x xs ih =>
    obtain ⟨hx, hxs⟩ := List.pairwise_cons.mp hF
    obtain ⟨s', hs'⟩ := hanswer x List.mem_cons_self
    have hsame : ∀ y ∈ xs, AgreeOn (F y) s s' := fun y hy => (hf x).agreeOn (hx y hy).symm hs'
    obtain ⟨t, ht, hwords⟩ := ih hxs fun y hy => by
      obtain ⟨u, hu⟩ := hanswer y (List.mem_cons_of_mem x hy)
      obtain ⟨v, hv, -⟩ := (hf y).agree (hsame y hy) hu
      exact ⟨v, hv⟩
    refine ⟨t, by rw [forEach_cons, hs', andThen_next, ht], List.forall_mem_cons.mpr ⟨fun u hu => ?_, ?_⟩⟩
    · obtain rfl := Host.Outcome.next.inj (hs'.symm.trans hu)
      exact forEach_keeps (P := AgreeOn (F x) s')
        (fun y hy u v hv hu => hu.trans ((hf y).agreeOn (hx y hy) hv)) ht (.refl _ s')
    · intro y hy u hu
      obtain ⟨v, hv, hagree⟩ := (hf y).agree (hsame y hy) hu
      exact hagree.trans (hwords y hy v hv)

theorem nodup_stagePositions (m groups t : Nat) : (stagePositions m groups t).Nodup := by
  refine List.nodup_flatMap.mpr ⟨fun i _ => ?_, ?_⟩
  · refine List.nodup_range.map fun o o' h => ?_
    simpa using h
  · refine List.nodup_range.imp fun {i i'} hne => ?_
    refine List.disjoint_left.mpr fun p hp hp' => hne ?_
    obtain ⟨o, -, rfl⟩ := List.mem_map.mp hp
    obtain ⟨o', -, h⟩ := List.mem_map.mp hp'
    exact (congrArg LoopPos.i h).symm

/-! ### Words as numbers -/

theorem wordAt_eq {m : Memory} {i : Nat} {w : Word} (h : memRead m i = some w) : wordAt m i = w.toNat := by
  rw [wordAt, h, Option.getD_some]

theorem toNat_toWord {x : Nat} (h : x < 2 ^ 32) : (toWord x).toNat = x := Nat.mod_eq_of_lt h

/-- `m` is `old` with the words below `n` as given by `word`. -/
structure HoldsWords (old m : Memory) (n : Nat) (word : Nat → Nat) : Prop where
  word : ∀ p, p < n → memRead m p = some (toWord (word p))
  kept : ∀ p, n ≤ p → memRead m p = memRead old p

theorem HoldsWords.of_written {m : Memory} {n : Nat} (h : written m 0 n) : HoldsWords m m n (wordAt m) where
  word p hp := by
    obtain ⟨w, hw⟩ := Option.isSome_iff_exists.mp (h p hp (Nat.zero_le p))
    rw [wordAt_eq hw, hw, toWord, BitVec.ofNat_toNat, BitVec.setWidth_eq]
  kept _ _ := rfl

theorem HoldsWords.wordAt {old m : Memory} {n : Nat} {word : Nat → Nat} (h : HoldsWords old m n word) {p : Nat}
    (hp : p < n) (hword : word p < 2 ^ 32) : wordAt m p = word p := by
  rw [wordAt_eq (h.word p hp), toNat_toWord hword]

theorem HoldsWords.written {old m : Memory} {n : Nat} {word : Nat → Nat} (h : HoldsWords old m n word) :
    written m 0 n := fun p hp _ => by rw [h.word p hp, Option.isSome_some]

/-! ### One butterfly -/

/-- The words a butterfly of FNTT reads: the twiddle `tw` of group `p.i`, `u` at `p.j` and `w` a span above. -/
structure FnttReads (n : Nat) (p : LoopPos) (s : State) (tw u w : Word) : Prop where
  twiddle_lt : p.m + p.i < Config.nMax
  twiddle : memRead s.tf (p.m + p.i) = some tw
  upper_lt : p.j + fnttSpan n p.m < Config.nMax
  lower : memRead s.a p.j = some u
  upper : memRead s.a (p.j + fnttSpan n p.m) = some w

/-- A butterfly of FNTT answers exactly when its words are written (44_forward_ntt.md R151). -/
theorem fnttAt_eq_next {n q : Nat} {p : LoopPos} {s t : State} :
    fnttAt n q p s = .next t ↔ ∃ tw u w, FnttReads n p s tw u w ∧
      t = setSpaceMem .a (memWrite
        (memWrite s.a p.j (toWord (addMod u.toNat (mulMod w.toNat tw.toNat q) q)))
        (p.j + fnttSpan n p.m) (toWord (subMod u.toNat (mulMod w.toNat tw.toNat q) q))) s := by
  simp only [fnttAt, ctButterfly, andThen_eq_next, readWord_eq_next, writeWord_eq_next]
  constructor
  · rintro ⟨tw, ⟨htw, htwr⟩, u, ⟨hj, hu⟩, w, ⟨hjt, hw⟩, s', ⟨-, rfl⟩, -, rfl⟩
    exact ⟨tw, u, w, ⟨htw, htwr, hjt, hu, hw⟩, rfl⟩
  · rintro ⟨tw, u, w, ⟨htw, htwr, hjt, hu, hw⟩, rfl⟩
    exact ⟨tw, ⟨htw, htwr⟩, u, ⟨by omega, hu⟩, w, ⟨hjt, hw⟩, _, ⟨by omega, rfl⟩, hjt, rfl⟩

theorem addMod_mulMod (u w tw q : Nat) : addMod u (mulMod w tw q) q = (u + w * tw) % q := by
  rw [addMod, mulMod, Nat.add_mod_mod]

theorem subMod_mulMod (u w tw : Nat) {q : Nat} (hq : 0 < q) :
    subMod u (mulMod w tw q) q = (((u : ℤ) - w * tw) % q).toNat := by
  have h := subMod_eq_emod u (mulMod w tw q) hq
  rw [mulMod, Int.natCast_mod, Int.sub_emod_emod, Nat.cast_mul] at h
  rw [← h, Int.toNat_natCast, mulMod]

/-! ### One stage -/

/-- Each word of a stage belongs to one of its butterflies. -/
theorem exists_butterfly {m groups t x : Nat} (hx : x < 2 * groups * t) :
    ∃ p ∈ stagePositions m groups t, x = p.j ∨ x = p.j + t := by
  have ht : 0 < 2 * t := by
    rcases Nat.eq_zero_or_pos t with rfl | ht
    · simp at hx
    · omega
  have hgroup : x / (2 * t) < groups := Nat.div_lt_of_lt_mul (by rwa [mul_right_comm] at hx)
  have hsplit : 2 * (x / (2 * t)) * t + x % (2 * t) = x := by rw [mul_right_comm, Nat.div_add_mod]
  have hmod : x % (2 * t) < 2 * t := Nat.mod_lt x ht
  by_cases hlow : x % (2 * t) < t
  · exact ⟨_, mem_stagePositions.mpr ⟨_, hgroup, _, hlow, rfl⟩, .inl hsplit.symm⟩
  · refine ⟨_, mem_stagePositions.mpr ⟨_, hgroup, x % (2 * t) - t, by omega, rfl⟩, .inr ?_⟩
    dsimp only
    omega

section stage
variable {n m groups : Nat} {p : LoopPos} (q : Nat) (tw a : Nat → Nat)

theorem fnttStage_eq (x : Nat) : fnttStage n q m tw a x =
    if x % (2 * fnttSpan n m) < fnttSpan n m
    then (a x + a (x + fnttSpan n m) * tw (m + x / (2 * fnttSpan n m))) % q
    else (((a (x - fnttSpan n m) : ℤ) - a x * tw (m + x / (2 * fnttSpan n m))) % q).toNat := rfl

theorem fnttStage_lower (hp : p ∈ stagePositions m groups (fnttSpan n m)) :
    fnttStage n q m tw a p.j = (a p.j + a (p.j + fnttSpan n m) * tw (m + p.i)) % q := by
  obtain ⟨i, -, o, ho, rfl⟩ := mem_stagePositions.mp hp
  have hw : o < 2 * fnttSpan n m := by omega
  rw [fnttStage_eq, groupWord_mod hw, if_pos ho, groupWord_div hw]

theorem fnttStage_upper (hp : p ∈ stagePositions m groups (fnttSpan n m)) :
    fnttStage n q m tw a (p.j + fnttSpan n m) =
      (((a p.j : ℤ) - a (p.j + fnttSpan n m) * tw (m + p.i)) % q).toNat := by
  obtain ⟨i, -, o, ho, rfl⟩ := mem_stagePositions.mp hp
  have hw : o + fnttSpan n m < 2 * fnttSpan n m := by omega
  rw [fnttStage_eq, Nat.add_sub_cancel, Nat.add_assoc, groupWord_mod hw, if_neg (by omega), groupWord_div hw]

theorem fnttStage_lt {q : Nat} (hq : 0 < q) (x : Nat) : fnttStage n q m tw a x < q := by
  rw [fnttStage_eq]
  split_ifs
  · exact Nat.mod_lt _ hq
  · have hpos : (0 : ℤ) < q := by omega
    have hnonneg := Int.emod_nonneg ((a (x - fnttSpan n m) : ℤ) - a x * tw (m + x / (2 * fnttSpan n m))) hpos.ne'
    have hlt := Int.emod_lt_of_pos ((a (x - fnttSpan n m) : ℤ) - a x * tw (m + x / (2 * fnttSpan n m))) hpos
    omega

end stage

section words
variable {k e : Nat}

/-- The butterflies of stage `2^e` of FNTT. -/
abbrev fnttStagePositions (k e : Nat) : List LoopPos := stagePositions (2 ^ e) (2 ^ e) (fnttSpan (2 ^ k) (2 ^ e))

/-- The indices of a butterfly are below `n`, and that of its twiddle is not 0 (44_forward_ntt.md R152). -/
theorem fnttStage_bounds (he : e < k) {p : LoopPos} (hp : p ∈ fnttStagePositions k e) :
    p.m = 2 ^ e ∧ p.j + fnttSpan (2 ^ k) (2 ^ e) < 2 ^ k ∧ 1 ≤ 2 ^ e + p.i ∧ 2 ^ e + p.i < 2 ^ k := by
  obtain ⟨hm, hupper⟩ := stagePositions_lt hp
  have htwiddle := fnttPositions_twiddle_lt (mem_fnttPositions.mpr ⟨e, he, hp⟩)
  rw [two_mul_groups_mul_fnttSpan he] at hupper
  have hpos := Nat.two_pow_pos e
  exact ⟨hm, hupper, by omega, hm ▸ htwiddle⟩

theorem exists_fnttStagePosition (he : e < k) {x : Nat} (hx : x < 2 ^ k) :
    ∃ p ∈ fnttStagePositions k e, x = p.j ∨ x = p.j + fnttSpan (2 ^ k) (2 ^ e) :=
  exists_butterfly (by rwa [two_mul_groups_mul_fnttSpan he])

/-- A stage depends on the words below `n` and the twiddles `1..n-1` only (44_forward_ntt.md R153). -/
theorem fnttStage_congr (he : e < k) (q : Nat) {tw tw' a a' : Nat → Nat}
    (htw : ∀ i, 1 ≤ i → i < 2 ^ k → tw i = tw' i) (ha : ∀ x, x < 2 ^ k → a x = a' x) {x : Nat} (hx : x < 2 ^ k) :
    fnttStage (2 ^ k) q (2 ^ e) tw a x = fnttStage (2 ^ k) q (2 ^ e) tw' a' x := by
  obtain ⟨p, hp, hpx⟩ := exists_fnttStagePosition he hx
  obtain ⟨-, hupper, hone, htwiddle⟩ := fnttStage_bounds he hp
  have htwp := htw _ hone htwiddle
  have hlow := ha p.j (by omega)
  have hhigh := ha _ hupper
  rcases hpx with rfl | rfl
  · rw [fnttStage_lower q tw a hp, fnttStage_lower q tw' a' hp, htwp, hlow, hhigh]
  · rw [fnttStage_upper q tw a hp, fnttStage_upper q tw' a' hp, htwp, hlow, hhigh]

theorem fnttWords_congr (he : e ≤ k) (q : Nat) {tw tw' a a' : Nat → Nat}
    (htw : ∀ i, 1 ≤ i → i < 2 ^ k → tw i = tw' i) (ha : ∀ x, x < 2 ^ k → a x = a' x) {x : Nat} (hx : x < 2 ^ k) :
    fnttWords (2 ^ k) q tw a e x = fnttWords (2 ^ k) q tw' a' e x := by
  induction e generalizing x with
  | zero => exact ha x hx
  | succ e ih => exact fnttStage_congr he q htw (fun y hy => ih (Nat.le_of_succ_le he) hy) hx

/-- The words between the stages fit a memory word. -/
theorem fnttWords_lt {n q : Nat} (hq : 0 < q) (hq' : q < 2 ^ 32) (tw : Nat → Nat) {a : Nat → Nat}
    (ha : ∀ x, a x < 2 ^ 32) (e x : Nat) : fnttWords n q tw a e x < 2 ^ 32 := by
  cases e with
  | zero => exact ha x
  | succ e => exact (fnttStage_lt _ _ hq x).trans hq'

end words

/-! ### The stages in a row -/

section loop
variable {s : State} {k e q : Nat}

/-- One butterfly leaves at its two words what the parallel step of its stage gives. -/
theorem fnttAt_stage (hk : k ≤ 10) (he : e < k) (hq : 0 < q) (hA : written s.a 0 (2 ^ k)) (hTF : written s.tf 1 (2 ^ k))
    {p : LoopPos} (hp : p ∈ fnttStagePositions k e) :
    ∃ u, fnttAt (2 ^ k) q p s = .next u ∧ ∀ x, x = p.j ∨ x = p.j + fnttSpan (2 ^ k) (2 ^ e) →
      memRead u.a x = some (toWord (fnttStage (2 ^ k) q (2 ^ e) (wordAt s.tf) (wordAt s.a) x)) := by
  obtain ⟨hm, hupper, hone, htwiddle⟩ := fnttStage_bounds he hp
  have hmax : 2 ^ k ≤ Config.nMax := Nat.pow_le_pow_right two_pos hk
  have hspan := fnttSpan_pos he
  obtain ⟨tw, htw⟩ := Option.isSome_iff_exists.mp (hTF _ htwiddle hone)
  obtain ⟨u, hu⟩ := Option.isSome_iff_exists.mp (hA p.j (by omega) (Nat.zero_le _))
  obtain ⟨w, hw⟩ := Option.isSome_iff_exists.mp (hA _ hupper (Nat.zero_le _))
  have hreads : FnttReads (2 ^ k) p s tw u w := by
    rw [← hm] at htwiddle htw hupper hw
    exact ⟨htwiddle.trans_le hmax, htw, hupper.trans_le hmax, hu, hw⟩
  refine ⟨_, fnttAt_eq_next.mpr ⟨tw, u, w, hreads, rfl⟩, fun x hx => ?_⟩
  rw [setSpaceMem_a_a, memRead_memWrite, memRead_memWrite, hm, addMod_mulMod, subMod_mulMod _ _ _ hq]
  rcases hx with rfl | rfl
  · rw [if_neg (by omega), if_pos rfl, fnttStage_lower _ _ _ hp, wordAt_eq htw, wordAt_eq hu, wordAt_eq hw]
  · rw [if_pos rfl, fnttStage_upper _ _ _ hp, wordAt_eq htw, wordAt_eq hu, wordAt_eq hw]

/-- A stage is one parallel step. -/
theorem forEach_fnttStage (hk : k ≤ 10) (he : e < k) (hq : 0 < q) (hA : written s.a 0 (2 ^ k))
    (hTF : written s.tf 1 (2 ^ k)) :
    ∃ m, forEach (fnttAt (2 ^ k) q) (fnttStagePositions k e) s = .next (setSpaceMem .a m s) ∧
      HoldsWords s.a m (2 ^ k) (fnttStage (2 ^ k) q (2 ^ e) (wordAt s.tf) (wordAt s.a)) := by
  have hat {p : LoopPos} := fnttAt_stage hk he hq hA hTF (p := p)
  have hdisjoint : (fnttStagePositions k e).Pairwise fun p p' =>
      Disjoint (butterflyPair p.j (fnttSpan (2 ^ k) p.m)) (butterflyPair p'.j (fnttSpan (2 ^ k) p'.m)) :=
    (nodup_stagePositions ..).pairwise_of_forall_ne fun _ hp _ => disjoint_butterflyPair hp
  obtain ⟨t, ht, hwords⟩ := forEach_of_localPass (localPass_fnttAt (2 ^ k) q) hdisjoint fun p hp =>
    (hat hp).imp fun _ => And.left
  have hwrites : WritesTo .a (fun i _ => i < 2 ^ k) s t := by
    refine writesTo_forEach (fun p hp u v h => ((localPass_fnttAt _ _ p).writes h).mono fun i _ hi => ?_) ht
    obtain ⟨hm, hupper, -⟩ := fnttStage_bounds he hp
    rw [hm] at hi
    rcases hi with rfl | rfl <;> omega
  obtain ⟨m, rfl⟩ := hwrites.frame
  refine ⟨m, ht, fun x hx => ?_, fun x hx => (hwrites.word x).resolve_right fun ⟨_, _, hlt⟩ => hx.not_gt hlt⟩
  obtain ⟨p, hp, hpx⟩ := exists_fnttStagePosition he hx
  obtain ⟨u, hu, hword⟩ := hat hp
  have hpair : x ∈ butterflyPair p.j (fnttSpan (2 ^ k) p.m) := by rwa [(fnttStage_bounds he hp).1]
  exact ((hwords p hp u hu).word x hpair).trans (hword x hpx)

theorem forEach_fnttStages (hk : k ≤ 10) (hq : 0 < q) (hq' : q < 2 ^ 32) (hA : written s.a 0 (2 ^ k))
    (hTF : written s.tf 1 (2 ^ k)) (he : e ≤ k) :
    ∃ m, forEach (fnttAt (2 ^ k) q) ((List.range e).flatMap (fnttStagePositions k)) s = .next (setSpaceMem .a m s) ∧
      HoldsWords s.a m (2 ^ k) (fnttWords (2 ^ k) q (wordAt s.tf) (wordAt s.a) e) := by
  induction e with
  | zero => exact ⟨s.a, rfl, .of_written hA⟩
  | succ e ih =>
    obtain ⟨m, hloop, hm⟩ := ih (Nat.le_of_succ_le he)
    obtain ⟨m', hstage, hm'⟩ := forEach_fnttStage (s := setSpaceMem .a m s) hk he hq hm.written hTF
    refine ⟨m', ?_, fun x hx => ?_, fun x hx => (hm'.kept x hx).trans (hm.kept x hx)⟩
    · rw [List.range_succ, List.flatMap_append, List.flatMap_singleton, forEach_append, hloop, andThen_next, hstage,
        setSpaceMem_setSpaceMem]
    · have hwords : ∀ y, y < 2 ^ k → wordAt m y = fnttWords (2 ^ k) q (wordAt s.tf) (wordAt s.a) e y := fun y hy =>
        hm.wordAt hy (fnttWords_lt hq hq' _ (fun _ => BitVec.isLt _) e y)
      rw [hm'.word x hx, fnttWords, ← fnttStage_congr he q (fun _ _ _ => rfl) hwords hx]
      rfl

end loop

theorem exec_fntt {s : State} {k : Nat} (hk : k ≤ 10) (hn : s.n.toNat = 2 ^ k) (hq : s.q.toNat ≠ 0)
    (hA : written s.a 0 (2 ^ k)) (hTF : written s.tf 1 (2 ^ k)) :
    ∃ m, exec .fntt s = .next (afterOk { s with a := m }) ∧
      HoldsWords s.a m (2 ^ k) (fnttWords (2 ^ k) s.q.toNat (wordAt s.tf) (wordAt s.a) k) := by
  have hconf : configured (beginCommand s) := ⟨hq, (nValid_iff _).mpr ⟨k, hk, hn⟩⟩
  obtain ⟨m, hloop, hm⟩ := forEach_fnttStages (s := beginCommand s) hk (Nat.pos_of_ne_zero hq) s.q.isLt hA hTF le_rfl
  have hbody : fnttBody (beginCommand s) = finish (setSpaceMem .a m (beginCommand s)) := by
    rw [fnttBody, withNQ_of_configured hconf, beginCommand_n, hn, fnttPositions_two_pow]
    exact congrArg (andThen · finish) hloop
  have hexec := exec_of_finish (i := .fntt) hbody
  exact ⟨m, hexec, hm⟩

/-- Settles O39: each stage is one parallel step, since its butterflies share no word. -/
theorem fnttComputesItsStages : Obligations.FnttComputesItsStages := by
  unfold Obligations.FnttComputesItsStages
  intro s k hk hn hq hA hTF
  obtain ⟨m, hexec, hm⟩ := exec_fntt hk hn hq hA hTF
  exact ⟨m, hexec, hm.word, hm.kept⟩

end Sys2Proof.Machine
end

section
/-! What FNTT reads and that it is linear (44_forward_ntt.md R153), in layers: the states inside the loop have the same
words written as the first, so a completed FNTT had its words; what a command that answers leaves; then the stages
modulo `q`. -/

namespace Sys2Proof.Machine

/-! ### The words a completed FNTT has read -/

/-- Each step of a loop that answers has answered, in a state that has what every step keeps. -/
theorem exists_step_of_forEach {α : Type} {f : α → State → Result State} {P : State → Prop} {xs : List α} {s t : State}
    (hkeep : ∀ x u v, f x u = .next v → P u → P v) (h : forEach f xs s = .next t) (hs : P s) {x : α} (hx : x ∈ xs) :
    ∃ u v, P u ∧ f x u = .next v := by
  induction xs generalizing s with
  | nil => cases hx
  | cons y ys ih =>
    obtain ⟨u, hu, hrest⟩ := andThen_eq_next.mp h
    rcases List.mem_cons.mp hx with rfl | hys
    · exact ⟨s, u, hs, hu⟩
    · exact ih hrest (hkeep y s u hu hs) hys

/-- The words of `A` that hold a value are those of `s`, and `TF` is that of `s`. -/
structure SameWritten (s u : State) : Prop where
  a : ∀ i, (memRead u.a i).isSome = (memRead s.a i).isSome
  tf : u.tf = s.tf

/-- A butterfly writes only where it has read. -/
theorem SameWritten.fnttAt {n q : Nat} {p : LoopPos} {s u v : State} (h : fnttAt n q p u = .next v)
    (hu : SameWritten s u) : SameWritten s v := by
  obtain ⟨tw, x, y, hreads, rfl⟩ := fnttAt_eq_next.mp h
  refine ⟨fun i => ?_, hu.tf⟩
  rw [setSpaceMem_a_a, memRead_memWrite, memRead_memWrite, ← hu.a i]
  split_ifs with hupper hlower
  · rw [hupper, hreads.upper, Option.isSome_some, Option.isSome_some]
  · rw [hlower, hreads.lower, Option.isSome_some, Option.isSome_some]
  · rfl

section reads
variable {s t : State} {k q : Nat}

/-- A loop that answers has found the words of each of its butterflies written. -/
theorem reads_of_fnttLoop (h : forEach (fnttAt (2 ^ k) q) (fnttPositions (2 ^ k)) s = .next t) {p : LoopPos}
    (hp : p ∈ fnttPositions (2 ^ k)) :
    (memRead s.tf (p.m + p.i)).isSome = true ∧ (memRead s.a p.j).isSome = true ∧
      (memRead s.a (p.j + fnttSpan (2 ^ k) p.m)).isSome = true := by
  obtain ⟨u, v, hu, hat⟩ := exists_step_of_forEach (P := SameWritten s) (fun _ _ _ => .fnttAt) h
    ⟨fun _ => rfl, rfl⟩ hp
  obtain ⟨tw, x, y, hreads, -⟩ := fnttAt_eq_next.mp hat
  refine ⟨?_, ?_, ?_⟩
  · rw [← hu.tf, hreads.twiddle, Option.isSome_some]
  · rw [← hu.a, hreads.lower, Option.isSome_some]
  · rw [← hu.a, hreads.upper, Option.isSome_some]

/-- The first stage of FNTT reads every word of `A` (44_forward_ntt.md R152). -/
theorem written_a_of_fnttLoop (hk : 0 < k)
    (h : forEach (fnttAt (2 ^ k) q) (fnttPositions (2 ^ k)) s = .next t) : written s.a 0 (2 ^ k) := by
  intro x hx _
  obtain ⟨p, hp, hpx⟩ := exists_fnttStagePosition hk hx
  obtain ⟨-, hlower, hupper⟩ := reads_of_fnttLoop h (mem_fnttPositions.mpr ⟨0, hk, hp⟩)
  rw [(fnttStage_bounds hk hp).1] at hupper
  rcases hpx with rfl | rfl
  · exact hlower
  · exact hupper

/-- Each group of each stage of FNTT reads its twiddle (44_forward_ntt.md R150). -/
theorem written_tf_of_fnttLoop (h : forEach (fnttAt (2 ^ k) q) (fnttPositions (2 ^ k)) s = .next t) :
    written s.tf 1 (2 ^ k) := by
  intro x hx hone
  have hne : x ≠ 0 := by omega
  have hlow : 2 ^ x.log2 ≤ x := Nat.log2_self_le hne
  have hhigh : x < 2 ^ (x.log2 + 1) := Nat.lt_log2_self
  have he : x.log2 < k := (Nat.log2_lt hne).mpr hx
  rw [pow_succ] at hhigh
  have hp := mem_fnttPositions.mpr ⟨x.log2, he, mem_stagePositions.mpr
    ⟨x - 2 ^ x.log2, by omega, 0, fnttSpan_pos he, rfl⟩⟩
  obtain ⟨htwiddle, -⟩ := reads_of_fnttLoop h hp
  rwa [Nat.add_sub_cancel' hlow] at htwiddle

/-! ### What FNTT leaves -/

theorem exponent_le_of_nValid (hn : s.n.toNat = 2 ^ k) (hvalid : nValid s.n.toNat = true) : k ≤ 10 := by
  obtain ⟨k', hk', heq⟩ := (nValid_iff _).mp hvalid
  exact Nat.pow_right_injective le_rfl (heq.symm.trans hn) ▸ hk'

/-- A failed check ends FNTT (60_exceptions.md R193). -/
theorem exec_fntt_of_not_configured (h : ¬ configured s) : exec .fntt s = .next (afterError 3 s) := by
  have hbody : fnttBody (beginCommand s) = raise .config (beginCommand s) := if_neg h
  simpa [errCodeNumber] using exec_of_raise (i := .fntt) rfl hbody

/-- For `n = 1` FNTT reads nothing and changes no word (44_forward_ntt.md R157). -/
theorem exec_fntt_one (hn : s.n.toNat = 2 ^ 0) (hconf : configured s) : exec .fntt s = .next (afterOk s) := by
  have hbody : fnttBody (beginCommand s) = finish (beginCommand s) := by
    rw [fnttBody, withNQ_of_configured (s := beginCommand s) hconf, beginCommand_n, hn,
      fnttPositions_two_pow]
    rfl
  have hexec := exec_of_finish (i := .fntt) hbody
  exact hexec

/-- With usable parameters FNTT answers as its loop does. -/
theorem fnttLoop_of_exec (hn : s.n.toNat = 2 ^ k) (hconf : configured s) (h : exec .fntt s = .next t) :
    ∃ u, forEach (fnttAt (2 ^ k) s.q.toNat) (fnttPositions (2 ^ k)) (beginCommand s) = .next u ∧ t = afterOk u := by
  obtain ⟨o, hbody, rfl⟩ := exec_eq_next.mp h
  replace hbody : fnttBody (beginCommand s) = .next o := hbody
  rw [fnttBody, withNQ_of_configured (s := beginCommand s) hconf, beginCommand_n, hn] at hbody
  obtain ⟨u, hu, rfl⟩ := andThen_finish_eq_next hbody
  exact ⟨u, hu, completeCommand_ok u⟩

/-- What FNTT with usable parameters needs and leaves: for `n = 1` nothing, for `n >= 2` its words and what the stages
give. -/
theorem exec_fntt_cases (hn : s.n.toNat = 2 ^ k) (hconf : configured s) (h : exec .fntt s = .next t) :
    (k = 0 ∧ t = afterOk s) ∨
    (0 < k ∧ written s.a 0 (2 ^ k) ∧ written s.tf 1 (2 ^ k) ∧
      ∃ m, t = afterOk { s with a := m } ∧
        HoldsWords s.a m (2 ^ k) (fnttWords (2 ^ k) s.q.toNat (wordAt s.tf) (wordAt s.a) k)) := by
  rcases Nat.eq_zero_or_pos k with rfl | hpos
  · exact .inl ⟨rfl, Host.Outcome.next.inj (h.symm.trans (exec_fntt_one hn hconf))⟩
  · obtain ⟨u, hloop, -⟩ := fnttLoop_of_exec hn hconf h
    have hA : written s.a 0 (2 ^ k) := written_a_of_fnttLoop (s := beginCommand s) hpos hloop
    have hTF : written s.tf 1 (2 ^ k) := written_tf_of_fnttLoop (s := beginCommand s) hloop
    obtain ⟨m, hexec, hm⟩ := exec_fntt (exponent_le_of_nValid hn hconf.2) hn hconf.1 hA hTF
    exact .inr ⟨hpos, hA, hTF, m, Host.Outcome.next.inj (h.symm.trans hexec), hm⟩

/-- The words after FNTT, as numbers. -/
theorem wordAt_of_exec_fntt (hn : s.n.toNat = 2 ^ k) (hconf : configured s) (h : exec .fntt s = .next t) {p : Nat}
    (hp : p < 2 ^ k) : wordAt t.a p = fnttWords (2 ^ k) s.q.toNat (wordAt s.tf) (wordAt s.a) k p := by
  rcases exec_fntt_cases hn hconf h with ⟨rfl, rfl⟩ | ⟨-, -, -, m, rfl, hm⟩
  · rfl
  · exact hm.wordAt hp (fnttWords_lt (Nat.pos_of_ne_zero hconf.1) s.q.isLt _ (fun _ => BitVec.isLt _) k p)

end reads

theorem wordAt_congr {m m' : Memory} {i : Nat} (h : memRead m i = memRead m' i) : wordAt m i = wordAt m' i := by
  rw [wordAt, wordAt, h]

/-- Settles O41: a completed FNTT had its words, which the other state has too; the stages read no others. -/
theorem fnttDependsOnlyOnItsInputs : Obligations.FnttDependsOnlyOnItsInputs := by
  unfold Obligations.FnttDependsOnlyOnItsInputs
  intro s s' t hn hq hA hTF h
  by_cases hconf : configured s
  · have hconf' : configured s' := by rwa [configured, hn, hq]
    obtain ⟨k, hk, hnk⟩ := (nValid_iff _).mp hconf.2
    have hnk' : s'.n.toNat = 2 ^ k := by rw [hn, hnk]
    rw [hnk] at hA hTF ⊢
    rcases exec_fntt_cases hnk hconf h with ⟨rfl, rfl⟩ | ⟨-, hwA, hwTF, m, rfl, hm⟩
    · exact ⟨_, exec_fntt_one hnk' hconf', rfl, fun _ => hA⟩
    · have hwA' : written s'.a 0 (2 ^ k) := fun i hi hle => by rw [hA i hi]; exact hwA i hi hle
      have hwTF' : written s'.tf 1 (2 ^ k) := fun i hi hle => by rw [hTF i hle hi]; exact hwTF i hi hle
      obtain ⟨m', hexec', hm'⟩ := exec_fntt hk hnk' hconf'.1 hwA' hwTF'
      refine ⟨_, hexec', rfl, fun _ i hi => ?_⟩
      change memRead m' i = memRead m i
      rw [hm'.word i hi, hm.word i hi, hq,
        fnttWords_congr le_rfl _ (fun j hle hj => wordAt_congr (hTF j hle hj)) (fun j hj => wordAt_congr (hA j hj)) hi]
  · have hconf' : ¬ configured s' := by rwa [configured, hn, hq]
    obtain rfl := Host.Outcome.next.inj ((exec_fntt_of_not_configured hconf).symm.trans h)
    exact ⟨_, exec_fntt_of_not_configured hconf', rfl, fun hc => absurd hc hconf⟩

/-! ### The stages modulo `q` -/

section residues
variable {q k e : Nat} {tw : Nat → Nat} {p : LoopPos}

theorem natCast_toNat_emod (x : ℤ) (hq : 0 < q) : (((x % q).toNat : ℕ) : ZMod q) = x := by
  have hnonneg : 0 ≤ x % q := Int.emod_nonneg x (by omega)
  rw [← Int.cast_natCast, Int.toNat_of_nonneg hnonneg, ZMod.intCast_mod]

theorem natCast_fnttStage_lower (a : Nat → Nat) (hp : p ∈ fnttStagePositions k e) :
    (fnttStage (2 ^ k) q (2 ^ e) tw a p.j : ZMod q) =
      a p.j + a (p.j + fnttSpan (2 ^ k) (2 ^ e)) * tw (2 ^ e + p.i) := by
  rw [fnttStage_lower q tw a hp, ZMod.natCast_mod]
  push_cast
  rfl

theorem natCast_fnttStage_upper (a : Nat → Nat) (hq : 0 < q) (hp : p ∈ fnttStagePositions k e) :
    (fnttStage (2 ^ k) q (2 ^ e) tw a (p.j + fnttSpan (2 ^ k) (2 ^ e)) : ZMod q) =
      a p.j - a (p.j + fnttSpan (2 ^ k) (2 ^ e)) * tw (2 ^ e + p.i) := by
  rw [fnttStage_upper q tw a hp, natCast_toNat_emod _ hq]
  push_cast
  rfl

/-- The stages are linear modulo `q`. -/
theorem fnttWords_linear (hq : 0 < q) {c1 c2 : ZMod q} {a1 a2 a3 : Nat → Nat}
    (ha : ∀ x, x < 2 ^ k → (a3 x : ZMod q) = c1 * a1 x + c2 * a2 x) (he : e ≤ k) {x : Nat} (hx : x < 2 ^ k) :
    (fnttWords (2 ^ k) q tw a3 e x : ZMod q) =
      c1 * fnttWords (2 ^ k) q tw a1 e x + c2 * fnttWords (2 ^ k) q tw a2 e x := by
  induction e generalizing x with
  | zero => exact ha x hx
  | succ e ih =>
    obtain ⟨p, hp, hpx⟩ := exists_fnttStagePosition he hx
    obtain ⟨-, hupper, -⟩ := fnttStage_bounds he hp
    have hlow := ih (Nat.le_of_succ_le he) (x := p.j) (by omega)
    have hhigh := ih (Nat.le_of_succ_le he) hupper
    simp only [fnttWords]
    rcases hpx with rfl | rfl
    · simp only [natCast_fnttStage_lower _ hp, hlow, hhigh]
      ring
    · simp only [natCast_fnttStage_upper _ hq hp, hlow, hhigh]
      ring

end residues

/-- Settles O42: each stage is linear modulo `q`, with the same twiddles. -/
theorem fnttIsLinear : Obligations.FnttIsLinear := by
  unfold Obligations.FnttIsLinear
  intro s1 s2 s3 t1 t2 t3 c1 c2 hn2 hn3 hq2 hq3 hconf htf ha h1 h2 h3 i hi
  obtain ⟨k, hk, hnk⟩ := (nValid_iff _).mp hconf.2
  rw [hnk] at htf ha hi
  have hconf2 : configured s2 := by rwa [configured, hn2, hq2]
  have hconf3 : configured s3 := by rwa [configured, hn3, hq3]
  have htf2 : ∀ x, 1 ≤ x → x < 2 ^ k → wordAt s2.tf x = wordAt s1.tf x := fun x hone hx =>
    wordAt_congr (htf x hone hx).1
  have htf3 : ∀ x, 1 ≤ x → x < 2 ^ k → wordAt s3.tf x = wordAt s1.tf x := fun x hone hx =>
    wordAt_congr (htf x hone hx).2
  rw [wordAt_of_exec_fntt hnk hconf h1 hi, wordAt_of_exec_fntt (hn2 ▸ hnk) hconf2 h2 hi,
    wordAt_of_exec_fntt (hn3 ▸ hnk) hconf3 h3 hi, hq2, hq3, fnttWords_congr le_rfl _ htf2 (fun _ _ => rfl) hi,
    fnttWords_congr le_rfl _ htf3 (fun _ _ => rfl) hi, ← ZMod.natCast_eq_natCast_iff]
  have hlinear := fnttWords_linear (Nat.pos_of_ne_zero hconf.1) (tw := wordAt s1.tf) (c1 := c1) (c2 := c2)
    (fun x hx => by exact_mod_cast (ZMod.natCast_eq_natCast_iff _ _ _).mpr (ha x hx)) le_rfl hi
  exact_mod_cast hlinear

end Sys2Proof.Machine
end

section
/-! FNTT evaluates (44_forward_ntt.md R154): after the stages `1, 2, ..., 2^(e-1)` each block of `2^(k-e)` words holds
the input polynomial with its powers folded at a root of the block; the last blocks are single words, the values of R154. -/

namespace Sys2Proof.Machine

section evaluation
variable {q : Nat}

/-- The words `a r, a (r + l), a (r + 2l), ...`, `count` of them, as the coefficients of a polynomial at `z`. -/
def strideSum (a : Nat → Nat) (l count : Nat) (z : ZMod q) (r : Nat) : ZMod q :=
  ∑ c ∈ Finset.range count, a (r + c * l) * z ^ c

theorem sum_range_two_mul {M : Type} [AddCommMonoid M] (f : Nat → M) (n : Nat) :
    ∑ c ∈ Finset.range (2 * n), f c = ∑ c ∈ Finset.range n, (f (2 * c) + f (2 * c + 1)) := by
  induction n with
  | zero => rfl
  | succ n ih => rw [Nat.mul_succ, Finset.sum_range_succ, Finset.sum_range_succ, Finset.sum_range_succ, ih, add_assoc]

/-- The terms of even and of odd powers: the butterfly of 44_forward_ntt.md R151 as a step of an evaluation. -/
theorem strideSum_two_mul (a : Nat → Nat) (l count : Nat) (z : ZMod q) (r : Nat) :
    strideSum a l (2 * count) z r =
      strideSum a (2 * l) count (z ^ 2) r + strideSum a (2 * l) count (z ^ 2) (r + l) * z := by
  simp only [strideSum, sum_range_two_mul, Finset.sum_add_distrib, Finset.sum_mul]
  congr 1
  · refine Finset.sum_congr rfl fun c _ => ?_
    rw [pow_mul, show r + 2 * c * l = r + c * (2 * l) by ring]
  · refine Finset.sum_congr rfl fun c _ => ?_
    rw [pow_succ, pow_mul, show r + (2 * c + 1) * l = r + l + c * (2 * l) by ring, mul_assoc]

/-- The exponent of the root of block `b` of the `2^e` blocks of `2^d` words. -/
def blockExponent (d e b : Nat) : Nat := 2 ^ d * (2 * brv e b + 1)

theorem blockExponent_parent (d e b : Nat) : blockExponent (d + 1) e b = blockExponent d e b * 2 := by
  rw [blockExponent, blockExponent, pow_succ]
  ring

theorem blockExponent_even (d e b : Nat) : blockExponent d (e + 1) (2 * b) = blockExponent d e b := by
  rw [blockExponent, brv, Nat.mul_mod_right, Nat.mul_div_cancel_left b two_pos, zero_mul, zero_add, blockExponent]

theorem blockExponent_odd (d e b : Nat) :
    blockExponent d (e + 1) (2 * b + 1) = 2 ^ (e + 1 + d) + blockExponent d e b := by
  rw [blockExponent, brv, show (2 * b + 1) % 2 = 1 by omega, show (2 * b + 1) / 2 = b by omega, blockExponent, pow_add,
    pow_succ]
  ring

theorem fnttSpan_two_pow (d e : Nat) : fnttSpan (2 ^ (e + 1 + d)) (2 ^ e) = 2 ^ d := by
  rw [fnttSpan, ← pow_succ', pow_add, Nat.mul_div_cancel_left _ (Nat.two_pow_pos _)]

/-- A stage of FNTT takes block `i` of `2^(d+1)` words to the blocks `2i` and `2i + 1` of `2^d` words. -/
theorem natCast_fnttStage_blocks {d e i r : Nat} {tw : Nat → Nat} (w : Nat → Nat) (hq : 0 < q) (hi : i < 2 ^ e)
    (hr : r < 2 ^ d) :
    (fnttStage (2 ^ (e + 1 + d)) q (2 ^ e) tw w (2 * i * 2 ^ d + r) : ZMod q) =
      w (i * 2 ^ (d + 1) + r) + w (i * 2 ^ (d + 1) + (r + 2 ^ d)) * tw (2 ^ e + i) ∧
    (fnttStage (2 ^ (e + 1 + d)) q (2 ^ e) tw w ((2 * i + 1) * 2 ^ d + r) : ZMod q) =
      w (i * 2 ^ (d + 1) + r) - w (i * 2 ^ (d + 1) + (r + 2 ^ d)) * tw (2 ^ e + i) := by
  have hspan := fnttSpan_two_pow d e
  have hp : ⟨2 ^ e, i, 2 * i * 2 ^ d + r⟩ ∈ fnttStagePositions (e + 1 + d) e :=
    mem_stagePositions.mpr ⟨i, hi, r, by rwa [hspan], by rw [hspan]⟩
  have hlower := natCast_fnttStage_lower (q := q) (tw := tw) w hp
  have hupper := natCast_fnttStage_upper (tw := tw) w hq hp
  have hparent : i * 2 ^ (d + 1) = 2 * i * 2 ^ d := by ring
  have hodd : (2 * i + 1) * 2 ^ d + r = 2 * i * 2 ^ d + r + 2 ^ d := by ring
  rw [hspan] at hlower hupper
  rw [hparent, hodd, ← Nat.add_assoc]
  exact ⟨hlower, hupper⟩

/-- What the words hold after `e` stages: word `r` of block `b` is the `r`-th folded sum at the root of the block. -/
theorem natCast_fnttWords {k d e b r : Nat} {tw : Nat → Nat} (a : Nat → Nat) {psi : ZMod q} (hq : 0 < q)
    (hpsi : psi ^ 2 ^ k = -1) (htw : ∀ i, 1 ≤ i → i < 2 ^ k → (tw i : ZMod q) = psi ^ brv k i) (hk : k = e + d)
    (hb : b < 2 ^ e) (hr : r < 2 ^ d) :
    (fnttWords (2 ^ k) q tw a e (b * 2 ^ d + r) : ZMod q) =
      strideSum a (2 ^ d) (2 ^ e) (psi ^ blockExponent d e b) r := by
  induction e generalizing d b r with
  | zero =>
    obtain rfl : b = 0 := by simpa using hb
    simp [fnttWords, strideSum]
  | succ e ih =>
    subst hk
    obtain ⟨i, hbi⟩ := Nat.even_or_odd' b
    have hi : i < 2 ^ e := by rw [pow_succ] at hb; omega
    have htwiddle : 2 ^ e + i < 2 ^ (e + 1 + d) :=
      calc 2 ^ e + i < 2 ^ (e + 1) := by rw [pow_succ]; omega
        _ ≤ 2 ^ (e + 1 + d) := Nat.pow_le_pow_right two_pos (Nat.le_add_right ..)
    have hS : (tw (2 ^ e + i) : ZMod q) = psi ^ blockExponent d e i := by
      rw [htw _ (Nat.one_le_two_pow.trans (Nat.le_add_right ..)) htwiddle, brv_two_pow_add d e hi, blockExponent]
    have hlow := ih (d := d + 1) (r := r) (by omega) hi (by rw [pow_succ]; omega)
    have hhigh := ih (d := d + 1) (r := r + 2 ^ d) (by omega) hi (by rw [pow_succ]; omega)
    obtain ⟨heven, hodd⟩ :=
      natCast_fnttStage_blocks (tw := tw) (fnttWords (2 ^ (e + 1 + d)) q tw a e) hq hi hr
    rw [hlow, hhigh, hS, blockExponent_parent, pow_mul, pow_succ' 2 d] at heven hodd
    rw [pow_succ' 2 e, strideSum_two_mul]
    rcases hbi with rfl | rfl
    · rw [blockExponent_even]
      exact heven
    · rw [blockExponent_odd, pow_add psi, hpsi, neg_one_mul, neg_sq, mul_neg, ← sub_eq_add_neg]
      exact hodd

end evaluation

theorem tableOf.wordAt_eq {m : Memory} {k root q : Nat} (h : tableOf m k root q) (hq : 0 < q) (hq' : q < 2 ^ 32)
    {p : Nat} (hone : 1 ≤ p) (hp : p < 2 ^ k) : wordAt m p = root ^ brv k p % q := by
  rw [Sys2Proof.Machine.wordAt_eq (h p hone hp), toNat_toWord ((Nat.mod_lt _ hq).trans hq')]

theorem tableOf.written {m : Memory} {k root q : Nat} (h : tableOf m k root q) : written m 1 (2 ^ k) :=
  fun p hp hone => by
    rw [h p hone hp, Option.isSome_some]

theorem Matched.pos {n q psi : Nat} (h : Matched n q psi) : 0 < q := by
  obtain ⟨-, hprime, -⟩ := h
  exact hprime.pos

/-- `ψ` is an `n`-th root of `-1` (00_scope.md R7). -/
theorem Matched.pow_eq_neg_one {n q psi : Nat} (h : Matched n q psi) : (psi : ZMod q) ^ n = -1 := by
  obtain ⟨-, hprime, -, hpow, -⟩ := h
  have hcast : ((psi ^ n % q + 1 : ℕ) : ZMod q) = 0 := by
    rw [hpow, Nat.sub_add_cancel hprime.one_le, ZMod.natCast_self]
  rw [Nat.cast_add, ZMod.natCast_mod, Nat.cast_pow, Nat.cast_one] at hcast
  exact eq_neg_of_add_eq_zero_left hcast

/-- Settles O43: after the last stage each block is one word, whose root is the odd power of R154. -/
theorem fnttEvaluatesAtOddPowers : Obligations.FnttEvaluatesAtOddPowers := by
  unfold Obligations.FnttEvaluatesAtOddPowers
  intro s k hn hmatched htable hA
  have hq : 0 < s.q.toNat := hmatched.pos
  have hlt := s.q.isLt
  obtain ⟨m, hexec, hm⟩ := exec_fntt hmatched.exponent_le hn hq.ne' hA htable.written
  refine ⟨_, hexec, fun p hp => ?_⟩
  have hword : wordAt m p = fnttWords (2 ^ k) s.q.toNat (wordAt s.tf) (wordAt s.a) k p :=
    hm.wordAt hp (fnttWords_lt hq hlt _ (fun _ => BitVec.isLt _) k p)
  have htw : ∀ i, 1 ≤ i → i < 2 ^ k → (wordAt s.tf i : ZMod s.q.toNat) = (s.psi.toNat : ZMod s.q.toNat) ^ brv k i := by
    intro i hone hi
    rw [htable.wordAt_eq hq hlt hone hi, ZMod.natCast_mod, Nat.cast_pow]
  have heval := natCast_fnttWords (d := 0) (wordAt s.a) hq hmatched.pow_eq_neg_one htw (add_zero k).symm hp Nat.one_pos
  change wordAt m p ≡ _ [MOD _] ∧ (1 ≤ k → wordAt m p < _)
  refine ⟨?_, fun hk => ?_⟩
  · rw [hword, ← ZMod.natCast_eq_natCast_iff]
    simpa [strideSum, blockExponent, pow_mul] using heval
  · obtain ⟨k, rfl⟩ := Nat.exists_eq_add_of_le' hk
    rw [hword]
    exact fnttStage_lt _ _ hq p

end Sys2Proof.Machine
end

section
/-! INTT as its stages (45_inverse_ntt.md R160 to R163), in layers: the positions of a stage and of INTT; a loop of
passes that covers the words below `n`; one butterfly; one stage, as one parallel step; the stages in a row; the
scaling. -/

namespace Sys2Proof.Machine

/-! ### Positions of INTT -/

section positions
variable {k e : Nat} {p : LoopPos}

/-- The butterflies of the stage of INTT with span `2^e`. -/
abbrev inttStagePositions (k e : Nat) : List LoopPos :=
  stagePositions (2 ^ k / 2 ^ e) (2 ^ k / 2 ^ e / 2) (inttSpan (2 ^ k) (2 ^ k / 2 ^ e))

theorem inttSpan_two_pow (he : e < k) : inttSpan (2 ^ k) (2 ^ k / 2 ^ e) = 2 ^ e :=
  Nat.div_div_self (Nat.pow_dvd_pow 2 he.le) (Nat.two_pow_pos k).ne'

theorem half_inttStage (he : e < k) : 2 ^ k / 2 ^ e / 2 = 2 ^ (k - (e + 1)) := by
  rw [Nat.div_div_eq_div_mul, ← pow_succ, Nat.pow_div he two_pos]

/-- The groups of a stage of INTT cover its words (45_inverse_ntt.md R162). -/
theorem two_mul_groups_mul_inttSpan (he : e < k) : 2 * 2 ^ (k - (e + 1)) * 2 ^ e = 2 ^ k := by
  rw [← pow_succ', ← pow_add]
  congr 1
  omega

theorem mem_inttStagePositions (he : e < k) : p ∈ inttStagePositions k e ↔
    ∃ i < 2 ^ (k - (e + 1)), ∃ o < 2 ^ e, p = ⟨2 ^ k / 2 ^ e, i, 2 * i * 2 ^ e + o⟩ := by
  rw [inttStagePositions, mem_stagePositions, inttSpan_two_pow he, half_inttStage he]

theorem mem_inttPositions : p ∈ inttPositions (2 ^ k) ↔ ∃ e < k, p ∈ inttStagePositions k e := by
  simp only [inttPositions_two_pow, List.mem_flatMap, List.mem_range]

theorem length_inttPositions (k : Nat) : (inttPositions (2 ^ k)).length = 2 ^ k / 2 * k := by
  have hstage : ∀ e ∈ List.range k, (inttStagePositions k e).length = 2 ^ k / 2 := by
    intro e he
    have hcover := two_mul_groups_mul_inttSpan (List.mem_range.mp he)
    rw [length_stagePositions, inttSpan_two_pow (List.mem_range.mp he), half_inttStage (List.mem_range.mp he)]
    rw [mul_assoc] at hcover
    omega
  rw [inttPositions_two_pow, List.length_flatMap, List.map_congr_left hstage]
  simp [mul_comm]

/-- The span of a butterfly, the groups of its stage, and its indices: below `n`, and that of its twiddle not 0
(45_inverse_ntt.md R160, R162). -/
structure InttPosition (k e : Nat) (p : LoopPos) : Prop where
  span : inttSpan (2 ^ k) p.m = 2 ^ e
  groups : p.m / 2 = 2 ^ (k - (e + 1))
  upper_lt : p.j + 2 ^ e < 2 ^ k
  twiddle_pos : 1 ≤ p.m / 2 + p.i
  twiddle_lt : p.m / 2 + p.i < 2 ^ k

theorem inttPosition_of_mem (he : e < k) (hp : p ∈ inttStagePositions k e) : InttPosition k e p := by
  have htwiddle := inttPositions_twiddle_lt (mem_inttPositions.mpr ⟨e, he, hp⟩)
  have hupper := inttPositions_lt (mem_inttPositions.mpr ⟨e, he, hp⟩)
  obtain ⟨i, -, o, -, rfl⟩ := (mem_inttStagePositions he).mp hp
  have hspan := inttSpan_two_pow he
  have hgroups := half_inttStage he
  have hpos := Nat.two_pow_pos (k - (e + 1))
  dsimp only at *
  rw [hspan] at hupper
  exact ⟨hspan, hgroups, hupper, by dsimp only; omega, htwiddle⟩

end positions

/-- Settles O53: the sequencer follows the loop nest, whose positions are those of the stages. -/
theorem inttSequencerFollowsTheLoopNest : Obligations.InttSequencerFollowsTheLoopNest := by
  unfold Obligations.InttSequencerFollowsTheLoopNest
  refine fun k => ⟨length_inttPositions k, fun hk => ?_, fun x p hp => ?_⟩
  · rw [← List.head?_eq_getElem?, head?_inttPositions hk]
  · obtain ⟨e, he, hstage⟩ := mem_inttPositions.mp (List.mem_of_getElem? hp)
    obtain ⟨hspan, hgroups, hupper, hone, htwiddle⟩ := inttPosition_of_mem he hstage
    obtain ⟨i, hi, o, ho, rfl⟩ := (mem_inttStagePositions he).mp hstage
    have hm : 2 ^ k / 2 ^ e = 2 ^ (k - e) := Nat.pow_div he.le two_pos
    have hpos := Nat.two_pow_pos e
    refine ⟨(follows_inttPositions k).getElem?_succ hp, ⟨k - e, by omega, Nat.sub_le k e, hm⟩, ?_⟩
    rw [hspan]
    dsimp only at *
    omega

/-! ### Loops of passes that cover the words below `n` -/

/-- A loop of passes on disjoint words that make up `0..n-1` is one parallel step: it leaves at each word what the pass
on this word alone leaves. -/
theorem forEach_holdsWords {α : Type} {f : α → State → Result State} {F : α → Set Nat} {xs : List α} {n : Nat}
    {word : Nat → Nat} {s : State} (hf : ∀ x, LocalPass (F x) (f x))
    (hdisjoint : xs.Pairwise fun x y => Disjoint (F x) (F y)) (hcover : ∀ i, i < n ↔ ∃ x ∈ xs, i ∈ F x)
    (hat : ∀ x ∈ xs, ∃ u, f x s = .next u ∧ ∀ i ∈ F x, memRead u.a i = some (toWord (word i))) :
    ∃ m, forEach f xs s = .next (setSpaceMem .a m s) ∧ HoldsWords s.a m n word := by
  obtain ⟨t, ht, hwords⟩ := forEach_of_localPass hf hdisjoint fun x hx => (hat x hx).imp fun _ => And.left
  have hwrites : WritesTo .a (fun i _ => i < n) s t :=
    writesTo_forEach (fun x hx u v h => ((hf x).writes h).mono fun i _ hi => (hcover i).mpr ⟨x, hx, hi⟩) ht
  obtain ⟨m, rfl⟩ := hwrites.frame
  refine ⟨m, ht, fun i hi => ?_, fun i hi => (hwrites.word i).resolve_right fun ⟨_, _, hlt⟩ => hi.not_gt hlt⟩
  obtain ⟨x, hx, hix⟩ := (hcover i).mp hi
  obtain ⟨u, hu, hword⟩ := hat x hx
  exact ((hwords x hx u hu).word i hix).trans (hword i hix)

/-! ### One butterfly of INTT -/

/-- The words a butterfly of INTT reads: the twiddle `tw` of group `p.i`, `u` at `p.j` and `v` a span above. -/
structure InttReads (n : Nat) (p : LoopPos) (s : State) (tw u v : Word) : Prop where
  twiddle_lt : p.m / 2 + p.i < Config.nMax
  twiddle : memRead s.ti (p.m / 2 + p.i) = some tw
  upper_lt : p.j + inttSpan n p.m < Config.nMax
  lower : memRead s.a p.j = some u
  upper : memRead s.a (p.j + inttSpan n p.m) = some v

/-- A butterfly of INTT answers exactly when its words are written (45_inverse_ntt.md R161). -/
theorem inttAt_eq_next {n q : Nat} {p : LoopPos} {s t : State} :
    inttAt n q p s = .next t ↔ ∃ tw u v, InttReads n p s tw u v ∧
      t = setSpaceMem .a (memWrite (memWrite s.a p.j (toWord (addMod u.toNat v.toNat q)))
        (p.j + inttSpan n p.m) (toWord (mulMod (subMod u.toNat v.toNat q) tw.toNat q))) s := by
  simp only [inttAt, gsButterfly, andThen_eq_next, readWord_eq_next, writeWord_eq_next]
  constructor
  · rintro ⟨tw, ⟨htw, htwr⟩, u, ⟨hj, hu⟩, v, ⟨hjt, hv⟩, s', ⟨-, rfl⟩, -, rfl⟩
    exact ⟨tw, u, v, ⟨htw, htwr, hjt, hu, hv⟩, rfl⟩
  · rintro ⟨tw, u, v, ⟨htw, htwr, hjt, hu, hv⟩, rfl⟩
    exact ⟨tw, ⟨htw, htwr⟩, u, ⟨by omega, hu⟩, v, ⟨hjt, hv⟩, _, ⟨by omega, rfl⟩, hjt, rfl⟩

theorem mulMod_subMod (u v tw : Nat) {q : Nat} (hq : 0 < q) :
    mulMod (subMod u v q) tw q = ((((u : ℤ) - v) * tw) % q).toNat := by
  have h : ((mulMod (subMod u v q) tw q : ℕ) : ℤ) = ((u : ℤ) - v) * tw % q := by
    rw [mulMod, Int.natCast_mod, Nat.cast_mul, subMod_eq_emod u v hq, Int.mul_emod, Int.emod_emod, ← Int.mul_emod]
  rw [← h, Int.toNat_natCast]

/-! ### One stage of INTT -/

section stage
variable {k e q : Nat} (tw a : Nat → Nat)

theorem inttStage_eq (he : e < k) (x : Nat) : inttStage (2 ^ k) q (2 ^ k / 2 ^ e) tw a x =
    if x % (2 * 2 ^ e) < 2 ^ e then (a x + a (x + 2 ^ e)) % q
    else ((((a (x - 2 ^ e) : ℤ) - a x) * tw (2 ^ (k - (e + 1)) + x / (2 * 2 ^ e))) % q).toNat := by
  have hspan : 2 ^ k / (2 ^ k / 2 ^ e) = 2 ^ e := inttSpan_two_pow he
  simp only [inttStage, hspan, half_inttStage he]

theorem inttStage_lower (he : e < k) (i : Nat) {o : Nat} (ho : o < 2 ^ e) :
    inttStage (2 ^ k) q (2 ^ k / 2 ^ e) tw a (2 * i * 2 ^ e + o) =
      (a (2 * i * 2 ^ e + o) + a (2 * i * 2 ^ e + o + 2 ^ e)) % q := by
  rw [inttStage_eq tw a he, groupWord_mod (by omega), if_pos ho]

theorem inttStage_upper (he : e < k) (i : Nat) {o : Nat} (ho : o < 2 ^ e) :
    inttStage (2 ^ k) q (2 ^ k / 2 ^ e) tw a (2 * i * 2 ^ e + o + 2 ^ e) =
      ((((a (2 * i * 2 ^ e + o) : ℤ) - a (2 * i * 2 ^ e + o + 2 ^ e)) * tw (2 ^ (k - (e + 1)) + i)) % q).toNat := by
  have hw : o + 2 ^ e < 2 * 2 ^ e := by omega
  rw [inttStage_eq tw a he, Nat.add_sub_cancel, Nat.add_assoc, groupWord_mod hw, if_neg (by omega), groupWord_div hw]

theorem toNat_emod_lt (x : ℤ) (hq : 0 < q) : (x % q).toNat < q := by
  have hpos : (0 : ℤ) < q := by omega
  have hnonneg := Int.emod_nonneg x hpos.ne'
  have hlt := Int.emod_lt_of_pos x hpos
  omega

theorem inttStage_lt (hq : 0 < q) (he : e < k) (x : Nat) : inttStage (2 ^ k) q (2 ^ k / 2 ^ e) tw a x < q := by
  rw [inttStage_eq tw a he]
  split_ifs
  · exact Nat.mod_lt _ hq
  · exact toNat_emod_lt _ hq

/-- The words between the stages fit a memory word. -/
theorem inttWords_lt {a : Nat → Nat} (ha : ∀ x, a x < 2 ^ 32) (hq : 0 < q) (hq' : q < 2 ^ 32) (he : e ≤ k) (x : Nat) :
    inttWords (2 ^ k) q tw a e x < 2 ^ 32 := by
  cases e with
  | zero => exact ha x
  | succ e => exact (inttStage_lt tw _ hq he x).trans hq'

/-- The words of a stage are those of its butterflies. -/
theorem exists_inttStagePosition (he : e < k) (x : Nat) :
    x < 2 ^ k ↔ ∃ p ∈ inttStagePositions k e, x ∈ butterflyPair p.j (inttSpan (2 ^ k) p.m) := by
  constructor
  · intro hx
    have hcovered : x < 2 * (2 ^ k / 2 ^ e / 2) * inttSpan (2 ^ k) (2 ^ k / 2 ^ e) := by
      rwa [half_inttStage he, inttSpan_two_pow he, two_mul_groups_mul_inttSpan he]
    obtain ⟨p, hp, hpx⟩ := exists_butterfly (m := 2 ^ k / 2 ^ e) hcovered
    obtain ⟨hm, -⟩ := stagePositions_lt hp
    exact ⟨p, hp, by rwa [hm]⟩
  · rintro ⟨p, hp, hpx⟩
    obtain ⟨hspan, -, hupper, -⟩ := inttPosition_of_mem he hp
    rw [hspan] at hpx
    rcases hpx with rfl | rfl <;> omega

/-- A stage depends on the words below `n` only. -/
theorem inttStage_congr {tw a a' : Nat → Nat} (he : e < k) (ha : ∀ x, x < 2 ^ k → a x = a' x) {x : Nat}
    (hx : x < 2 ^ k) :
    inttStage (2 ^ k) q (2 ^ k / 2 ^ e) tw a x = inttStage (2 ^ k) q (2 ^ k / 2 ^ e) tw a' x := by
  obtain ⟨p, hp, hpx⟩ := (exists_inttStagePosition he x).mp hx
  obtain ⟨hspan, -, hupper, -⟩ := inttPosition_of_mem he hp
  obtain ⟨i, -, o, ho, rfl⟩ := (mem_inttStagePositions he).mp hp
  have hlow := ha (2 * i * 2 ^ e + o) (by dsimp only at hupper; omega)
  have hhigh := ha _ hupper
  rw [hspan] at hpx
  rcases hpx with rfl | rfl
  · rw [inttStage_lower tw a he i ho, inttStage_lower tw a' he i ho, hlow, hhigh]
  · rw [inttStage_upper tw a he i ho, inttStage_upper tw a' he i ho, hlow, hhigh]

end stage

/-! ### The stages of INTT in a row -/

section loop
variable {s : State} {k e q : Nat}

/-- One butterfly leaves at its two words what the parallel step of its stage gives. -/
theorem inttAt_stage (hk : k ≤ 10) (he : e < k) (hq : 0 < q) (hA : written s.a 0 (2 ^ k)) (hTI : written s.ti 1 (2 ^ k))
    {p : LoopPos} (hp : p ∈ inttStagePositions k e) :
    ∃ u, inttAt (2 ^ k) q p s = .next u ∧ ∀ x ∈ butterflyPair p.j (inttSpan (2 ^ k) p.m),
      memRead u.a x = some (toWord (inttStage (2 ^ k) q (2 ^ k / 2 ^ e) (wordAt s.ti) (wordAt s.a) x)) := by
  obtain ⟨hspan, hgroups, hupper, hone, htwiddle⟩ := inttPosition_of_mem he hp
  have hmax : 2 ^ k ≤ Config.nMax := Nat.pow_le_pow_right two_pos hk
  have hpos := Nat.two_pow_pos e
  obtain ⟨tw, htw⟩ := Option.isSome_iff_exists.mp (hTI _ htwiddle hone)
  obtain ⟨u, hu⟩ := Option.isSome_iff_exists.mp (hA p.j (by omega) (Nat.zero_le _))
  obtain ⟨v, hv⟩ := Option.isSome_iff_exists.mp (hA _ hupper (Nat.zero_le _))
  have hreads : InttReads (2 ^ k) p s tw u v :=
    ⟨htwiddle.trans_le hmax, htw, hspan ▸ hupper.trans_le hmax, hu, hspan ▸ hv⟩
  refine ⟨_, inttAt_eq_next.mpr ⟨tw, u, v, hreads, rfl⟩, fun x hx => ?_⟩
  rw [hspan] at hx ⊢
  rw [setSpaceMem_a_a, memRead_memWrite, memRead_memWrite, mulMod_subMod _ _ _ hq]
  rw [hgroups] at htw
  obtain ⟨i, -, o, ho, rfl⟩ := (mem_inttStagePositions he).mp hp
  rcases hx with rfl | rfl
  · rw [if_neg (by omega), if_pos rfl, inttStage_lower _ _ he i ho, wordAt_eq hu, wordAt_eq hv, addMod]
  · rw [if_pos rfl, inttStage_upper _ _ he i ho, wordAt_eq htw, wordAt_eq hu, wordAt_eq hv]

/-- A stage is one parallel step. -/
theorem forEach_inttStage (hk : k ≤ 10) (he : e < k) (hq : 0 < q) (hA : written s.a 0 (2 ^ k))
    (hTI : written s.ti 1 (2 ^ k)) :
    ∃ m, forEach (inttAt (2 ^ k) q) (inttStagePositions k e) s = .next (setSpaceMem .a m s) ∧
      HoldsWords s.a m (2 ^ k) (inttStage (2 ^ k) q (2 ^ k / 2 ^ e) (wordAt s.ti) (wordAt s.a)) :=
  forEach_holdsWords (localPass_inttAt (2 ^ k) q)
    ((nodup_stagePositions ..).pairwise_of_forall_ne fun _ hp _ => disjoint_butterflyPair hp)
    (exists_inttStagePosition he) fun _ => inttAt_stage hk he hq hA hTI

theorem forEach_inttStages (hk : k ≤ 10) (hq : 0 < q) (hq' : q < 2 ^ 32) (hA : written s.a 0 (2 ^ k))
    (hTI : written s.ti 1 (2 ^ k)) (he : e ≤ k) :
    ∃ m, forEach (inttAt (2 ^ k) q) ((List.range e).flatMap (inttStagePositions k)) s = .next (setSpaceMem .a m s) ∧
      HoldsWords s.a m (2 ^ k) (inttWords (2 ^ k) q (wordAt s.ti) (wordAt s.a) e) := by
  induction e with
  | zero => exact ⟨s.a, rfl, .of_written hA⟩
  | succ e ih =>
    obtain ⟨m, hloop, hm⟩ := ih (Nat.le_of_succ_le he)
    obtain ⟨m', hstage, hm'⟩ := forEach_inttStage (s := setSpaceMem .a m s) hk he hq hm.written hTI
    refine ⟨m', ?_, fun x hx => ?_, fun x hx => (hm'.kept x hx).trans (hm.kept x hx)⟩
    · rw [List.range_succ, List.flatMap_append, List.flatMap_singleton, forEach_append, hloop, andThen_next, hstage,
        setSpaceMem_setSpaceMem]
    · have hwords : ∀ y, y < 2 ^ k → wordAt m y = inttWords (2 ^ k) q (wordAt s.ti) (wordAt s.a) e y := fun y hy =>
        hm.wordAt hy (inttWords_lt _ (fun _ => BitVec.isLt _) hq hq' (Nat.le_of_succ_le he) y)
      rw [hm'.word x hx, inttWords, ← inttStage_congr he hwords hx]
      rfl

/-! ### The scaling -/

/-- A scaling answers exactly when its word is written (45_inverse_ntt.md R163). -/
theorem scaleAt_eq_next {ninv j : Nat} {t : State} : scaleAt q ninv j s = .next t ↔
    ∃ v, j < Config.nMax ∧ memRead s.a j = some v ∧
      t = setSpaceMem .a (memWrite s.a j (toWord (v.toNat * ninv % q))) s := by
  simp only [scaleAt, andThen_eq_next, readWord_eq_next, writeWord_eq_next]
  constructor
  · rintro ⟨v, ⟨hj, hv⟩, -, rfl⟩
    exact ⟨v, hj, hv, rfl⟩
  · rintro ⟨v, hj, hv, rfl⟩
    exact ⟨v, ⟨hj, hv⟩, hj, rfl⟩

theorem forEach_scaleAt (hk : k ≤ 10) (ninv : Nat) (hA : written s.a 0 (2 ^ k)) :
    ∃ m, forEach (scaleAt q ninv) (List.range (2 ^ k)) s = .next (setSpaceMem .a m s) ∧
      HoldsWords s.a m (2 ^ k) fun p => wordAt s.a p * ninv % q := by
  refine forEach_holdsWords (localPass_scaleAt q ninv)
    (List.nodup_range.pairwise_of_forall_ne fun _ _ _ _ => Set.disjoint_singleton.mpr) (fun i => by simp)
    fun j hj => ?_
  have hlt := List.mem_range.mp hj
  obtain ⟨v, hv⟩ := Option.isSome_iff_exists.mp (hA j hlt (Nat.zero_le j))
  refine ⟨_, scaleAt_eq_next.mpr ⟨v, hlt.trans_le (Nat.pow_le_pow_right two_pos hk), hv, rfl⟩, fun i hi => ?_⟩
  obtain rfl : i = j := hi
  rw [setSpaceMem_a_a, memRead_memWrite_same, wordAt_eq hv]

end loop

/-! ### INTT -/

section command
variable {s : State} {k y : Nat}

/-- With usable parameters and an inverse of `n` the pseudocode is the two loops (45_inverse_ntt.md R160). -/
theorem inttBody_of_some (hk : k ≤ 10) (hn : s.n.toNat = 2 ^ k) (hq : s.q.toNat ≠ 0)
    (hy : modInv (2 ^ k) s.q.toNat = some y) :
    inttBody s = andThen (forEach (inttAt (2 ^ k) s.q.toNat) (inttPositions (2 ^ k)) (setNInv y s)) fun s' =>
      andThen (forEach (scaleAt s.q.toNat y) (List.range (2 ^ k)) s') finish := by
  have hconf : configured s := ⟨hq, (nValid_iff _).mpr ⟨k, hk, hn⟩⟩
  rw [inttBody, withNQ_of_configured hconf, hn, hy]

theorem inttBody_of_none (hk : k ≤ 10) (hn : s.n.toNat = 2 ^ k) (hq : s.q.toNat ≠ 0)
    (hy : modInv (2 ^ k) s.q.toNat = none) : inttBody s = raise .notInvertible s := by
  have hconf : configured s := ⟨hq, (nValid_iff _).mpr ⟨k, hk, hn⟩⟩
  rw [inttBody, withNQ_of_configured hconf, hn, hy]

/-- INTT on written words: the stages, then each word times the inverse of `n`. -/
theorem exec_intt (hk : k ≤ 10) (hn : s.n.toNat = 2 ^ k) (hq : s.q.toNat ≠ 0)
    (hy : modInv (2 ^ k) s.q.toNat = some y) (hA : written s.a 0 (2 ^ k)) (hTI : written s.ti 1 (2 ^ k)) :
    ∃ m, exec .intt s = .next (afterOk { s with nInv := toWord y, a := m }) ∧
      HoldsWords s.a m (2 ^ k) fun p =>
        inttWords (2 ^ k) s.q.toNat (wordAt s.ti) (wordAt s.a) k p * y % s.q.toNat := by
  have hpos := Nat.pos_of_ne_zero hq
  obtain ⟨m, hstages, hm⟩ :=
    forEach_inttStages (s := setNInv y (beginCommand s)) hk hpos s.q.isLt hA hTI le_rfl
  obtain ⟨m', hscale, hm'⟩ := forEach_scaleAt (q := s.q.toNat)
    (s := setSpaceMem .a m (setNInv y (beginCommand s))) hk y hm.written
  have hbody : inttBody (beginCommand s) = finish (setSpaceMem .a m' (setNInv y (beginCommand s))) := by
    rw [inttBody_of_some (s := beginCommand s) hk hn hq hy, inttPositions_two_pow, beginCommand_q, hstages, andThen_next,
      hscale, setSpaceMem_setSpaceMem, andThen_next]
  have hexec := exec_of_finish (i := .intt) hbody
  refine ⟨m', hexec, fun p hp => ?_, fun p hp => (hm'.kept p hp).trans (hm.kept p hp)⟩
  have hword := hm.wordAt hp (inttWords_lt _ (fun _ => BitVec.isLt _) hpos s.q.isLt le_rfl p)
  rw [hm'.word p hp, setSpaceMem_a_a, hword]
  rfl

end command

/-- Settles O44: each stage is one parallel step, since its butterflies share no word, and so is the scaling. -/
theorem inttComputesItsStages : Obligations.InttComputesItsStages := by
  unfold Obligations.InttComputesItsStages
  intro s k hk hn hq hgcd hA hTI
  obtain ⟨y, hy, hlt, hinverse⟩ := exists_modInv (Nat.pos_of_ne_zero hq) hgcd
  obtain ⟨m, hexec, hm⟩ := exec_intt hk hn hq hy hA hTI
  rw [Nat.mod_mul_mod] at hinverse
  exact ⟨y, m, hlt, hinverse, hexec, hm.word, hm.kept⟩

end Sys2Proof.Machine
end

section
/-! The words INTT reads (45_inverse_ntt.md R163, 70_reset_and_hazards.md R225), in layers: a loop that is refused;
the words written stay those of the first state; what a butterfly and a scaling find unwritten; what a completed INTT
read. -/

namespace Sys2Proof.Machine

/-! ### Loops that are refused -/

/-- A loop is refused in one of its steps, in a state that has what every step keeps. -/
theorem exists_refused_of_forEach {α : Type} {f : α → State → Result State} {P : State → Prop} {xs : List α} {s : State}
    {r : Refusal} (hkeep : ∀ x u v, f x u = .next v → P u → P v) (h : forEach f xs s = .refused r) (hs : P s) :
    ∃ x ∈ xs, ∃ u, P u ∧ f x u = .refused r := by
  induction xs generalizing s with
  | nil => cases h
  | cons x xs ih =>
    rcases andThen_eq_refused.mp h with hfirst | ⟨u, hu, hrest⟩
    · exact ⟨x, List.mem_cons_self, s, hs, hfirst⟩
    · obtain ⟨y, hy, hat⟩ := ih hrest (hkeep x s u hu hs)
      exact ⟨y, List.mem_cons_of_mem x hy, hat⟩

/-! ### The words written -/

/-- The words of the three memories that hold a value are those of `s`. -/
def KeepsWritten (s u : State) : Prop :=
  ∀ sp i, (memRead (spaceMem sp u) i).isSome = (memRead (spaceMem sp s) i).isSome

section keeps
variable {s u v : State} {n q : Nat}

theorem KeepsWritten.memRead_eq_none {sp : Space} {i : Nat} (hu : KeepsWritten s u)
    (h : memRead (spaceMem sp u) i = none) : memRead (spaceMem sp s) i = none := by
  rw [← Option.isNone_iff_eq_none, ← Option.not_isSome, ← hu sp i, h]
  rfl

/-- A write to a word of `A` that is written. -/
theorem KeepsWritten.write {i : Nat} (w : Word) (hu : KeepsWritten s u) (hi : (memRead u.a i).isSome = true) :
    KeepsWritten s (setSpaceMem .a (memWrite u.a i w) u) := fun sp j => by
  rw [← hu sp j]
  cases sp with
  | a =>
    rw [spaceMem_setSpaceMem_same, memRead_memWrite]
    split_ifs with hj
    · rw [hj, Option.isSome_some]
      exact hi.symm
    · rfl
  | tf | ti => rfl

/-- A butterfly writes only where it has read. -/
theorem KeepsWritten.inttAt {p : LoopPos} (h : inttAt n q p u = .next v) (hu : KeepsWritten s u) : KeepsWritten s v := by
  obtain ⟨tw, x, y, hreads, rfl⟩ := inttAt_eq_next.mp h
  have hlower := hu.write (toWord (addMod x.toNat y.toNat q)) (Option.isSome_of_eq_some hreads.lower)
  have hupper := (hlower .a _).trans ((hu .a _).symm.trans (Option.isSome_of_eq_some hreads.upper))
  have hboth := hlower.write (toWord (mulMod (subMod x.toNat y.toNat q) tw.toNat q)) hupper
  rwa [setSpaceMem_setSpaceMem] at hboth

/-- A scaling writes only where it has read. -/
theorem KeepsWritten.scaleAt {ninv j : Nat} (h : scaleAt q ninv j u = .next v) (hu : KeepsWritten s u) :
    KeepsWritten s v := by
  obtain ⟨w, -, hw, rfl⟩ := scaleAt_eq_next.mp h
  exact hu.write _ (Option.isSome_of_eq_some hw)

end keeps

/-! ### The words INTT finds unwritten -/

/-- `r` names a word that INTT of length `n` reads and that `s` has not written (45_inverse_ntt.md R163). -/
def NamesUnwritten (n : Nat) (s : State) (r : Refusal) : Prop :=
  ∃ sp i, r = .unwrittenWord sp i ∧ i < n ∧ memRead (spaceMem sp s) i = none ∧ (sp = .a ∨ (sp = .ti ∧ 1 ≤ i))

section refused
variable {s u : State} {r : Refusal} {k e q : Nat}

theorem NamesUnwritten.of_keepsWritten {n : Nat} (hu : KeepsWritten s u) (h : NamesUnwritten n u r) :
    NamesUnwritten n s r := by
  obtain ⟨sp, i, hr, hi, hnone, hsp⟩ := h
  exact ⟨sp, i, hr, hi, hu.memRead_eq_none hnone, hsp⟩

/-- A butterfly is refused for its twiddle or for one of its two words. -/
theorem namesUnwritten_of_inttAt (he : e < k) {p : LoopPos} (hp : p ∈ inttStagePositions k e)
    (h : inttAt (2 ^ k) q p s = .refused r) : NamesUnwritten (2 ^ k) s r := by
  obtain ⟨hspan, -, hupper, hone, htwiddle⟩ := inttPosition_of_mem he hp
  simp only [inttAt, gsButterfly, andThen_eq_refused, readWord_eq_refused, writeWord_ne_refused, and_false, exists_false,
    or_false, hspan] at h
  rcases h with ⟨-, hnone, hr⟩ | ⟨-, -, ⟨-, hnone, hr⟩ | ⟨-, -, -, hnone, hr⟩⟩
  · exact ⟨.ti, _, hr, htwiddle, hnone, .inr ⟨rfl, hone⟩⟩
  · exact ⟨.a, _, hr, by omega, hnone, .inl rfl⟩
  · exact ⟨.a, _, hr, hupper, hnone, .inl rfl⟩

theorem namesUnwritten_of_scaleAt {n ninv j : Nat} (hj : j < n) (h : scaleAt q ninv j s = .refused r) :
    NamesUnwritten n s r := by
  simp only [scaleAt, andThen_eq_refused, readWord_eq_refused, writeWord_ne_refused, and_false, exists_false,
    or_false] at h
  obtain ⟨-, hnone, hr⟩ := h
  exact ⟨.a, j, hr, hj, hnone, .inl rfl⟩

theorem namesUnwritten_of_inttLoop (h : forEach (inttAt (2 ^ k) q) (inttPositions (2 ^ k)) s = .refused r) :
    NamesUnwritten (2 ^ k) s r := by
  obtain ⟨p, hp, u, hu, hat⟩ :=
    exists_refused_of_forEach (P := KeepsWritten s) (fun _ _ _ => .inttAt) h fun _ _ => rfl
  obtain ⟨e, he, hstage⟩ := mem_inttPositions.mp hp
  exact (namesUnwritten_of_inttAt he hstage hat).of_keepsWritten hu

theorem namesUnwritten_of_scaleLoop {n ninv : Nat} (h : forEach (scaleAt q ninv) (List.range n) s = .refused r) :
    NamesUnwritten n s r := by
  obtain ⟨j, hj, u, hu, hat⟩ :=
    exists_refused_of_forEach (P := KeepsWritten s) (fun _ _ _ => .scaleAt) h fun _ _ => rfl
  exact (namesUnwritten_of_scaleAt (List.mem_range.mp hj) hat).of_keepsWritten hu

theorem keepsWritten_inttLoop {t : State} {n : Nat} {xs : List LoopPos} (h : forEach (inttAt n q) xs s = .next t) :
    KeepsWritten s t :=
  forEach_keeps (P := KeepsWritten s) (fun _ _ _ _ => .inttAt) h fun _ _ => rfl

end refused

/-! ### The words a completed INTT has read -/

section reads
variable {s t : State} {k q : Nat}

/-- The scaling reads every word of `A` (45_inverse_ntt.md R163). -/
theorem written_a_of_scaleLoop {n ninv : Nat} (h : forEach (scaleAt q ninv) (List.range n) s = .next t) :
    written s.a 0 n := by
  intro j hj _
  obtain ⟨u, v, hu, hat⟩ :=
    exists_step_of_forEach (P := KeepsWritten s) (fun _ _ _ => .scaleAt) h (fun _ _ => rfl) (List.mem_range.mpr hj)
  obtain ⟨w, -, hw, -⟩ := scaleAt_eq_next.mp hat
  exact (hu .a j).symm.trans (Option.isSome_of_eq_some hw)

/-- Each group of each stage of INTT reads its twiddle (45_inverse_ntt.md R160). -/
theorem written_ti_of_inttLoop (h : forEach (inttAt (2 ^ k) q) (inttPositions (2 ^ k)) s = .next t) :
    written s.ti 1 (2 ^ k) := by
  intro x hx hone
  have hne : x ≠ 0 := by omega
  have hlow : 2 ^ x.log2 ≤ x := Nat.log2_self_le hne
  have hhigh : x < 2 ^ (x.log2 + 1) := Nat.lt_log2_self
  have hbits : x.log2 < k := (Nat.log2_lt hne).mpr hx
  obtain ⟨e, hk⟩ := Nat.exists_eq_add_of_lt hbits
  have he : e < k := by omega
  have hgroups : k - (e + 1) = x.log2 := by omega
  rw [pow_succ] at hhigh
  have hp : ⟨2 ^ k / 2 ^ e, x - 2 ^ x.log2, 2 * (x - 2 ^ x.log2) * 2 ^ e + 0⟩ ∈ inttStagePositions k e :=
    (mem_inttStagePositions he).mpr ⟨_, by rw [hgroups]; omega, 0, Nat.two_pow_pos e, rfl⟩
  obtain ⟨u, v, hu, hat⟩ := exists_step_of_forEach (P := KeepsWritten s) (fun _ _ _ => .inttAt) h (fun _ _ => rfl)
    (mem_inttPositions.mpr ⟨e, he, hp⟩)
  obtain ⟨tw, w, w', hreads, -⟩ := inttAt_eq_next.mp hat
  have htwiddle := hreads.twiddle
  rw [half_inttStage he, hgroups, Nat.add_sub_cancel' hlow] at htwiddle
  exact (hu .ti x).symm.trans (Option.isSome_of_eq_some htwiddle)

end reads

section command
variable {s : State} {k y : Nat}

/-- The loops begin with the words of `s`. -/
theorem keepsWritten_inttStart (y : Nat) (s : State) : KeepsWritten s (setNInv y (beginCommand s)) := fun sp _ => by
  cases sp <;> rfl

/-- A completed INTT had its words. -/
theorem written_of_exec_intt {t : State} (hk : k ≤ 10) (hn : s.n.toNat = 2 ^ k) (hq : s.q.toNat ≠ 0)
    (hy : modInv (2 ^ k) s.q.toNat = some y) (h : exec .intt s = .next t) :
    written s.a 0 (2 ^ k) ∧ written s.ti 1 (2 ^ k) := by
  obtain ⟨o, hbody, -⟩ := exec_eq_next.mp h
  replace hbody : inttBody (beginCommand s) = .next o := hbody
  rw [inttBody_of_some (s := beginCommand s) hk hn hq hy] at hbody
  obtain ⟨u, hstages, hrest⟩ := andThen_eq_next.mp hbody
  obtain ⟨v, hscale, -⟩ := andThen_finish_eq_next hrest
  have hA := written_a_of_scaleLoop hscale
  have hTI := written_ti_of_inttLoop hstages
  exact ⟨fun i hi hle => (keepsWritten_inttLoop hstages .a i).symm.trans (hA i hi hle), hTI⟩

/-- A refused INTT names a word it reads that nothing has written. -/
theorem namesUnwritten_of_exec_intt {r : Refusal} (hk : k ≤ 10) (hn : s.n.toNat = 2 ^ k) (hq : s.q.toNat ≠ 0)
    (hy : modInv (2 ^ k) s.q.toNat = some y) (h : exec .intt s = .refused r) : NamesUnwritten (2 ^ k) s r := by
  rw [exec_eq_runCommand, runCommand_eq_refused] at h
  replace h : inttBody (beginCommand s) = .refused r := h
  rw [inttBody_of_some (s := beginCommand s) hk hn hq hy, andThen_eq_refused] at h
  refine NamesUnwritten.of_keepsWritten (keepsWritten_inttStart y s) ?_
  rcases h with hstages | ⟨u, hstages, hrest⟩
  · exact namesUnwritten_of_inttLoop hstages
  · rcases andThen_eq_refused.mp hrest with hscale | ⟨v, -, hfinish⟩
    · exact (namesUnwritten_of_scaleLoop hscale).of_keepsWritten (keepsWritten_inttLoop hstages)
    · cases hfinish

/-- Without an inverse of `n` INTT ends before it reads a word (45_inverse_ntt.md R163). -/
theorem exec_intt_of_none (hk : k ≤ 10) (hn : s.n.toNat = 2 ^ k) (hq : s.q.toNat ≠ 0)
    (hy : modInv (2 ^ k) s.q.toNat = none) : exec .intt s = .next (afterError 4 s) := by
  have hbody := inttBody_of_none (s := beginCommand s) hk hn hq hy
  simpa [errCodeNumber] using exec_of_raise (i := .intt) rfl hbody

end command

/-- Settles O45: the inverse of `n` is looked for first; then the stages read every twiddle and the scaling every word
of `A`, and no step of the loops changes which words are written. -/
theorem inttNeedsExactlyItsWords : Obligations.InttNeedsExactlyItsWords := by
  unfold Obligations.InttNeedsExactlyItsWords
  refine fun s k hk hn hq => ⟨fun hgcd => ?_, fun hgcd => ⟨?_, ?_⟩, fun r hr => ?_⟩
  · exact exec_intt_of_none hk hn hq (modInv_eq_none_iff.mpr hgcd)
  · rintro ⟨t, ht⟩
    obtain ⟨y, hy, -⟩ := exists_modInv (Nat.pos_of_ne_zero hq) hgcd
    exact written_of_exec_intt hk hn hq hy ht
  · rintro ⟨hA, hTI⟩
    obtain ⟨y, hy, -⟩ := exists_modInv (Nat.pos_of_ne_zero hq) hgcd
    obtain ⟨m, hexec, -⟩ := exec_intt hk hn hq hy hA hTI
    exact ⟨_, hexec⟩
  · cases hy : modInv (2 ^ k) s.q.toNat with
    | none => cases hr.symm.trans (exec_intt_of_none hk hn hq hy)
    | some y => exact namesUnwritten_of_exec_intt hk hn hq hy hr

end Sys2Proof.Machine
end

section
/-! The laws of the transforms (45_inverse_ntt.md R164, R165), in layers: the reversal of a split index; the stages of
INTT as sums of powers of the inverse root; INTT as interpolation; the points of a transform, whose powers are
orthogonal; the round trip and the convolution. -/

namespace Sys2Proof.Machine

/-! ### The stages of INTT modulo `q` -/

/-- Reversal of an index whose low `d` bits are `c`: the reversed `c` stands above the reversed rest. -/
theorem brv_add (d e : Nat) {c : Nat} (hc : c < 2 ^ d) (b : Nat) :
    brv (d + e) (b * 2 ^ d + c) = brv d c * 2 ^ e + brv e b := by
  induction d generalizing c with
  | zero =>
    obtain rfl : c = 0 := by simpa using hc
    simp [brv]
  | succ d ih =>
    have hsplit : b * 2 ^ (d + 1) = 2 * (b * 2 ^ d) := by ring
    have hparity : (b * 2 ^ (d + 1) + c) % 2 = c % 2 := by omega
    have hhalf : (b * 2 ^ (d + 1) + c) / 2 = b * 2 ^ d + c / 2 := by omega
    rw [Nat.add_right_comm, brv, hparity, hhalf, ih (by rw [pow_succ] at hc; omega), brv]
    ring

section stages
variable {q : Nat}

/-- The point of word `p` of a transform: the odd power of its root (44_forward_ntt.md R154). -/
def oddPoint (root : ZMod q) (k p : Nat) : ZMod q := root ^ (2 * brv k p + 1)

/-- The points of block `l = 2i + b` of `2^e` words, to the power `2^e`, are the twiddle of group `i`, up to a sign in
the odd block. -/
theorem oddPoint_pow_two_pow {root : ZMod q} {d e l i b c : Nat} (hroot : root ^ 2 ^ (e + 1 + d) = -1) (hi : i < 2 ^ d)
    (hl : l = 2 * i + b) (hb : b < 2) (hc : c < 2 ^ e) :
    oddPoint root (e + 1 + d) (l * 2 ^ e + c) ^ 2 ^ e = (-1) ^ b * root ^ brv (e + 1 + d) (2 ^ d + i) := by
  have hindex : brv (e + 1 + d) (l * 2 ^ e + c) = brv e c * 2 ^ (1 + d) + (b * 2 ^ d + brv d i) := by
    rw [Nat.add_assoc, brv_add e (1 + d) hc, Nat.add_comm 1 d, brv, show l % 2 = b by omega, show l / 2 = i by omega]
  have htwiddle : brv (e + 1 + d) (2 ^ d + i) = 2 ^ e * (2 * brv d i + 1) := by
    rw [show e + 1 + d = d + 1 + e by omega, brv_two_pow_add e d hi]
  have hexponent : (2 * (brv e c * 2 ^ (1 + d) + (b * 2 ^ d + brv d i)) + 1) * 2 ^ e =
      2 ^ (e + 1 + d) * (2 * brv e c + b) + 2 ^ e * (2 * brv d i + 1) := by ring
  rw [oddPoint, ← pow_mul, hindex, hexponent, pow_add root, pow_mul root, hroot, htwiddle, pow_add (-1 : ZMod q),
    pow_mul, neg_one_sq, one_pow, one_mul]

/-- Word `r` of block `b` of `2^e` words after the stages with spans below `2^e`. -/
def blockSum (a : Nat → Nat) (x : Nat → ZMod q) (e b r : Nat) : ZMod q :=
  ∑ c ∈ Finset.range (2 ^ e), a (b * 2 ^ e + c) * x (b * 2 ^ e + c) ^ r

/-- Two blocks in a row are one block of twice the length. -/
theorem blockSum_succ (a : Nat → Nat) (x : Nat → ZMod q) (e i r : Nat) :
    blockSum a x (e + 1) i r = blockSum a x e (2 * i) r + blockSum a x e (2 * i + 1) r := by
  have heven : i * 2 ^ (e + 1) = 2 * i * 2 ^ e := by ring
  have hodd : ∀ c, 2 * i * 2 ^ e + (2 ^ e + c) = (2 * i + 1) * 2 ^ e + c := fun c => by ring
  simp only [blockSum, pow_succ 2 e, mul_two (2 ^ e), Finset.sum_range_add]
  simp only [← mul_two (2 ^ e), ← pow_succ, heven, hodd]

/-- A block whose points have one power in common. -/
theorem blockSum_add (a : Nat → Nat) {x : Nat → ZMod q} {e b t : Nat} {z : ZMod q}
    (hx : ∀ c < 2 ^ e, x (b * 2 ^ e + c) ^ t = z) (r : Nat) :
    blockSum a x e b (r + t) = blockSum a x e b r * z := by
  rw [blockSum, blockSum, Finset.sum_mul]
  refine Finset.sum_congr rfl fun c hc => ?_
  rw [pow_add, hx c (Finset.mem_range.mp hc), mul_assoc]

/-- A stage of INTT takes the blocks `2i` and `2i + 1` of `2^e` words to block `i` of `2^(e+1)` words. -/
theorem natCast_inttStage_blocks {k e r : Nat} {tw : Nat → Nat} (w : Nat → Nat) (hq : 0 < q) (he : e < k) (i : Nat)
    (hr : r < 2 ^ e) :
    (inttStage (2 ^ k) q (2 ^ k / 2 ^ e) tw w (i * 2 ^ (e + 1) + r) : ZMod q) =
      w (2 * i * 2 ^ e + r) + w ((2 * i + 1) * 2 ^ e + r) ∧
    (inttStage (2 ^ k) q (2 ^ k / 2 ^ e) tw w (i * 2 ^ (e + 1) + (r + 2 ^ e)) : ZMod q) =
      (w (2 * i * 2 ^ e + r) - w ((2 * i + 1) * 2 ^ e + r)) * tw (2 ^ (k - (e + 1)) + i) := by
  have heven : i * 2 ^ (e + 1) = 2 * i * 2 ^ e := by ring
  have hodd : (2 * i + 1) * 2 ^ e + r = 2 * i * 2 ^ e + r + 2 ^ e := by ring
  rw [heven, hodd, ← Nat.add_assoc, inttStage_lower tw w he i hr, inttStage_upper tw w he i hr, ZMod.natCast_mod,
    natCast_toNat_emod _ hq]
  push_cast
  exact ⟨rfl, rfl⟩

/-- What the words hold after the stages with spans below `2^e`. -/
theorem natCast_inttWords {k e b r : Nat} {tw : Nat → Nat} (a : Nat → Nat) {root : ZMod q} (hq : 0 < q)
    (hroot : root ^ 2 ^ k = -1) (htw : ∀ i, 1 ≤ i → i < 2 ^ k → (tw i : ZMod q) = root ^ brv k i) (he : e ≤ k)
    (hb : b < 2 ^ (k - e)) (hr : r < 2 ^ e) :
    (inttWords (2 ^ k) q tw a e (b * 2 ^ e + r) : ZMod q) = blockSum a (oddPoint root k) e b r := by
  induction e generalizing b r with
  | zero =>
    obtain rfl : r = 0 := by simpa using hr
    simp [inttWords, blockSum]
  | succ e ih =>
    obtain ⟨d, rfl⟩ := Nat.exists_eq_add_of_le he
    have hd : e + 1 + d - (e + 1) = d := by omega
    rw [hd] at hb
    have hblocks : 2 ^ (e + 1 + d - e) = 2 * 2 ^ d := by rw [show e + 1 + d - e = d + 1 by omega, pow_succ']
    have heven {r : Nat} (hr : r < 2 ^ e) := ih (by omega) (b := 2 * b) (r := r) (by omega) hr
    have hodd {r : Nat} (hr : r < 2 ^ e) := ih (by omega) (b := 2 * b + 1) (r := r) (by omega) hr
    rw [inttWords, blockSum_succ]
    rcases Nat.lt_or_ge r (2 ^ e) with hlow | hhigh
    · obtain ⟨hstage, -⟩ := natCast_inttStage_blocks (tw := tw) (inttWords (2 ^ (e + 1 + d)) q tw a e) hq he b hlow
      rw [hstage, heven hlow, hodd hlow]
    · obtain ⟨r, rfl⟩ := Nat.exists_eq_add_of_le' hhigh
      have hlow : r < 2 ^ e := by rw [pow_succ] at hr; omega
      have htwiddle : 2 ^ d + b < 2 ^ (e + 1 + d) :=
        calc 2 ^ d + b < 2 ^ (1 + d) := by rw [pow_add]; omega
          _ ≤ 2 ^ (e + 1 + d) := Nat.pow_le_pow_right two_pos (by omega)
      obtain ⟨-, hstage⟩ := natCast_inttStage_blocks (tw := tw) (inttWords (2 ^ (e + 1 + d)) q tw a e) hq he b hlow
      have hlower := blockSum_add a (fun c => oddPoint_pow_two_pow hroot hb (add_zero (2 * b)).symm two_pos) r
      have hupper := blockSum_add a (fun c => oddPoint_pow_two_pow hroot hb rfl one_lt_two) r
      rw [hstage, heven hlow, hodd hlow, hd, htw _ (Nat.one_le_two_pow.trans (Nat.le_add_right ..)) htwiddle, hlower,
        hupper]
      ring

/-- The last stage leaves one block. -/
theorem natCast_inttWords_last {k r : Nat} {tw : Nat → Nat} (a : Nat → Nat) {root : ZMod q} (hq : 0 < q)
    (hroot : root ^ 2 ^ k = -1) (htw : ∀ i, 1 ≤ i → i < 2 ^ k → (tw i : ZMod q) = root ^ brv k i) (hr : r < 2 ^ k) :
    (inttWords (2 ^ k) q tw a k r : ZMod q) = ∑ p ∈ Finset.range (2 ^ k), a p * oddPoint root k p ^ r := by
  have hwords := natCast_inttWords (b := 0) a hq hroot htw le_rfl (Nat.two_pow_pos _) hr
  simpa [blockSum] using hwords

end stages

/-! ### INTT interpolates -/

theorem natCast_tableOf {m : Memory} {k root q : Nat} (h : tableOf m k root q) (hq : 0 < q) (hq' : q < 2 ^ 32) {p : Nat}
    (hone : 1 ≤ p) (hp : p < 2 ^ k) : (wordAt m p : ZMod q) = (root : ZMod q) ^ brv k p := by
  rw [h.wordAt_eq hq hq' hone hp, ZMod.natCast_mod, Nat.cast_pow]

section matched
variable {k q psi rho : Nat}

theorem natCast_mul_eq_one (h : psi * rho % q = 1) : (psi * rho : ZMod q) = 1 := by
  rw [← Nat.cast_mul, ← ZMod.natCast_mod, h, Nat.cast_one]

/-- The inverse of `ψ` is an `n`-th root of `-1` as well. -/
theorem Matched.inverse_pow_eq_neg_one {n : Nat} (h : Matched n q psi) (hinv : psi * rho % q = 1) :
    (rho : ZMod q) ^ n = -1 :=
  calc (rho : ZMod q) ^ n = -((psi : ZMod q) ^ n * rho ^ n) := by rw [h.pow_eq_neg_one]; ring
    _ = -1 := by rw [← mul_pow, natCast_mul_eq_one hinv, one_pow]

/-- `n` has an inverse modulo `q`, because `q` is 1 modulo `2n` (00_scope.md R7). -/
theorem Matched.gcd_eq_one {n : Nat} (h : Matched n q psi) : Nat.gcd (n % q) q = 1 := by
  obtain ⟨-, -, hmod, -, -⟩ := h
  rw [← Nat.gcd_rec, Nat.gcd_comm]
  have htwo : Nat.gcd (2 * n) q = 1 := by rw [Nat.gcd_rec, hmod, Nat.gcd_one_left]
  exact Nat.Coprime.coprime_mul_left htwo

theorem Matched.prime {n : Nat} (h : Matched n q psi) : q.Prime := by
  obtain ⟨-, hprime, -⟩ := h
  exact hprime

/-- INTT for matched parameters: word `j` is the inverse of `n` times the sum of R164. -/
theorem exec_intt_of_matched {s : State} (hn : s.n.toNat = 2 ^ k) (hmatched : Matched (2 ^ k) s.q.toNat psi)
    (hinv : psi * rho % s.q.toNat = 1) (htable : tableOf s.ti k rho s.q.toNat) (hA : written s.a 0 (2 ^ k)) :
    ∃ y m, 2 ^ k * y % s.q.toNat = 1 ∧ exec .intt s = .next (afterOk { s with nInv := toWord y, a := m }) ∧
      HoldsWords s.a m (2 ^ k) fun j =>
        y * (∑ p ∈ Finset.range (2 ^ k), wordAt s.a p * rho ^ ((2 * brv k p + 1) * j)) % s.q.toNat := by
  have hq := hmatched.pos
  obtain ⟨y, hy, -, hyinv⟩ := exists_modInv hq hmatched.gcd_eq_one
  obtain ⟨m, hexec, hm⟩ := exec_intt hmatched.exponent_le hn hq.ne' hy hA htable.written
  rw [Nat.mod_mul_mod, Nat.mod_eq_of_lt hmatched.prime.one_lt] at hyinv
  refine ⟨y, m, hyinv, hexec, fun j hj => (hm.word j hj).trans ?_, hm.kept⟩
  have hwords := natCast_inttWords_last (wordAt s.a) hq (hmatched.inverse_pow_eq_neg_one hinv)
    (fun _ => natCast_tableOf htable hq s.q.isLt) hj
  congr 2
  rw [← ZMod.natCast_eq_natCast_iff', Nat.cast_mul, hwords, mul_comm]
  simp [oddPoint, pow_mul]

end matched

theorem wordAt_of_residue {old m : Memory} {n q : Nat} {value : Nat → Nat}
    (h : HoldsWords old m n fun j => value j % q) (hq : 0 < q) (hq' : q < 2 ^ 32) {j : Nat} (hj : j < n) :
    wordAt m j = value j % q := h.wordAt hj ((Nat.mod_lt _ hq).trans hq')

/-- Settles O46: the stages gather the words with the powers of the inverse root. -/
theorem inttInterpolatesInNaturalOrder : Obligations.InttInterpolatesInNaturalOrder := by
  unfold Obligations.InttInterpolatesInNaturalOrder
  intro s k hn hmatched hinv htable hA
  obtain ⟨y, m, hy, hexec, hm⟩ := exec_intt_of_matched hn hmatched hinv htable hA
  exact ⟨_, y, hexec, hy, fun j hj => wordAt_of_residue hm hmatched.pos s.q.isLt hj⟩

/-! ### The points of a transform -/

/-- The value at `z` of the polynomial with the coefficients `c 0, ..., c (n-1)`. -/
def polyValue {q : Nat} (c : Nat → Nat) (n : Nat) (z : ZMod q) : ZMod q := ∑ i ∈ Finset.range n, c i * z ^ i

/-- The reversal permutes the indices of a sum. -/
theorem sum_range_brv {M : Type} [AddCommMonoid M] (k : Nat) (f : Nat → M) :
    ∑ p ∈ Finset.range (2 ^ k), f (brv k p) = ∑ p ∈ Finset.range (2 ^ k), f p :=
  Finset.sum_nbij' (brv k) (brv k) (fun p _ => Finset.mem_range.mpr (brv_lt k p))
    (fun p _ => Finset.mem_range.mpr (brv_lt k p)) (fun _ hp => brv_brv (Finset.mem_range.mp hp))
    (fun _ hp => brv_brv (Finset.mem_range.mp hp)) fun _ _ => rfl

section points
variable {k q : Nat} [Fact q.Prime] {psi rho : ZMod q}

/-- The odd powers of an `n`-th root of unity sum to 0, unless its square is 1. -/
theorem sum_odd_pow_eq_zero {z : ZMod q} {n : Nat} (hn : (z ^ 2) ^ n = 1) (hz : z ^ 2 ≠ 1) :
    ∑ p ∈ Finset.range n, z ^ (2 * p + 1) = 0 := by
  have hgeom : ∑ p ∈ Finset.range n, (z ^ 2) ^ p = 0 := by
    have hprod := geom_sum_mul (z ^ 2) n
    rw [hn, sub_self] at hprod
    exact (mul_eq_zero.mp hprod).resolve_right (sub_ne_zero.mpr hz)
  simp_rw [pow_succ z, pow_mul z, ← Finset.sum_mul, hgeom, zero_mul]

theorem orderOf_root (hq : 2 < q) (hpsi : psi ^ 2 ^ k = -1) : orderOf psi = 2 ^ (k + 1) := by
  have : Fact (2 < q) := ⟨hq⟩
  exact orderOf_eq_prime_pow (hpsi ▸ ZMod.neg_one_ne_one) (by rw [pow_succ, pow_mul, hpsi, neg_one_sq])

/-- The powers of the points are orthogonal. -/
theorem sum_oddPoint_pow (hq : 2 < q) (hpsi : psi ^ 2 ^ k = -1) (hrho : rho ^ 2 ^ k = -1) (hinv : psi * rho = 1)
    {i j : Nat} (hi : i < 2 ^ k) (hj : j < 2 ^ k) :
    ∑ p ∈ Finset.range (2 ^ k), oddPoint psi k p ^ i * oddPoint rho k p ^ j = if i = j then 2 ^ k else 0 := by
  have hterm : ∀ p, oddPoint psi k p ^ i * oddPoint rho k p ^ j = (psi ^ i * rho ^ j) ^ (2 * brv k p + 1) := fun p => by
    rw [oddPoint, oddPoint, mul_pow, ← pow_mul, ← pow_mul, ← pow_mul, ← pow_mul, mul_comm i, mul_comm j]
  simp only [hterm]
  rw [sum_range_brv k fun p => (psi ^ i * rho ^ j) ^ (2 * p + 1)]
  split_ifs with hij
  · simp [hij, ← mul_pow, hinv]
  · refine sum_odd_pow_eq_zero ?_ fun hone => hij ?_
    · calc ((psi ^ i * rho ^ j) ^ 2) ^ 2 ^ k = ((psi ^ 2 ^ k) ^ 2) ^ i * ((rho ^ 2 ^ k) ^ 2) ^ j := by ring
        _ = 1 := by rw [hpsi, hrho, neg_one_sq, one_pow, one_pow, one_mul]
    · have hsquare : psi ^ (2 * i) = psi ^ (2 * j) :=
        calc psi ^ (2 * i) = psi ^ (2 * i) * (psi * rho) ^ (2 * j) := by rw [hinv, one_pow, mul_one]
          _ = (psi ^ i * rho ^ j) ^ 2 * psi ^ (2 * j) := by ring
          _ = psi ^ (2 * j) := by rw [hone, one_mul]
      have hlt {x : Nat} (hx : x < 2 ^ k) : 2 * x < orderOf psi := by
        rw [orderOf_root hq hpsi, pow_succ']
        omega
      have hdouble := pow_injOn_Iio_orderOf (hlt hi) (hlt hj) hsquare
      omega

/-- The sum of R164 over the values of a polynomial is `n` times its coefficient. -/
theorem sum_polyValue_oddPoint (hq : 2 < q) (hpsi : psi ^ 2 ^ k = -1) (hrho : rho ^ 2 ^ k = -1) (hinv : psi * rho = 1)
    (c : Nat → Nat) {j : Nat} (hj : j < 2 ^ k) :
    ∑ p ∈ Finset.range (2 ^ k), polyValue c (2 ^ k) (oddPoint psi k p) * oddPoint rho k p ^ j = 2 ^ k * c j := by
  calc ∑ p ∈ Finset.range (2 ^ k), polyValue c (2 ^ k) (oddPoint psi k p) * oddPoint rho k p ^ j
      = ∑ i ∈ Finset.range (2 ^ k), (c i : ZMod q) *
          ∑ p ∈ Finset.range (2 ^ k), oddPoint psi k p ^ i * oddPoint rho k p ^ j := by
        simp only [polyValue, Finset.sum_mul, Finset.mul_sum, mul_assoc]
        exact Finset.sum_comm
    _ = ∑ i ∈ Finset.range (2 ^ k), (c i : ZMod q) * if i = j then 2 ^ k else 0 :=
        Finset.sum_congr rfl fun i hi => by rw [sum_oddPoint_pow hq hpsi hrho hinv (Finset.mem_range.mp hi) hj]
    _ = 2 ^ k * c j := by simp [hj, mul_comm]

end points

/-! ### The laws of the pair -/

theorem Matched.two_lt {n q psi : Nat} (h : Matched n q psi) : 2 < q := by
  have htwo := h.prime.two_le
  obtain ⟨-, -, hmod, -⟩ := h
  have hodd : q % 2 = 1 := by rw [← Nat.mod_mul_right_mod q 2 n, hmod]
  omega

/-- The words after FNTT are the values of the input polynomial at the points (44_forward_ntt.md R154). -/
theorem natCast_wordAt_of_exec_fntt {s t : State} {k psi p : Nat} (hn : s.n.toNat = 2 ^ k)
    (hmatched : Matched (2 ^ k) s.q.toNat psi) (htable : tableOf s.tf k psi s.q.toNat) (h : exec .fntt s = .next t)
    (hp : p < 2 ^ k) :
    (wordAt t.a p : ZMod s.q.toNat) = polyValue (wordAt s.a) (2 ^ k) (oddPoint (psi : ZMod s.q.toNat) k p) := by
  have hconf : configured s := ⟨hmatched.pos.ne', (nValid_iff _).mpr ⟨k, hmatched.exponent_le, hn⟩⟩
  have heval := natCast_fnttWords (d := 0) (wordAt s.a) hmatched.pos hmatched.pow_eq_neg_one
    (fun _ => natCast_tableOf htable hmatched.pos s.q.isLt) (add_zero k).symm hp Nat.one_pos
  rw [wordAt_of_exec_fntt hn hconf h hp]
  simpa [strideSum, blockExponent, polyValue, oddPoint] using heval

/-- INTT on the values of a polynomial at the points leaves its coefficients modulo `q`. -/
theorem exec_intt_of_values {s : State} {k psi rho : Nat} (c : Nat → Nat) (hn : s.n.toNat = 2 ^ k)
    (hmatched : Matched (2 ^ k) s.q.toNat psi) (hinv : psi * rho % s.q.toNat = 1)
    (htable : tableOf s.ti k rho s.q.toNat) (hA : written s.a 0 (2 ^ k))
    (hvalues : ∀ p, p < 2 ^ k →
      (wordAt s.a p : ZMod s.q.toNat) = polyValue c (2 ^ k) (oddPoint (psi : ZMod s.q.toNat) k p)) :
    ∃ y m, exec .intt s = .next (afterOk { s with nInv := toWord y, a := m }) ∧
      HoldsWords s.a m (2 ^ k) fun j => c j % s.q.toNat := by
  obtain ⟨y, m, hy, hexec, hm⟩ := exec_intt_of_matched hn hmatched hinv htable hA
  refine ⟨y, m, hexec, fun j hj => (hm.word j hj).trans ?_, hm.kept⟩
  have : Fact s.q.toNat.Prime := ⟨hmatched.prime⟩
  have hsum : ∑ p ∈ Finset.range (2 ^ k), (wordAt s.a p : ZMod s.q.toNat) * oddPoint (rho : ZMod s.q.toNat) k p ^ j =
      2 ^ k * c j := by
    rw [← sum_polyValue_oddPoint hmatched.two_lt hmatched.pow_eq_neg_one (hmatched.inverse_pow_eq_neg_one hinv)
      (natCast_mul_eq_one hinv) c hj]
    exact Finset.sum_congr rfl fun p hp => by rw [hvalues p (Finset.mem_range.mp hp)]
  have hunit : ((2 : ZMod s.q.toNat) ^ k) * y = 1 := by exact_mod_cast natCast_mul_eq_one hy
  congr 2
  rw [← ZMod.natCast_eq_natCast_iff']
  push_cast
  simp only [oddPoint, ← pow_mul] at hsum
  rw [hsum]
  linear_combination (c j : ZMod s.q.toNat) * hunit

/-- Settles O47: FNTT leaves the values of the input polynomial, of which INTT finds the coefficients. -/
theorem forwardThenInverseRestoresTheInput : Obligations.ForwardThenInverseRestoresTheInput := by
  unfold Obligations.ForwardThenInverseRestoresTheInput
  intro s k hn hmatched hinv hTF hTI hA
  obtain ⟨m, hforward, hm⟩ := exec_fntt hmatched.exponent_le hn hmatched.pos.ne' hA hTF.written
  obtain ⟨y, m', hinverse, hm'⟩ := exec_intt_of_values (s := afterOk { s with a := m }) (wordAt s.a) hn hmatched hinv hTI
    hm.written fun p hp => natCast_wordAt_of_exec_fntt hn hmatched hTF hforward hp
  exact ⟨_, _, hforward, hinverse, rfl, hm'.word⟩

section convolution
variable {n q : Nat} {z : ZMod q}

/-- A term of the negative-wrapped convolution stands at one power of `z`, with the sign of `z ^ n` where it wraps. -/
theorem sum_wrapped_term (hz : z ^ n = -1) (x : ZMod q) {i j : Nat} (hi : i < n) (hj : j < n) :
    ∑ l ∈ Finset.range n, (if i + j = l then x else if i + j = l + n then -x else 0) * z ^ l = x * z ^ (i + j) := by
  by_cases hlow : i + j < n
  · rw [Finset.sum_eq_single_of_mem (i + j) (Finset.mem_range.mpr hlow), if_pos rfl]
    intro l _ hl
    rw [if_neg hl.symm, if_neg (by omega), zero_mul]
  · obtain ⟨l, hl⟩ := Nat.exists_eq_add_of_le' (not_lt.mp hlow)
    rw [hl, Finset.sum_eq_single_of_mem l (Finset.mem_range.mpr (by omega)), if_neg (by omega), if_pos rfl, pow_add, hz]
    · ring
    · intro l' hl' hne
      have hlt := Finset.mem_range.mp hl'
      rw [if_neg (by omega), if_neg (by omega), zero_mul]

/-- At a root of `z ^ n = -1` the negative-wrapped convolution is the product (45_inverse_ntt.md R165). -/
theorem polyValue_negacyclic (hq : 0 < q) (hz : z ^ n = -1) (a b : Nat → Nat) :
    polyValue (negacyclic n q a b) n z = polyValue a n z * polyValue b n z := by
  have hcoefficient : ∀ l, (negacyclic n q a b l : ZMod q) = ∑ i ∈ Finset.range n, ∑ j ∈ Finset.range n,
      if i + j = l then (a i * b j : ZMod q) else if i + j = l + n then -(a i * b j) else 0 := fun l => by
    rw [negacyclic, natCast_toNat_emod _ hq]
    push_cast
    rfl
  calc polyValue (negacyclic n q a b) n z
      = ∑ i ∈ Finset.range n, ∑ j ∈ Finset.range n, ∑ l ∈ Finset.range n,
          (if i + j = l then (a i * b j : ZMod q) else if i + j = l + n then -(a i * b j) else 0) * z ^ l := by
        simp only [polyValue, hcoefficient, Finset.sum_mul]
        rw [Finset.sum_comm]
        exact Finset.sum_congr rfl fun i _ => Finset.sum_comm
    _ = ∑ i ∈ Finset.range n, ∑ j ∈ Finset.range n, (a i * b j : ZMod q) * z ^ (i + j) :=
        Finset.sum_congr rfl fun i hi => Finset.sum_congr rfl fun j hj =>
          sum_wrapped_term hz _ (Finset.mem_range.mp hi) (Finset.mem_range.mp hj)
    _ = polyValue a n z * polyValue b n z := by
        rw [polyValue, polyValue, Finset.sum_mul_sum]
        refine Finset.sum_congr rfl fun i _ => Finset.sum_congr rfl fun j _ => ?_
        rw [pow_add]
        ring

end convolution

/-- Each point of a transform is a root of `z ^ n = -1`. -/
theorem oddPoint_pow_eq_neg_one {q k : Nat} {root : ZMod q} (hroot : root ^ 2 ^ k = -1) (p : Nat) :
    oddPoint root k p ^ 2 ^ k = -1 := by
  rw [oddPoint, ← pow_mul, mul_comm, pow_mul, hroot, Odd.neg_one_pow (odd_two_mul_add_one _)]

/-- Settles O48: the product of the values at a point is the value of the negative-wrapped convolution, of which INTT
finds the coefficients. -/
theorem pointwiseProductIsNegacyclicConvolution : Obligations.PointwiseProductIsNegacyclicConvolution := by
  unfold Obligations.PointwiseProductIsNegacyclicConvolution
  intro sa sb sc ta tb k hn hmatched hinv hnb hqb hnc hqc hTFa hTFb hTI _ _ ha hb hproduct
  have hq := hmatched.pos
  have hA : written sc.a 0 (2 ^ k) := fun p hp _ => Option.isSome_of_eq_some (hproduct p hp)
  have hvalues : ∀ p, p < 2 ^ k → (wordAt sc.a p : ZMod sa.q.toNat) =
      polyValue (negacyclic (2 ^ k) sa.q.toNat (wordAt sa.a) (wordAt sb.a)) (2 ^ k)
        (oddPoint (sa.psi.toNat : ZMod sa.q.toNat) k p) := by
    intro p hp
    have hvalue_a := natCast_wordAt_of_exec_fntt hn hmatched hTFa ha hp
    have hvalue_b := natCast_wordAt_of_exec_fntt (s := sb) (hnb ▸ hn) (hqb ▸ hmatched) (hqb ▸ hTFb) hb hp
    rw [hqb] at hvalue_b
    have hlt : mulMod (wordAt ta.a p) (wordAt tb.a p) sa.q.toNat < 2 ^ 32 := (Nat.mod_lt _ hq).trans sa.q.isLt
    rw [wordAt_eq (hproduct p hp), toNat_toWord hlt, natCast_mulMod, hvalue_a, hvalue_b,
      polyValue_negacyclic hq (oddPoint_pow_eq_neg_one hmatched.pow_eq_neg_one p)]
  rw [← hqc] at hmatched hinv hTI hvalues hq ⊢
  obtain ⟨y, m, hexec, hm⟩ := exec_intt_of_values _ (hnc ▸ hn) hmatched hinv hTI hA hvalues
  refine ⟨_, hexec, fun j hj => (wordAt_of_residue hm hq sc.q.isLt hj).trans ?_⟩
  exact Nat.mod_eq_of_lt (toNat_emod_lt _ hq)

end Sys2Proof.Machine
end

section
/-! Bit reversal and BITREV (46_bit_reverse.md R170 to R173), in layers: the bits of a reversed index; a memory whose
words stand at the reversed indices; the snapshot; what BITREV answers. -/

namespace Sys2Proof.Machine

/-! ### The bits of a reversed index -/

/-- The sum R170 writes: the lowest bit of the index becomes the highest. -/
theorem brv_eq_sum (k i : Nat) : brv k i = ∑ b ∈ Finset.range k, (i.testBit b).toNat * 2 ^ (k - 1 - b) := by
  induction k generalizing i with
  | zero => rfl
  | succ k ih =>
    have hlowest : (i.testBit 0).toNat = i % 2 := by rw [Nat.toNat_testBit, pow_zero, Nat.div_one]
    have hrest : ∀ b, (i.testBit (b + 1)).toNat * 2 ^ (k + 1 - 1 - (b + 1)) =
        ((i / 2).testBit b).toNat * 2 ^ (k - 1 - b) := fun b => by
      rw [Nat.testBit_succ, show k + 1 - 1 - (b + 1) = k - 1 - b by omega]
    rw [brv, Finset.sum_range_succ', Finset.sum_congr rfl fun b _ => hrest b, ← ih, hlowest, add_comm]
    rfl

/-- Settles O49: the bits of a reversed index are those of its sum. -/
theorem brvReversesTheBits : Obligations.BrvReversesTheBits := by
  unfold Obligations.BrvReversesTheBits
  refine ⟨fun k i _ => ⟨brv_lt k i, fun b hb => ?_, brv_eq_sum k i⟩, by decide⟩
  rw [testBit_brv, decide_eq_true hb, Bool.true_and]

/-- The fixed points: the indices whose bits read the same backwards (R173). -/
theorem brv_eq_self_iff {k i : Nat} (hi : i < 2 ^ k) :
    brv k i = i ↔ ∀ b, b < k → i.testBit b = i.testBit (k - 1 - b) := by
  constructor
  · intro hfixed b hb
    have hbit := testBit_brv k i b
    rwa [hfixed, decide_eq_true hb, Bool.true_and] at hbit
  · intro hbits
    refine Nat.eq_of_testBit_eq fun b => ?_
    rw [testBit_brv]
    by_cases hb : b < k
    · rw [decide_eq_true hb, Bool.true_and, hbits b hb]
    · rw [decide_eq_false hb, Bool.false_and,
        Nat.testBit_lt_two_pow (hi.trans_le (Nat.pow_le_pow_right two_pos (not_lt.mp hb)))]

theorem brv_two_pow_sub_one (k : Nat) : brv k (2 ^ k - 1) = 2 ^ k - 1 := by
  refine (brv_eq_self_iff (Nat.sub_one_lt (Nat.two_pow_pos k).ne')).mpr fun b hb => ?_
  rw [Nat.testBit_two_pow_sub_one, Nat.testBit_two_pow_sub_one, decide_eq_true hb, decide_eq_true (by omega)]

theorem map_brv_range_perm (k : Nat) : ((List.range (2 ^ k)).map (brv k)).Perm (List.range (2 ^ k)) := by
  have hnodup : ((List.range (2 ^ k)).map (brv k)).Nodup :=
    List.nodup_range.map_on fun i hi j hj h => brv_injOn k (List.mem_range.mp hi) (List.mem_range.mp hj) h
  refine (List.perm_ext_iff_of_nodup hnodup List.nodup_range).mpr fun p => ?_
  simp only [List.mem_map, List.mem_range]
  exact ⟨fun ⟨i, _, hp⟩ => hp ▸ brv_lt k i, fun hp => ⟨brv k p, brv_lt k p, brv_brv hp⟩⟩

/-! ### A memory whose words stand at the reversed indices -/

/-- `m` is `old` with word `i < 2^k` moved to index `brv_k(i)` (R171, R172). -/
structure ReversesWords (old m : Memory) (k : Nat) : Prop where
  placed : ∀ i, i < 2 ^ k → memRead m (brv k i) = memRead old i
  kept : ∀ i, 2 ^ k ≤ i → memRead m i = memRead old i

section reverses
variable {old m m' : Memory} {k : Nat}

theorem ReversesWords.memRead_eq (h : ReversesWords old m k) {i : Nat} (hi : i < 2 ^ k) :
    memRead m i = memRead old (brv k i) := by
  rw [← h.placed (brv k i) (brv_lt k i), brv_brv hi]

theorem ReversesWords.written (h : ReversesWords old m k) (hold : written old 0 (2 ^ k)) : written m 0 (2 ^ k) :=
  fun i hi _ => by rw [h.memRead_eq hi]; exact hold (brv k i) (brv_lt k i) (Nat.zero_le _)

/-- A second reversal restores every word (R173). -/
theorem ReversesWords.restores (h : ReversesWords old m k) (h' : ReversesWords m m' k) (i : Nat) :
    memRead m' i = memRead old i := by
  rcases lt_or_ge i (2 ^ k) with hi | hi
  · rw [h'.memRead_eq hi, h.placed i hi]
  · rw [h'.kept i hi, h.kept i hi]

theorem ReversesWords.perm (h : ReversesWords old m k) :
    ((List.range (2 ^ k)).map (memRead m)).Perm ((List.range (2 ^ k)).map (memRead old)) := by
  have hwords : ((List.range (2 ^ k)).map (brv k)).map (memRead m) = (List.range (2 ^ k)).map (memRead old) := by
    rw [List.map_map]
    exact List.map_congr_left fun i hi => h.placed i (List.mem_range.mp hi)
  exact hwords ▸ ((map_brv_range_perm k).map (memRead m)).symm

end reverses

/-! ### The snapshot -/

/-- A read of consecutive words is refused for one that nothing has written (70_reset_and_hazards.md R225). -/
theorem unwritten_of_readWords {sp : Space} {s : State} {count i : Nat} {r : Refusal}
    (h : readWords sp s count i = .refused r) :
    ∃ j, j < i + count ∧ memRead (spaceMem sp s) j = none ∧ r = .unwrittenWord sp j := by
  induction count generalizing i with
  | zero => cases h
  | succ count ih =>
    rcases andThen_eq_refused.mp h with hfirst | ⟨v, -, hrest⟩
    · obtain ⟨-, hnone, hr⟩ := readWord_eq_refused.mp hfirst
      exact ⟨i, by omega, hnone, hr⟩
    · rcases andThen_eq_refused.mp hrest with hlater | ⟨vs, -, hnext⟩
      · obtain ⟨j, hj, hnone, hr⟩ := ih hlater
        exact ⟨j, by omega, hnone, hr⟩
      · cases hnext

/-- The snapshot of the first `n` words: all of them, or a refusal for one that nothing has written. -/
theorem snapshot_cases (sp : Space) (s : State) {n : Nat} (hn : n ≤ Config.nMax) :
    (∃ old, readWords sp s n 0 = .next old ∧ old.length = n ∧
      ∀ i (hi : i < old.length), memRead (spaceMem sp s) i = some old[i]) ∨
    (∃ i, i < n ∧ memRead (spaceMem sp s) i = none ∧ readWords sp s n 0 = .refused (.unwrittenWord sp i)) := by
  cases hread : readWords sp s n 0 with
  | next old =>
    obtain ⟨hlength, hwords⟩ := readWords_eq_next.mp hread
    refine .inl ⟨old, rfl, hlength, fun i hi => ?_⟩
    obtain ⟨-, hword⟩ := readWord_eq_next.mp (hwords i hi)
    rwa [Nat.zero_add] at hword
  | fault e => exact absurd hread (neverFaults_readWords (by omega) sp s e)
  | refused r =>
    obtain ⟨i, hi, hnone, rfl⟩ := unwritten_of_readWords hread
    exact .inr ⟨i, by omega, hnone, rfl⟩

/-! ### What BITREV answers -/

section bitrev
variable {s t : State} {k : Nat}

theorem bitrevBody_of_two_pow (hk : k ≤ 10) (hn : s.n.toNat = 2 ^ k) :
    bitrevBody s = andThen (readWords .a s (2 ^ k) 0) fun old => andThen (forEach (placeOld k) old.zipIdx s) finish := by
  have hvalid : nValid s.n.toNat = true := (nValid_iff _).mpr ⟨k, hk, hn⟩
  rw [bitrevBody, withN, if_pos hvalid, hn, log2_two_pow]

/-- With a valid `N` BITREV needs its words and moves them to the reversed indices, or is refused for an unwritten one. -/
theorem exec_bitrev_cases (hk : k ≤ 10) (hn : s.n.toNat = 2 ^ k) :
    (written s.a 0 (2 ^ k) ∧
      ∃ m, exec .bitrev s = .next (afterOk { s with a := m }) ∧ ReversesWords s.a m k) ∨
    (∃ i, i < 2 ^ k ∧ memRead s.a i = none ∧ exec .bitrev s = .refused (.unwrittenWord .a i)) := by
  have hbody := bitrevBody_of_two_pow (s := beginCommand s) hk hn
  rcases snapshot_cases .a (beginCommand s) (Nat.pow_le_pow_right two_pos hk) with
    ⟨old, hread, hlength, hwords⟩ | ⟨i, hi, hnone, hread⟩ <;> rw [hread] at hbody
  · obtain ⟨m, hloop, hplaced, hkept⟩ := forEach_writeWord_brv .a id hk hlength (beginCommand s)
    replace hbody : bitrevBody (beginCommand s) = finish (setSpaceMem .a m (beginCommand s)) :=
      hbody.trans (congrArg (andThen · finish) hloop)
    have hexec := exec_of_finish (i := .bitrev) hbody
    refine .inl ⟨fun i hi _ => ?_, m, hexec, fun i hi => ?_, hkept⟩
    · exact Option.isSome_of_eq_some (hwords i (hlength.symm ▸ hi))
    · exact (hplaced i (hlength.symm ▸ hi)).trans (hwords i (hlength.symm ▸ hi)).symm
  · have hexec : exec .bitrev s = .refused (.unwrittenWord .a i) := by
      rw [exec_eq_runCommand, runCommand_eq_refused]
      exact hbody
    exact .inr ⟨i, hi, hnone, hexec⟩

theorem exec_bitrev (hk : k ≤ 10) (hn : s.n.toNat = 2 ^ k) (hA : written s.a 0 (2 ^ k)) :
    ∃ m, exec .bitrev s = .next (afterOk { s with a := m }) ∧ ReversesWords s.a m k := by
  rcases exec_bitrev_cases hk hn with ⟨-, hmoved⟩ | ⟨i, hi, hnone, -⟩
  · exact hmoved
  · have hword := hA i hi (Nat.zero_le i)
    rw [hnone] at hword
    cases hword

theorem exec_bitrev_of_not_written (hk : k ≤ 10) (hn : s.n.toNat = 2 ^ k) (hA : ¬ written s.a 0 (2 ^ k)) :
    ∃ i, i < 2 ^ k ∧ memRead s.a i = none ∧ exec .bitrev s = .refused (.unwrittenWord .a i) :=
  (exec_bitrev_cases hk hn).resolve_left fun ⟨hwritten, _⟩ => hA hwritten

/-- A failed check of `N` ends BITREV (60_exceptions.md R193). -/
theorem exec_bitrev_of_not_nValid (h : nValid s.n.toNat = false) : exec .bitrev s = .next (afterError 3 s) := by
  have hbody : bitrevBody (beginCommand s) = raise .config (beginCommand s) := if_neg (ne_true_of_eq_false h)
  simpa [errCodeNumber] using exec_of_raise (i := .bitrev) rfl hbody

/-- A completed BITREV had its words and moved them. -/
theorem reversesWords_of_exec_bitrev (hk : k ≤ 10) (hn : s.n.toNat = 2 ^ k) (h : exec .bitrev s = .next t) :
    written s.a 0 (2 ^ k) ∧ ∃ m, t = afterOk { s with a := m } ∧ ReversesWords s.a m k := by
  rcases exec_bitrev_cases hk hn with ⟨hA, m, hexec, hm⟩ | ⟨i, -, -, hexec⟩
  · exact ⟨hA, m, Host.Outcome.next.inj (h.symm.trans hexec), hm⟩
  · cases h.symm.trans hexec

end bitrev

/-- Settles O50: the snapshot is complete, and its words go to the reversed indices, which are distinct, or it is
refused. -/
theorem bitrevPermutesTheWords : Obligations.BitrevPermutesTheWords := by
  unfold Obligations.BitrevPermutesTheWords
  refine ⟨decode_encode .bitrev, fun s k hk hn hA => ?_, fun s => exec_bitrev_of_not_nValid,
    fun s k => exec_bitrev_of_not_written⟩
  obtain ⟨m, hexec, hm⟩ := exec_bitrev hk hn hA
  exact ⟨m, hexec, hm.placed, hm.kept⟩

/-- Settles O51: reversing the bits twice changes nothing, so the words move back at the second BITREV, which finds them
all written. -/
theorem bitrevIsSelfInverse : Obligations.BitrevIsSelfInverse := by
  unfold Obligations.BitrevIsSelfInverse
  refine ⟨fun k i hi => ⟨brv_brv hi, brv_eq_self_iff hi⟩, fun k => ⟨brv_zero k, brv_two_pow_sub_one k⟩,
    fun s t hvalid h => ?_⟩
  obtain ⟨k, hk, hn⟩ := (nValid_iff _).mp hvalid
  obtain ⟨hA, m, rfl, hm⟩ := reversesWords_of_exec_bitrev hk hn h
  obtain ⟨m', hagain, hm'⟩ := exec_bitrev (s := afterOk { s with a := m }) hk hn (hm.written hA)
  exact ⟨hn ▸ hm.perm, _, hagain, hm.restores hm'⟩

end Sys2Proof.Machine
end

section
/-! The events that reach the block (47_system.md R180, R181, 60_exceptions.md R191, 70_reset_and_hazards.md R220, R230), in
layers: a write to `CMD`; a reset; what the host can do while a command waits. -/

namespace Sys2Proof.Machine

/-! ### A write to CMD -/

/-- The step that takes a write to `CMD` executes the word (47_system.md R181). -/
theorem step_writeCmd {s : State} {v : Word} {rest : List Event} (hidle : s.seq = .idle)
    (henv : s.env = .host (.wr (regAddr .cmd) v) :: rest) : step s = writeCmd v { s with env := rest } :=
  (step_host_next hidle henv).trans (hostWrite_regAddr .cmd v _)

theorem writeCmd_legal {v : Word} {i : Instr} (h : decode v = .legal i) (s : State) :
    writeCmd v s = exec i { s with cmd := v } := by
  rw [writeCmd, h]

/-- An illegal word is stored and ends with code 5 (60_exceptions.md R191). -/
theorem writeCmd_illegal {v : Word} {why : Illegal} (h : decode v = .illegal why) (s : State) :
    writeCmd v s = .next (afterError 5 { s with cmd := v }) := by
  rw [writeCmd, h]
  exact congrArg _ (completeCommand_error (c := .illegalCmd) rfl (beginCommand { s with cmd := v }))

/-- Settles O6: an idle block takes the write, and a legal word is executed as what it decodes to. -/
theorem stepRunsTheDecodedCommand : Obligations.StepRunsTheDecodedCommand := by
  unfold Obligations.StepRunsTheDecodedCommand
  intro s v i rest hidle henv hdecode
  exact (step_writeCmd hidle henv).trans (writeCmd_legal hdecode _)

/-- Settles O7: an idle block takes the write, and an illegal word runs only the frame, with its error. -/
theorem illegalWordEndsWithIllegalCmd : Obligations.IllegalWordEndsWithIllegalCmd := by
  unfold Obligations.IllegalWordEndsWithIllegalCmd
  intro s v why rest hidle henv hdecode
  exact (step_writeCmd hidle henv).trans (writeCmd_illegal hdecode _)

/-- NOP's pseudocode is empty, so the flags of its completion are all it leaves (47_system.md R180). -/
theorem exec_nop (s : State) : exec .nop s = .next (afterOk s) :=
  exec_of_finish (i := .nop) (t := beginCommand s) rfl

/-- Settles O26: the word 0 is NOP's, NOP ends with OK, and nothing has completed at reset. -/
theorem nopRunsOnlyTheFrame : Obligations.NopRunsOnlyTheFrame :=
  ⟨decode_encode .nop, exec_nop, rfl⟩

/-! ### Reset -/

/-- A reset that is due is what the step does, whether or not a command is in progress (70_reset_and_hazards.md R220). -/
theorem step_reset {s : State} {rest : List Event} (henv : s.env = .reset :: rest) :
    step s = .next (resetBlock { s with env := rest }) := by
  by_cases hidle : s.seq = .idle
  · exact step_idle_cons hidle henv
  · exact (step_busy hidle).trans (busyStep_reset henv)

/-- Settles O2: both kinds of step take the reset. -/
theorem resetEventGivesTheResetState : Obligations.ResetEventGivesTheResetState := by
  unfold Obligations.ResetEventGivesTheResetState
  exact fun _ _ => step_reset

/-! ### The host while a command waits -/

theorem hostRead_status (s : State) : hostRead (regAddr .status) s =
    .next { s with returned := s.returned ++ [(regAddr .status, statusWord s.status)] } :=
  hostRead_of_value (hostReadValue_regAddr .status s)

theorem takeEventBusy_status (s : State) :
    takeEventBusy (.host (.rd (regAddr .status))) s = hostRead (regAddr .status) s := by
  rw [takeEventBusy, if_pos rfl]

/-- A host access to a busy block that is not a read of `STATUS` has no meaning (70_reset_and_hazards.md R230). -/
theorem takeEventBusy_refused {acc : Transaction} (h : acc ≠ .rd (regAddr .status)) (s : State) :
    takeEventBusy (.host acc) s = .refused .accessWhileBusy := by
  cases acc with
  | rd addr => exact if_neg fun haddr => h (congrArg _ haddr)
  | wr addr v => rfl

/-- The word a busy block returns for `STATUS`: BUSY, and ERRS as it was (70_reset_and_hazards.md R230). -/
theorem statusWord_busyStatus (st : Status) :
    statusWord (busyStatus st) = if st.errs then 0b1001#32 else 0b0001#32 := by
  cases herrs : st.errs <;> simp only [statusWord, busyStatus, herrs] <;> rfl

/-- A block whose draw waits takes the host's access when it comes next. -/
theorem step_of_starvedDraw_host {s : State} {acc : Transaction} {rest : List Event} (h : starvedDraw s)
    (henv : s.env = .host acc :: rest) : step s = takeEventBusy (.host acc) { s with env := rest } := by
  have hreset : noResetDue s := fun later => by simp [henv]
  rw [step_of_starvedDraw h hreset, waitingStep, henv]

/-- Settles O57: the access is taken by a block that waits; under the invariant its `STATUS` is that of a busy block. -/
theorem busyBlockAllowsOnlyStatusReads : Obligations.BusyBlockAllowsOnlyStatusReads := by
  unfold Obligations.BusyBlockAllowsOnlyStatusReads
  intro s acc rest hstarved hs henv
  have hstep := step_of_starvedDraw_host hstarved henv
  constructor
  · rintro rfl
    have hword : statusWord s.status = if s.status.errs then 0b1001#32 else 0b0001#32 :=
      (congrArg statusWord (status_of_busy hs (seq_ne_idle_of_starvedDraw hstarved))).trans
        (statusWord_busyStatus s.status)
    rw [← hword]
    exact hstep.trans ((takeEventBusy_status _).trans (hostRead_status _))
  · intro hacc
    exact hstep.trans (takeEventBusy_refused hacc _)

end Sys2Proof.Machine
end

section
/-! How a command ends (60_exceptions.md R190 to R196), in layers: the check of the parameters; everything that a
pseudocode can raise, with the state it raises it in; then the codes of the commands and the precision of an error. -/

namespace Sys2Proof.Machine

/-! ### The check of the parameters -/

section checks
variable {i : Instr} {s : State}

/-- The table of R193, for the commands that check both `Q` and `N`. -/
theorem not_configured_iff : ¬ configured s ↔ (s.q.toNat == 0 || !nValid s.n.toNat) = true := by
  simp [configured, or_iff_not_imp_left]

/-- With a bad parameter the pseudocode does nothing but raise ERR_CONFIG (60_exceptions.md R193). -/
theorem commandBody_of_badConfig (h : badConfig i s = true) : commandBody i s = raise .config s := by
  cases i with
  | nop | rndrange => cases h
  | mulmod => exact mulmodBody_of_zero (beq_iff_eq.mp h)
  | modinv => exact modinvBody_of_zero (beq_iff_eq.mp h)
  | bitrev => exact if_neg (ne_true_of_eq_false ((Bool.not_eq_true' _).mp h))
  | findroot | findrootA | twgenF | twgenI | fntt | intt => exact if_neg (not_configured_iff.mpr h)

theorem exec_of_badConfig (h : badConfig i s = true) : exec i s = .next (afterError 3 s) := by
  have hbad : badConfig i (beginCommand s) = true := h
  exact exec_of_raise rfl (commandBody_of_badConfig hbad)

end checks

/-! ### What a pseudocode raises -/

/-- Every way in which the pseudocode of a command can raise an error from the state `b`, with the code and the state
in which it raises it (60_exceptions.md R190, the column "raised by"). -/
inductive Raises : Instr → State → ErrCode → State → Prop
  | config {i : Instr} {b : State} (h : badConfig i b = true) : Raises i b .config b
  | invalidRange (b : State) : Raises .rndrange b .invalidRange b
  | inttNotInvertible (b : State) : Raises .intt b .notInvertible b
  | modinvNotInvertible (b : State) : Raises .modinv b .notInvertible b
  | searchInvalidRange {i : Instr} {b b' : State} (hb : Prepares i b b') (attempt : Nat) :
      Raises i b .invalidRange (setAttempt attempt b')
  | rootNotFound {i : Instr} {b b' : State} (hb : Prepares i b b') (attempt : Nat) (rest : List Byte) :
      Raises i b .rootNotFound (setAttempt attempt (setEntropy rest b'))

/-- A pseudocode that ends has run to its end or has raised one of its errors. -/
def EndsOrRaises (i : Instr) (b : State) (r : Result Finish) : Prop :=
  ∀ c u, r = .next (.ended c u) → c = .ok ∨ Raises i b c u

section ends
variable {i : Instr} {b : State}

theorem endsOrRaises_finish (u : State) : EndsOrRaises i b (finish u) := by
  rintro c v hend
  cases hend
  exact .inl rfl

theorem endsOrRaises_raise {c : ErrCode} {u : State} (h : Raises i b c u) : EndsOrRaises i b (raise c u) := by
  rintro c' v hend
  cases hend
  exact .inr h

theorem endsOrRaises_waiting (u : State) : EndsOrRaises i b (.next (.waiting u)) := nofun

theorem endsOrRaises_andThen {α : Type} {r : Result α} {f : α → Result Finish}
    (hf : ∀ x, EndsOrRaises i b (f x)) : EndsOrRaises i b (andThen r f) := by
  intro c u hend
  obtain ⟨x, -, hx⟩ := andThen_eq_next.mp hend
  exact hf x c u hx

theorem endsOrRaises_withQ {k : Nat → Result Finish} (hbad : b.q.toNat = 0 → badConfig i b = true)
    (hk : ∀ q, EndsOrRaises i b (k q)) : EndsOrRaises i b (withQ b k) := by
  rcases withQ_cases b k with ⟨hq, hcheck⟩ | ⟨-, hcheck⟩ <;> rw [hcheck]
  · exact endsOrRaises_raise (.config (hbad hq))
  · exact hk _

theorem endsOrRaises_withN {k : Nat → Result Finish} (hbad : nValid b.n.toNat = false → badConfig i b = true)
    (hk : ∀ n, EndsOrRaises i b (k n)) : EndsOrRaises i b (withN b k) := by
  rcases withN_cases b k with ⟨hn, hcheck⟩ | ⟨-, hcheck⟩ <;> rw [hcheck]
  · exact endsOrRaises_raise (.config (hbad hn))
  · exact hk _

theorem endsOrRaises_withNQ {k : Nat → Nat → Result Finish} (hbad : ¬ configured b → badConfig i b = true)
    (hk : ∀ n q, EndsOrRaises i b (k n q)) : EndsOrRaises i b (withNQ b k) := by
  rcases withNQ_cases b k with ⟨hconf, hcheck⟩ | ⟨-, hcheck⟩ <;> rw [hcheck]
  · exact endsOrRaises_raise (.config (hbad hconf))
  · exact hk _ _

theorem endsOrRaises_rndrangeBody (b : State) : EndsOrRaises .rndrange b (rndrangeBody b) := by
  unfold rndrangeBody
  split
  · exact endsOrRaises_raise (.invalidRange b)
  · exact endsOrRaises_finish _
  · exact endsOrRaises_waiting _

theorem endsOrRaises_findrootBody {auto : Bool} (hbad : ¬ configured b → badConfig i b = true)
    (hprepare : ∀ n q, Prepares i b (prepareR auto n q b)) : EndsOrRaises i b (findrootBody auto b) := by
  refine endsOrRaises_withNQ hbad fun n q => ?_
  have hb := hprepare n q
  dsimp only
  split
  · exact endsOrRaises_finish _
  · exact endsOrRaises_raise (.searchInvalidRange hb _)
  · exact endsOrRaises_raise (.rootNotFound hb _ _)
  · exact endsOrRaises_waiting _

theorem endsOrRaises_twgenBody {dest : Space} (hbad : ¬ configured b → badConfig i b = true) :
    EndsOrRaises i b (twgenBody dest b) :=
  endsOrRaises_withNQ hbad fun _ _ => endsOrRaises_andThen endsOrRaises_finish

theorem endsOrRaises_inttBody (b : State) : EndsOrRaises .intt b (inttBody b) := by
  refine endsOrRaises_withNQ not_configured_iff.mp fun n q => ?_
  split
  · exact endsOrRaises_raise (.inttNotInvertible b)
  · exact endsOrRaises_andThen fun _ => endsOrRaises_andThen endsOrRaises_finish

theorem endsOrRaises_bitrevBody (b : State) : EndsOrRaises .bitrev b (bitrevBody b) :=
  endsOrRaises_withN (Bool.not_eq_true' _).mpr fun _ =>
    endsOrRaises_andThen fun _ => endsOrRaises_andThen endsOrRaises_finish

theorem endsOrRaises_modinvBody (b : State) : EndsOrRaises .modinv b (modinvBody b) := by
  refine endsOrRaises_withQ beq_iff_eq.mpr fun q => ?_
  split
  · exact endsOrRaises_raise (.modinvNotInvertible b)
  · exact endsOrRaises_finish _

theorem endsOrRaises_commandBody (i : Instr) (b : State) : EndsOrRaises i b (commandBody i b) := by
  cases i with
  | nop => exact endsOrRaises_finish b
  | rndrange => exact endsOrRaises_rndrangeBody b
  | findroot => exact endsOrRaises_findrootBody (auto := false) not_configured_iff.mp fun _ _ => .host b
  | findrootA => exact endsOrRaises_findrootBody (auto := true) not_configured_iff.mp fun _ _ => .auto _ b
  | twgenF => exact endsOrRaises_twgenBody (dest := .tf) not_configured_iff.mp
  | twgenI => exact endsOrRaises_twgenBody (dest := .ti) not_configured_iff.mp
  | fntt =>
    exact endsOrRaises_withNQ not_configured_iff.mp fun _ _ => endsOrRaises_andThen endsOrRaises_finish
  | intt => exact endsOrRaises_inttBody b
  | bitrev => exact endsOrRaises_bitrevBody b
  | mulmod => exact endsOrRaises_withQ beq_iff_eq.mpr fun _ => endsOrRaises_finish _
  | modinv => exact endsOrRaises_modinvBody b

end ends

/-! ### Completed commands -/

section completed
variable {i : Instr} {s t u : State} {c : ErrCode}

/-- A command that completes in its own step has run to its end or has raised one of its errors. -/
theorem completed_cases (h : exec i s = .next t) (hidle : t.seq = .idle) :
    ∃ c u, t = completeCommand c u ∧ (c = .ok ∨ Raises i (beginCommand s) c u) := by
  obtain ⟨o, hbody, rfl⟩ := exec_eq_next.mp h
  cases o with
  | ended c u => exact ⟨c, u, rfl, endsOrRaises_commandBody i _ c u hbody⟩
  | waiting w =>
    obtain ⟨-, -, hbusy⟩ := (does_commandBody hbody).waiting
    exact absurd hidle hbusy

theorem toNat_errCodeWord (c : ErrCode) : (errCodeWord c).toNat = errCodeNumber c := by
  cases c <;> rfl

/-- ERR_CONFIG is raised for the parameters of R193 only. -/
theorem badConfig_of_raises (h : Raises i (beginCommand s) c u) (hc : errCodeNumber c = 3) : badConfig i s = true := by
  cases h with
  | config hbad => exact hbad
  | _ => cases hc

/-- The codes of the table of R190. -/
theorem errCodeNumber_mem_of_raises {b : State} (h : Raises i b c u) : errCodeNumber c ∈ possibleCodes i := by
  cases h with
  | config hbad =>
    cases i with
    | nop | rndrange => cases hbad
    | _ => decide
  | invalidRange | inttNotInvertible | modinvNotInvertible => decide
  | searchInvalidRange hb | rootNotFound hb => cases hb <;> decide

theorem zero_mem_possibleCodes (i : Instr) : 0 ∈ possibleCodes i := by
  cases i <;> decide

/-- Settles O8: the check comes before everything else, and no other error has the code 3. -/
theorem configIsCheckedFirst : Obligations.ConfigIsCheckedFirst := by
  unfold Obligations.ConfigIsCheckedFirst
  refine fun i s => ⟨exec_of_badConfig, fun hgood t h hidle hcode => ?_⟩
  obtain ⟨c, u, rfl, hend⟩ := completed_cases h hidle
  have hc : errCodeNumber c = 3 := (toNat_errCodeWord c).symm.trans (congrArg BitVec.toNat hcode)
  rcases hend with rfl | hraise
  · cases hc
  · cases hgood.symm.trans (badConfig_of_raises hraise hc)

/-- Settles O9: the code is one of those raised, and the flags of a completion follow it; that `ERRS` is kept or set is
what the run from other flags says of the run from the same ones. -/
theorem commandsEndWithTheirListedCodes : Obligations.CommandsEndWithTheirListedCodes := by
  unfold Obligations.CommandsEndWithTheirListedCodes
  intro i s t h hidle
  have hsticky : t.status.errs = true ↔ s.status.errs = true ∨ t.errcode ≠ 0 := by
    obtain ⟨u, hu, -, -, herrs⟩ := (commandsIgnoreTheFlags i s s.status s.errcode).1 t h
    obtain rfl := Host.Outcome.next.inj (h.symm.trans hu)
    simpa [hidle] using herrs
  obtain ⟨c, u, rfl, hend⟩ := completed_cases h hidle
  have hlisted : errCodeNumber c ∈ possibleCodes i := by
    rcases hend with rfl | hraise
    · exact zero_mem_possibleCodes i
    · exact errCodeNumber_mem_of_raises hraise
  exact ⟨toNat_errCodeWord c ▸ hlisted, rfl, rfl, (errCodeWord_ne_zero c).symm, hsticky⟩

/-- What an error leaves: the frame, and the writes that precede the raise (60_exceptions.md R196). -/
theorem afterError_of_raises (h : Raises i (beginCommand s) c u) (code : Nat) :
    afterError code u = afterError code { s with r := u.r, attempt := u.attempt, entropy := u.entropy } := by
  cases h with
  | searchInvalidRange hb | rootNotFound hb => cases hb <;> rfl
  | _ => rfl

theorem r_of_raises {b : State} (h : Raises i b c u) (hi : i ≠ .findrootA) : u.r = b.r := by
  cases h with
  | searchInvalidRange hb | rootNotFound hb =>
    cases hb with
    | host => rfl
    | auto => exact absurd rfl hi
  | _ => rfl

theorem source_of_raises {b : State} (h : Raises i b c u) (hi : i ≠ .findroot) (hi' : i ≠ .findrootA) :
    u.attempt = b.attempt ∧ u.entropy = b.entropy := by
  cases h with
  | searchInvalidRange hb | rootNotFound hb =>
    cases hb with
    | host => exact absurd rfl hi
    | auto => exact absurd rfl hi'
  | _ => exact ⟨rfl, rfl⟩

/-- Settles O10: a failed command has raised an error, in a state known from the raise. -/
theorem failedCommandsArePrecise : Obligations.FailedCommandsArePrecise := by
  unfold Obligations.FailedCommandsArePrecise
  intro i s t h hidle hfailed
  obtain ⟨c, u, rfl, rfl | hraise⟩ := completed_cases h hidle
  · exact absurd rfl hfailed
  have hstate : completeCommand c u = afterError (errCodeNumber c) u :=
    completeCommand_error ((errCodeWord_ne_zero c).mp hfailed) u
  have hr := r_of_raises hraise
  have hsource := source_of_raises hraise
  refine ⟨?_, hr, hsource⟩
  rw [completeCommand_errcode, toNat_errCodeWord]
  exact hstate.trans (afterError_of_raises hraise _)

end completed

/-! ### The errors of the draws -/

theorem randRange_of_gt {min max : Nat} (h : max < min) (bs : List Byte) : randRange min max bs = .invalidRange :=
  if_pos h

theorem rndrangeBody_of_gt {s : State} (h : s.opb.toNat < s.opa.toNat) : rndrangeBody s = raise .invalidRange s := by
  rw [rndrangeBody, randRange_of_gt h]

/-- RNDRANGE on an empty range (60_exceptions.md R192). -/
theorem exec_rndrange_invalidRange {s : State} (h : s.opb.toNat < s.opa.toNat) :
    exec .rndrange s = .next (afterError 1 s) :=
  exec_of_raise (i := .rndrange) rfl (rndrangeBody_of_gt (s := beginCommand s) h)

section rootSearch
variable {s : State} {r : Nat} (hconf : configured s) (hr : r = (s.q.toNat - 1) / (2 * s.n.toNat))
include hconf hr

/-- FINDROOT.A on an empty range has written its exponent (60_exceptions.md R192). -/
theorem exec_findrootA_invalidRange (hq : s.q.toNat - 1 < 2) :
    exec .findrootA s = .next (afterError 1 { s with r := toWord r, attempt := 1 }) := by
  rw [exec_findrootA hconf hr, rootSearch_invalidRange hq (by decide)]
  exact congrArg _ (completeCommand_error rfl _)

/-- FINDROOT.A after fifty failed attempts (60_exceptions.md R194). -/
theorem exec_findrootA_notFound {failed : List (List Byte × Nat)} {rest : List Byte} (hcount : failed.length = 50)
    (hfailed : failedAttempts s.n.toNat s.q.toNat r failed)
    (hsource : s.entropy = (failed.map Prod.fst).flatten ++ rest) :
    exec .findrootA s = .next (afterError 2 { s with r := toWord r, attempt := 50, entropy := rest }) := by
  have hsearch : rootSearch s.n.toNat s.q.toNat r Config.attemptsMax 1 s.entropy = .notFound 50 rest := by
    have hattempts := rootSearch_notFound hfailed rest
    rwa [hcount, ← hsource] at hattempts
  rw [exec_findrootA hconf hr, hsearch]
  exact congrArg _ (completeCommand_error rfl _)

end rootSearch

/-- Settles O31: an empty range is found before a byte is taken, by a search in its first attempt. -/
theorem invalidRangeIsReported : Obligations.InvalidRangeIsReported := by
  unfold Obligations.InvalidRangeIsReported
  refine ⟨fun s => exec_rndrange_invalidRange, fun s hq hn => ?_⟩
  have hconf : configured s := ⟨by omega, hn⟩
  exact ⟨exec_findroot_invalidRange hconf (by omega), exec_findrootA_invalidRange hconf rfl (by omega)⟩

/-- Settles O33: either form of the search, with its exponent. -/
theorem findrootFailsAfterFiftyAttempts : Obligations.FindrootFailsAfterFiftyAttempts := by
  unfold Obligations.FindrootFailsAfterFiftyAttempts
  intro s failed rest r hconf hcount hfailed hsource t
  constructor
  · rintro rfl
    exact exec_findroot_notFound hconf hcount hfailed hsource
  · exact fun hr => exec_findrootA_notFound hconf hr hcount hfailed hsource

end Sys2Proof.Machine
end

section
/-! The words FNTT reads (44_forward_ntt.md R157, 70_reset_and_hazards.md R223, R225), in layers: what a butterfly finds
unwritten; what a refused loop names; the command. -/

namespace Sys2Proof.Machine

/-- `r` names a word that FNTT of length `n` reads and that `s` has not written (44_forward_ntt.md R152). -/
def FnttNamesUnwritten (n : Nat) (s : State) (r : Refusal) : Prop :=
  ∃ sp i, r = .unwrittenWord sp i ∧ i < n ∧ memRead (spaceMem sp s) i = none ∧ (sp = .a ∨ (sp = .tf ∧ 1 ≤ i))

section refused
variable {s u : State} {r : Refusal} {k e q : Nat}

theorem FnttNamesUnwritten.of_sameWritten {n : Nat} (hu : SameWritten s u) (h : FnttNamesUnwritten n u r) :
    FnttNamesUnwritten n s r := by
  obtain ⟨sp, i, hr, hi, hnone, hsp⟩ := h
  refine ⟨sp, i, hr, hi, ?_, hsp⟩
  rcases hsp with rfl | ⟨rfl, -⟩
  · have hkept := hu.a i
    rw [show memRead u.a i = none from hnone] at hkept
    exact Option.not_isSome_iff_eq_none.mp (ne_true_of_eq_false hkept.symm)
  · exact (congrArg (memRead · i) hu.tf).symm.trans hnone

/-- A butterfly is refused for its twiddle or for one of its two words (44_forward_ntt.md R151). -/
theorem fnttNamesUnwritten_of_fnttAt (he : e < k) {p : LoopPos} (hp : p ∈ fnttStagePositions k e)
    (h : fnttAt (2 ^ k) q p s = .refused r) : FnttNamesUnwritten (2 ^ k) s r := by
  obtain ⟨hm, hupper, hone, htwiddle⟩ := fnttStage_bounds he hp
  simp only [fnttAt, ctButterfly, andThen_eq_refused, readWord_eq_refused, writeWord_ne_refused, and_false, exists_false,
    or_false, hm] at h
  rcases h with ⟨-, hnone, hr⟩ | ⟨-, -, ⟨-, hnone, hr⟩ | ⟨-, -, -, hnone, hr⟩⟩
  · exact ⟨.tf, _, hr, htwiddle, hnone, .inr ⟨rfl, hone⟩⟩
  · exact ⟨.a, _, hr, by omega, hnone, .inl rfl⟩
  · exact ⟨.a, _, hr, hupper, hnone, .inl rfl⟩

theorem fnttNamesUnwritten_of_fnttLoop (h : forEach (fnttAt (2 ^ k) q) (fnttPositions (2 ^ k)) s = .refused r) :
    FnttNamesUnwritten (2 ^ k) s r := by
  obtain ⟨p, hp, u, hu, hat⟩ :=
    exists_refused_of_forEach (P := SameWritten s) (fun _ _ _ => .fnttAt) h ⟨fun _ => rfl, rfl⟩
  obtain ⟨e, he, hstage⟩ := mem_fnttPositions.mp hp
  exact (fnttNamesUnwritten_of_fnttAt he hstage hat).of_sameWritten hu

/-- A refused FNTT names a word it reads that nothing has written. -/
theorem fnttNamesUnwritten_of_exec_fntt (hn : s.n.toNat = 2 ^ k) (hconf : configured s)
    (h : exec .fntt s = .refused r) : FnttNamesUnwritten (2 ^ k) s r := by
  rw [exec_eq_runCommand, runCommand_eq_refused] at h
  replace h : fnttBody (beginCommand s) = .refused r := h
  rw [fnttBody, withNQ_of_configured (s := beginCommand s) hconf, beginCommand_n, hn, andThen_eq_refused] at h
  rcases h with hloop | ⟨u, -, hfinish⟩
  · exact (fnttNamesUnwritten_of_fnttLoop hloop).of_sameWritten ⟨fun _ => rfl, rfl⟩
  · cases hfinish

end refused

/-- Settles O40: a completed FNTT of two words or more has read its words, with them written it completes, and a refused
one has found one of them unwritten. -/
theorem fnttNeedsExactlyItsWords : Obligations.FnttNeedsExactlyItsWords := by
  unfold Obligations.FnttNeedsExactlyItsWords
  intro s k hk hn hq
  have hconf : configured s := ⟨hq, (nValid_iff _).mpr ⟨k, hk, hn⟩⟩
  refine ⟨?_, fun hpos => ⟨?_, ?_⟩, fun r => fnttNamesUnwritten_of_exec_fntt hn hconf⟩
  · rintro rfl
    exact exec_fntt_one hn hconf
  · rintro ⟨t, ht⟩
    rcases exec_fntt_cases hn hconf ht with ⟨rfl, -⟩ | ⟨-, hA, hTF, -⟩
    · cases hpos
    · exact ⟨hA, hTF⟩
  · rintro ⟨hA, hTF⟩
    obtain ⟨m, hexec, -⟩ := exec_fntt hk hn hq hA hTF
    exact ⟨_, hexec⟩

end Sys2Proof.Machine
end

section
/-! Where a step of the block stops (20_memory.md R66, 70_reset_and_hazards.md R225, R230), in layers: the commands that
always answer; the refusals of the others; the events that an idle block takes; a block whose command waits. -/

namespace Sys2Proof.Machine

/-! ### Commands -/

section commands
variable {i : Instr} {s : State}

theorem configured_of_badConfig (h : (s.q.toNat == 0 || !nValid s.n.toNat) = false) : configured s :=
  not_not.mp (not_configured_iff.not.mpr (ne_true_of_eq_false h))

/-- RNDRANGE answers whatever bytes are ready (41_secure_random_range.md R121, R124). -/
theorem exec_rndrange_answers (s : State) : ∃ t, exec .rndrange s = .next t := by
  have hbody : ∃ o, rndrangeBody (beginCommand s) = .next o := by
    unfold rndrangeBody
    split <;> exact ⟨_, rfl⟩
  obtain ⟨o, ho⟩ := hbody
  exact ⟨_, exec_eq_next.mpr ⟨o, ho, rfl⟩⟩

/-- A TWGEN writes words and reads none (43_twiddle_table.md R140). -/
theorem exec_twgen_answers (hconf : configured s) : (∃ t, exec .twgenF s = .next t) ∧ ∃ t, exec .twgenI s = .next t := by
  obtain ⟨k, hk, hn⟩ := (nValid_iff _).mp hconf.2
  obtain ⟨⟨m, hF, -⟩, m', hI, -⟩ := twgenBuildsTheBitReversedPowers s k hk hn hconf.1
  exact ⟨⟨_, hF⟩, _, hI⟩

theorem exec_mulmod_answers (hq : s.q.toNat ≠ 0) : ∃ t, exec .mulmod s = .next t :=
  ⟨_, exec_of_finish (i := .mulmod) (mulmodBody_of_ne_zero (s := beginCommand s) hq)⟩

theorem exec_modinv_answers (hq : s.q.toNat ≠ 0) : ∃ t, exec .modinv s = .next t := by
  cases hinverse : modInv s.opa.toNat s.q.toNat with
  | none => exact ⟨_, exec_of_raise (i := .modinv) rfl (modinvBody_of_none (s := beginCommand s) hq hinverse)⟩
  | some y => exact ⟨_, exec_of_finish (i := .modinv) (modinvBody_of_some (s := beginCommand s) hq hinverse)⟩

/-- A refused FNTT or INTT has passed its checks and names a word that nothing has written. -/
theorem unwritten_of_exec_transform {r : Refusal} (hi : i = .fntt ∨ i = .intt) (hconf : configured s)
    (h : exec i s = .refused r) : ∃ sp j, r = .unwrittenWord sp j ∧ memRead (spaceMem sp s) j = none := by
  obtain ⟨k, hk, hn⟩ := (nValid_iff _).mp hconf.2
  rcases hi with rfl | rfl
  · obtain ⟨-, -, hrefused⟩ := fnttNeedsExactlyItsWords s k hk hn hconf.1
    obtain ⟨sp, j, hr, -, hnone, -⟩ := hrefused r h
    exact ⟨sp, j, hr, hnone⟩
  · obtain ⟨-, -, hrefused⟩ := inttNeedsExactlyItsWords s k hk hn hconf.1
    obtain ⟨sp, j, hr, -, hnone, -⟩ := hrefused r h
    exact ⟨sp, j, hr, hnone⟩

theorem unwritten_of_exec_bitrev {r : Refusal} (hn : nValid s.n.toNat = true) (h : exec .bitrev s = .refused r) :
    ∃ sp j, r = .unwrittenWord sp j ∧ memRead (spaceMem sp s) j = none := by
  obtain ⟨k, hk, hnk⟩ := (nValid_iff _).mp hn
  rcases exec_bitrev_cases hk hnk with ⟨-, m, hexec, -⟩ | ⟨j, -, hnone, hexec⟩
  · cases h.symm.trans hexec
  · cases h.symm.trans hexec
    exact ⟨.a, j, rfl, hnone⟩

/-- A command is refused only for a memory word that nothing has written (70_reset_and_hazards.md R225). -/
theorem unwritten_of_exec_refused {r : Refusal} (h : exec i s = .refused r) :
    ∃ sp j, r = .unwrittenWord sp j ∧ memRead (spaceMem sp s) j = none := by
  have hanswers : ¬ ∃ t, exec i s = .next t := fun ⟨t, ht⟩ => by cases h.symm.trans ht
  cases hbad : badConfig i s with
  | true => exact absurd ⟨_, exec_of_badConfig hbad⟩ hanswers
  | false =>
    cases i with
    | nop => exact absurd ⟨_, exec_nop s⟩ hanswers
    | rndrange => exact absurd (exec_rndrange_answers s) hanswers
    | findroot => exact absurd ⟨_, exec_findroot (configured_of_badConfig hbad)⟩ hanswers
    | findrootA => exact absurd ⟨_, exec_findrootA (configured_of_badConfig hbad) rfl⟩ hanswers
    | twgenF => exact absurd (exec_twgen_answers (configured_of_badConfig hbad)).1 hanswers
    | twgenI => exact absurd (exec_twgen_answers (configured_of_badConfig hbad)).2 hanswers
    | fntt => exact unwritten_of_exec_transform (.inl rfl) (configured_of_badConfig hbad) h
    | intt => exact unwritten_of_exec_transform (.inr rfl) (configured_of_badConfig hbad) h
    | bitrev => exact unwritten_of_exec_bitrev ((Bool.not_eq_false' _).mp hbad) h
    | mulmod => exact absurd (exec_mulmod_answers (ne_of_beq_false hbad)) hanswers
    | modinv => exact absurd (exec_modinv_answers (ne_of_beq_false hbad)) hanswers

end commands

/-! ### Where the spec lets a step stop -/

/-- The refusals that the spec allows in the state `s`: of a word nothing has written (70_reset_and_hazards.md R225), and
of a host access to a busy block (R230). -/
def AllowedRefusal (s : State) (r : Refusal) : Prop :=
  (∃ sp i, r = .unwrittenWord sp i ∧ memRead (spaceMem sp s) i = none) ∨
  (r = .accessWhileBusy ∧ s.status.busy = true)

/-- The operation, begun in the state `s`, stops only where the spec lets it: it never faults, and its refusals are
allowed ones. -/
structure StopsAsAllowed {α : Type} (s : State) (o : Result α) : Prop where
  noFault : NeverFaults o
  refusal : ∀ r, o = .refused r → AllowedRefusal s r

section stops
variable {s : State}

theorem stopsAsAllowed_next {α : Type} (s : State) (x : α) : StopsAsAllowed s (.next x) :=
  ⟨neverFaults_next x, nofun⟩

/-- What may stop an operation is seen in the memories and in `BUSY` alone. -/
theorem StopsAsAllowed.congr {α : Type} {s' : State} {o : Result α} (h : StopsAsAllowed s' o)
    (hmem : ∀ sp, spaceMem sp s' = spaceMem sp s) (hstatus : s'.status = s.status) : StopsAsAllowed s o where
  noFault := h.noFault
  refusal r hr := by
    have hallowed := h.refusal r hr
    simpa only [AllowedRefusal, hmem, hstatus] using hallowed

theorem stopsAsAllowed_andThen {α β : Type} {o : Result α} {f : α → Result β} (ho : StopsAsAllowed s o)
    (hf : ∀ x, StopsAsAllowed s (f x)) : StopsAsAllowed s (andThen o f) where
  noFault := neverFaults_andThen ho.noFault fun x => (hf x).noFault
  refusal r hr := by
    rcases andThen_eq_refused.mp hr with hfirst | ⟨x, -, hrest⟩
    · exact ho.refusal r hfirst
    · exact (hf x).refusal r hrest

theorem stopsAsAllowed_exec (i : Instr) (s : State) : StopsAsAllowed s (exec i s) where
  noFault := commandsNeverFault i s
  refusal _ hr := .inl (unwritten_of_exec_refused hr)

theorem stopsAsAllowed_readWord {i : Nat} (hi : i < Config.nMax) (sp : Space) (s : State) :
    StopsAsAllowed s (readWord sp i s) where
  noFault := neverFaults_readWord hi
  refusal r hr := by
    obtain ⟨-, hnone, hr⟩ := readWord_eq_refused.mp hr
    exact .inl ⟨sp, i, hr, hnone⟩

theorem stopsAsAllowed_writeWord {i : Nat} (hi : i < Config.nMax) (sp : Space) (v : Word) (s : State) :
    StopsAsAllowed s (writeWord sp i v s) where
  noFault := neverFaults_writeWord hi
  refusal r hr := absurd hr (writeWord_ne_refused sp i v s r)

/-! ### The events an idle block takes -/

/-- A host address names a word inside its memory (20_memory.md R60). -/
theorem addrOffset_lt (addr : Addr) : addrOffset addr < Config.nMax := Nat.mod_lt _ (Nat.two_pow_pos _)

theorem stopsAsAllowed_hostRead (addr : Addr) (s : State) : StopsAsAllowed s (hostRead addr s) := by
  refine stopsAsAllowed_andThen ?_ fun v => stopsAsAllowed_next s _
  rcases hostReadValue_cases addr s with ⟨sp, -, hvalue⟩ | ⟨-, reg, -, hvalue⟩ | ⟨-, -, hvalue⟩ <;> rw [hvalue]
  · exact stopsAsAllowed_readWord (addrOffset_lt addr) sp s
  · exact stopsAsAllowed_next s _
  · exact stopsAsAllowed_next s _

theorem stopsAsAllowed_writeCmd (v : Word) (s : State) : StopsAsAllowed s (writeCmd v s) := by
  cases hdecode : decode v with
  | legal i =>
    rw [writeCmd_legal hdecode]
    exact (stopsAsAllowed_exec i _).congr (fun sp => by cases sp <;> rfl) rfl
  | illegal why =>
    rw [writeCmd_illegal hdecode]
    exact stopsAsAllowed_next s _

theorem stopsAsAllowed_hostWriteReg (reg : Reg) (v : Word) (s : State) : StopsAsAllowed s (hostWriteReg reg v s) := by
  cases reg with
  | cmd => exact stopsAsAllowed_writeCmd v s
  | _ => exact stopsAsAllowed_next s _

theorem stopsAsAllowed_hostWrite (addr : Addr) (v : Word) (s : State) : StopsAsAllowed s (hostWrite addr v s) := by
  unfold hostWrite
  split
  · exact stopsAsAllowed_writeWord (addrOffset_lt addr) .a v s
  · exact stopsAsAllowed_next s s
  · exact stopsAsAllowed_next s s
  · split
    · exact stopsAsAllowed_hostWriteReg _ v s
    · exact stopsAsAllowed_next s s

theorem stopsAsAllowed_takeEvent (e : Event) (s : State) : StopsAsAllowed s (takeEvent e s) := by
  cases e with
  | host acc =>
    cases acc with
    | rd addr => exact stopsAsAllowed_hostRead addr s
    | wr addr v => exact stopsAsAllowed_hostWrite addr v s
  | entropy bs => exact stopsAsAllowed_next s _
  | reset => exact stopsAsAllowed_next s _

theorem stopsAsAllowed_step_idle (hidle : s.seq = .idle) : StopsAsAllowed s (step s) := by
  cases henv : s.env with
  | nil =>
    rw [step_idle_nil hidle henv]
    exact stopsAsAllowed_next s s
  | cons e rest =>
    rw [step_idle_cons hidle henv]
    exact (stopsAsAllowed_takeEvent e _).congr (fun sp => by cases sp <;> rfl) rfl

/-! ### A block whose command waits -/

theorem stopsAsAllowed_takeEventBusy (hbusy : s.status.busy = true) (e : Event) :
    StopsAsAllowed s (takeEventBusy e s) := by
  cases e with
  | host acc =>
    by_cases hacc : acc = .rd (regAddr .status)
    · rw [hacc, takeEventBusy_status, hostRead_status]
      exact stopsAsAllowed_next s _
    · rw [takeEventBusy_refused hacc]
      refine ⟨nofun, fun r hr => ?_⟩
      cases hr
      exact .inr ⟨rfl, hbusy⟩
  | entropy bs => exact stopsAsAllowed_next s _
  | reset => exact stopsAsAllowed_next s _

theorem stopsAsAllowed_waitingStep (hbusy : s.status.busy = true) : StopsAsAllowed s (waitingStep s) := by
  unfold waitingStep
  split
  · exact stopsAsAllowed_next s s
  · next e rest henv =>
    exact (stopsAsAllowed_takeEventBusy (s := { s with env := rest }) hbusy e).congr
      (fun sp => by cases sp <;> rfl) rfl

/-- Between two steps only a draw or a root search is in progress, and their micro-steps make no access to a memory. -/
theorem microStep_answers (hs : seqInv s) : ∃ o, microStep s = .next o := by
  cases hpos : s.seq with
  | idle | draw d | root k phase => simp [microStep, hpos]
  | _ => simp only [seqInv, hpos] at hs

theorem stopsAsAllowed_busyStep (hs : seqInv s) (hbusy : s.status.busy = true) : StopsAsAllowed s (busyStep s) := by
  by_cases hreset : ∃ rest, s.env = .reset :: rest
  · obtain ⟨rest, henv⟩ := hreset
    rw [busyStep_reset henv]
    exact stopsAsAllowed_next s _
  · obtain ⟨o, ho⟩ := microStep_answers hs
    rcases busyStep_cases (not_exists.mp hreset) with ⟨t, -, hstep⟩ | ⟨-, hstep⟩ | ⟨e, he, -⟩ | ⟨e, he, -⟩
    · rw [hstep]
      exact stopsAsAllowed_next s t
    · rw [hstep]
      exact stopsAsAllowed_waitingStep hbusy
    · cases ho.symm.trans he
    · cases ho.symm.trans he

end stops

/-- Settles O60: an idle block stops only in an event it takes; under the invariant a command in progress is a draw or a
search, whose micro-steps answer, and BUSY is set when a host access is refused. -/
theorem stepsStopOnlyWhereTheSpecLetsThem : Obligations.StepsStopOnlyWhereTheSpecLetsThem := by
  unfold Obligations.StepsStopOnlyWhereTheSpecLetsThem
  intro s hs
  have hstops : StopsAsAllowed s (step s) := by
    by_cases hidle : s.seq = .idle
    · exact stopsAsAllowed_step_idle hidle
    · obtain ⟨-, -, -, hbit, -, -, -, hseq⟩ := hs
      rw [step_busy hidle]
      exact stopsAsAllowed_busyStep hseq (hbit.mpr hidle)
  exact ⟨hstops.noFault, hstops.refusal⟩

end Sys2Proof.Machine
end
